-- ==== Sys2Proof/Word.lean ====
section
/-! DEFINITION. The bus word, the operand register names and the error codes: the plain names the rest of the model is
written in. -/

namespace Sys2Proof

/-- A 32-bit bus word, command word or limb (00_scope R5 `LIMB`, 10_state R43). -/
abbrev Word := BitVec 32

/-- The eight operand registers V0 to V7, under their assembler names (10_state R32, 30_encoding R100). -/
inductive Reg where
  | v0 | v1 | v2 | v3 | v4 | v5 | v6 | v7
deriving DecidableEq, Repr

/-- The index of an operand register (10_state R32). -/
def Reg.index : Reg → Nat
  | .v0 => 0 | .v1 => 1 | .v2 => 2 | .v3 => 3 | .v4 => 4 | .v5 => 5 | .v6 => 6 | .v7 => 7

/-- `STATUS.ERRCODE` by the names of 60_exceptions R168. The reserved codes 9 to 15 are never produced, so they have no name. -/
inductive ErrCode where
  | noError     -- 0 NONE
  | illegal     -- 1 ILLEGAL
  | badreg      -- 2 BADREG
  | noctx       -- 3 NOCTX
  | evenmod     -- 4 EVENMOD
  | range       -- 5 RANGE
  | badmod      -- 6 BADMOD
  | zeroarg     -- 7 ZEROARG
  | notcoprime  -- 8 NOTCOPRIME
deriving DecidableEq, Repr

end Sys2Proof
end

