-- ==== Sys2Proof/Machine/Numbers.lean ====
section
/-! DEFINITION. The arithmetic of 00_scope R7, R8, R11 and the solver of 42_euclid R141 on mathematical integers: what the
commands compute, in forms that run. -/

namespace Sys2Proof.Machine

/-- `bitlen(v)`: the least `k` with `v < 2^k` (00_scope R7). -/
def bitlen (v : Nat) : Nat := if v = 0 then 0 else Nat.log2 v + 1

/-- `twos_N(z)`: the `N`-bit two's-complement pattern of an integer (00_scope R8). -/
def twos (n : Nat) (z : Int) : Nat := (z % 2 ^ n).toNat

/-- `sext_N(v)`: the `N`-bit pattern `v` read as a signed value (00_scope R8). -/
def sext (n v : Nat) : Int := if v.testBit (n - 1) then (v : Int) - 2 ^ n else v

/-- The answer `(g, x, y)` of the solver: `g = gcd`, and the Bézout coefficients. -/
structure Bezout where
  g : Nat
  x : Int
  y : Int
deriving DecidableEq, Repr

/-- One unwind step of the solver, `x = y1 - ⌊b/a⌋·x1`, `y = x1` (42_euclid R141). -/
def Bezout.unwind (r : Bezout) (q : Nat) : Bezout := ⟨r.g, r.y - q * r.x, r.x⟩

/-- `Solve(A, B)` by the recursion of 42_euclid R141, on a bound for the recursion depth. -/
def solveFuel : Nat → Nat → Nat → Bezout
  | 0, _, b => ⟨b, 0, 1⟩
  | fuel + 1, a, b => if a = 0 then ⟨b, 0, 1⟩ else (solveFuel fuel (b % a) a).unwind (b / a)

/-- `Solve(A, B)` (42_euclid R141). The first argument falls in every step, so `A` steps reach the base case. -/
def solve (a b : Nat) : Bezout := solveFuel a a b

/-- `inv(a, m)`, the inverse of `a` modulo `m` in `[0, m)` (00_scope R11), by the solver as 42_euclid R142 computes it. -/
def inv (a m : Nat) : Nat := ((solve a m).x % (m : Int)).toNat

/-- The square-and-multiply loop over the bits `i - 1` down to 0 of the exponent (43_modexp R151), reducing with `mod`. -/
def powModLoop (x e n : Nat) : Nat → Nat → Nat
  | 0, acc => acc
  | i + 1, acc =>
    powModLoop x e n i (if e.testBit i then (acc * acc % n) * x % n else acc * acc % n)

/-- `x^e mod n` for `n > 0`, with `0^0 = 1` (00_scope R7), computed by square-and-multiply (43_modexp R150, R151). -/
def powMod (x e n : Nat) : Nat := powModLoop x e n (bitlen e) (1 % n)

end Sys2Proof.Machine
end

