-- ==== Sys2Proof/Syntax.lean ====
section
/-! DEFINITION. The twelve commands of spec/opcode_table.json as one inductive type. Operands stand in the order of the
assembler syntax of 30_encoding R99: destinations first, then sources. -/

namespace Sys2Proof

/-- The commands of 30_encoding R91, one constructor per row of the opcode table. -/
inductive Instr where
  /-- `NOP` (40_control R110). -/
  | nop
  /-- `SETMOD va` (40_control R112). -/
  | setmod (a : Reg)
  /-- `MONTMUL vd, va, vb` (41_multiply_reduce R122). -/
  | montmul (d a b : Reg)
  /-- `TOMONT vd, va` (41_multiply_reduce R123). -/
  | tomont (d a : Reg)
  /-- `FROMMONT vd, va` (41_multiply_reduce R124). -/
  | frommont (d a : Reg)
  /-- `MODMUL vd, va, vb` (41_multiply_reduce R126). -/
  | modmul (d a b : Reg)
  /-- `BRED vd, vhi, vlo` (41_multiply_reduce R127). -/
  | bred (d hi lo : Reg)
  /-- `MULW vlo, vhi, va, vb` (41_multiply_reduce R120). -/
  | mulw (lo hi a b : Reg)
  /-- `MODEXP vd, vbase, vexp` (43_modexp R150). -/
  | modexp (d a b : Reg)
  /-- `EGCD vg, vx, vy, va, vb` (42_euclid R140). -/
  | egcd (g x y a b : Reg)
  /-- `MODINV vd, va, vm` (42_euclid R142). -/
  | modinv (d a m : Reg)
  /-- `MOV vd, va` (40_control R111). -/
  | mov (d a : Reg)
deriving DecidableEq, Repr

end Sys2Proof
end

