-- ==== Sys2Proof/WellFormed.lean ====
section
/-! DEFINITION. Which terms of `Instr` are commands of MMB: the destinations of one command are distinct registers
(30_encoding R96). Register indices of 8 to 15 cannot be written as a `Reg`; the decoder refuses them (R93). -/

namespace Sys2Proof

/-- 30_encoding R96: `MULW` needs `RD ≠ RC`, `EGCD` needs `RD`, `RC`, `RE` pairwise distinct. -/
def Instr.wellFormed : Instr → Bool
  | .nop => true
  | .setmod _ => true
  | .montmul _ _ _ => true
  | .tomont _ _ => true
  | .frommont _ _ => true
  | .modmul _ _ _ => true
  | .bred _ _ _ => true
  | .mulw lo hi _ _ => decide (lo ≠ hi)
  | .modexp _ _ _ => true
  | .egcd g x y _ _ => decide (g ≠ x) && decide (g ≠ y) && decide (x ≠ y)
  | .modinv _ _ _ => true
  | .mov _ _ => true

end Sys2Proof
end

