-- ==== Sys2Proof/Decode.lean ====
section
/-! DEFINITION. The command decoder of 30_encoding R95, total on every 32-bit word and rejecting by name (`ILLEGAL`,
`BADREG`), and after it the encoder of R90, R91 and R99. -/

namespace Sys2Proof

/-! ## The fields of a command word (30_encoding R90) -/

def opcOf (w : Word) : BitVec 8 := w.extractLsb' 0 8
def rdOf (w : Word) : BitVec 4 := w.extractLsb' 8 4
def raOf (w : Word) : BitVec 4 := w.extractLsb' 12 4
def rbOf (w : Word) : BitVec 4 := w.extractLsb' 16 4
def rcOf (w : Word) : BitVec 4 := w.extractLsb' 20 4
def reOf (w : Word) : BitVec 4 := w.extractLsb' 24 4
def rsvOf (w : Word) : BitVec 4 := w.extractLsb' 28 4

/-- The fields of R90 in R90's order, the command word put together. -/
def mkWord (rsv re rc rb ra rd : BitVec 4) (opc : BitVec 8) : Word :=
  rsv ++ re ++ rc ++ rb ++ ra ++ rd ++ opc

/-- Whether the command with opcode `opc` uses field `RD` (30_encoding R91). -/
def usesRd (opc : Nat) : Bool := opc ∉ [0x00, 0x01]

/-- Whether the command with opcode `opc` uses field `RA` (30_encoding R91). -/
def usesRa (opc : Nat) : Bool := opc ∉ [0x00]

/-- Whether the command with opcode `opc` uses field `RB` (30_encoding R91). -/
def usesRb (opc : Nat) : Bool := opc ∈ [0x02, 0x05, 0x06, 0x07, 0x08, 0x09, 0x0A]

/-- Whether the command with opcode `opc` uses field `RC` (30_encoding R91). -/
def usesRc (opc : Nat) : Bool := opc ∈ [0x07, 0x09]

/-- Whether the command with opcode `opc` uses field `RE` (30_encoding R91). -/
def usesRe (opc : Nat) : Bool := opc ∈ [0x09]

/-- The five register fields of `w` in the order of R95, each with whether its opcode uses it. -/
def fieldsOf (w : Word) : List (Bool × BitVec 4) :=
  let opc := (opcOf w).toNat
  [(usesRd opc, rdOf w), (usesRa opc, raOf w), (usesRb opc, rbOf w), (usesRc opc, rcOf w), (usesRe opc, reOf w)]

/-- The operand register with index `n`, for `n < 8` (10_state R32). -/
def regAt (n : Nat) : Reg :=
  match n with
  | 0 => .v0 | 1 => .v1 | 2 => .v2 | 3 => .v3 | 4 => .v4 | 5 => .v5 | 6 => .v6 | _ => .v7

/-- The operand register a 4-bit field selects (30_encoding R93); the decoder looks only at fields below 8. -/
def regOf (f : BitVec 4) : Reg := regAt f.toNat

/-- The field value that selects a register. -/
def fieldOf (r : Reg) : BitVec 4 := BitVec.ofNat 4 r.index

/-- The command of an opcode, its operands taken from the fields R91 names. -/
def commandOf (opc : Nat) (d a b c e : Reg) : Instr :=
  match opc with
  | 0x00 => .nop
  | 0x01 => .setmod a
  | 0x02 => .montmul d a b
  | 0x03 => .tomont d a
  | 0x04 => .frommont d a
  | 0x05 => .modmul d a b
  | 0x06 => .bred d a b
  | 0x07 => .mulw d c a b
  | 0x08 => .modexp d a b
  | 0x09 => .egcd d c e a b
  | 0x0A => .modinv d a b
  | _ => .mov d a

/-- Decoding, in the order of 30_encoding R95: the first check that fails decides the error. -/
def decode (w : Word) : Except ErrCode Instr :=
  if 0x0B < (opcOf w).toNat then .error .illegal
  else if rsvOf w ≠ 0 then .error .illegal
  else if (fieldsOf w).any (fun f => !f.1 && f.2 != 0) then .error .illegal
  else if (fieldsOf w).any (fun f => f.1 && decide (8 ≤ f.2.toNat)) then .error .badreg
  else
    let i := commandOf (opcOf w).toNat (regOf (rdOf w)) (regOf (raOf w)) (regOf (rbOf w)) (regOf (rcOf w)) (regOf (reOf w))
    if i.wellFormed then .ok i else .error .illegal

/-- The opcode of a command (30_encoding R91, R92). -/
def opcodeOf : Instr → BitVec 8
  | .nop => 0x00
  | .setmod _ => 0x01
  | .montmul _ _ _ => 0x02
  | .tomont _ _ => 0x03
  | .frommont _ _ => 0x04
  | .modmul _ _ _ => 0x05
  | .bred _ _ _ => 0x06
  | .mulw _ _ _ _ => 0x07
  | .modexp _ _ _ => 0x08
  | .egcd _ _ _ _ _ => 0x09
  | .modinv _ _ _ => 0x0A
  | .mov _ _ => 0x0B

/-- The command word of an instruction: each operand in the field of 30_encoding R99, every unused field and `RSV` 0. -/
def encode (i : Instr) : Word :=
  match i with
  | .nop => mkWord 0 0 0 0 0 0 (opcodeOf i)
  | .setmod a => mkWord 0 0 0 0 (fieldOf a) 0 (opcodeOf i)
  | .montmul d a b => mkWord 0 0 0 (fieldOf b) (fieldOf a) (fieldOf d) (opcodeOf i)
  | .tomont d a => mkWord 0 0 0 0 (fieldOf a) (fieldOf d) (opcodeOf i)
  | .frommont d a => mkWord 0 0 0 0 (fieldOf a) (fieldOf d) (opcodeOf i)
  | .modmul d a b => mkWord 0 0 0 (fieldOf b) (fieldOf a) (fieldOf d) (opcodeOf i)
  | .bred d hi lo => mkWord 0 0 0 (fieldOf lo) (fieldOf hi) (fieldOf d) (opcodeOf i)
  | .mulw lo hi a b => mkWord 0 0 (fieldOf hi) (fieldOf b) (fieldOf a) (fieldOf lo) (opcodeOf i)
  | .modexp d a b => mkWord 0 0 0 (fieldOf b) (fieldOf a) (fieldOf d) (opcodeOf i)
  | .egcd g x y a b => mkWord 0 (fieldOf y) (fieldOf x) (fieldOf b) (fieldOf a) (fieldOf g) (opcodeOf i)
  | .modinv d a m => mkWord 0 0 0 (fieldOf m) (fieldOf a) (fieldOf d) (opcodeOf i)
  | .mov d a => mkWord 0 0 0 0 (fieldOf a) (fieldOf d) (opcodeOf i)

/-- The instruction the decoder reads from the bits `w` of an opcode-table row: a row is one 32-bit word (30_encoding R98),
and every bit above `nbits` is 0. -/
def decodeTableWord (nbits w : Nat) : Option Instr :=
  match decode (BitVec.ofNat 32 (w % 2 ^ nbits)) with
  | .ok i => some i
  | .error _ => none

/-! ## Destinations -/

/-- The registers a command writes (30_encoding R91: the fields `RD`, `RC`, `RE` it uses). -/
def Instr.dests : Instr → List Reg
  | .nop => []
  | .setmod _ => []
  | .montmul d _ _ => [d]
  | .tomont d _ => [d]
  | .frommont d _ => [d]
  | .modmul d _ _ => [d]
  | .bred d _ _ => [d]
  | .mulw lo hi _ _ => [lo, hi]
  | .modexp d _ _ => [d]
  | .egcd g x y _ _ => [g, x, y]
  | .modinv d _ _ => [d]
  | .mov d _ => [d]

/-- The destination registers of a command word that a soft reset abandons (70_reset_and_hazards R191): the fields among `RD`,
`RC`, `RE` that its opcode uses and whose value is below 8; none for an undefined opcode. The other checks of R95 do not
matter here. -/
def abandonedDests (w : Word) : List Reg :=
  let opc := (opcOf w).toNat
  if 0x0B < opc then []
  else ([(usesRd opc, rdOf w), (usesRc opc, rcOf w), (usesRe opc, reOf w)].filter
    (fun f => f.1 && decide (f.2.toNat < 8))).map (fun f => regOf f.2)

end Sys2Proof
end

