-- ==== Sys2Proof/Config.lean ====
section
/-! DEFINITION. What an implementation fixes (the open parameters `L` and `BASE` of 00_scope R5) and the free values the spec
leaves open (10_state R47, 70_reset_and_hazards R190 and R191). -/

namespace Sys2Proof

/-- The open parameters of 00_scope R5 that the port and the datapath depend on. They are configuration, not state
(10_state R42): no step changes them. -/
structure Params where
  /-- `L`, the number of 32-bit limbs of an operand register. -/
  limbs : Nat
  /-- `BASE`, the bus address of the register window. -/
  base : Nat
deriving DecidableEq, Repr

/-- 00_scope R5: `1 ≤ L ≤ 128`, and `BASE` is a multiple of `0x4000`. -/
abbrev Params.Valid (p : Params) : Prop := 1 ≤ p.limbs ∧ p.limbs ≤ 128 ∧ p.base % 0x4000 = 0

/-- The reference configuration `L = 128` of 00_scope R5, with the window at bus address 0.
DESIGN CHOICE (log entry 2; unsafe): the spec leaves `L` and `BASE` open; statements quantify over them. -/
def Params.reference : Params := ⟨128, 0⟩

/-- The test configuration `L = 2` of 00_scope R5 and 95_test_vectors, with the window at bus address 0. -/
def Params.test : Params := ⟨2, 0⟩

/-- A limb of a value the spec leaves unspecified: limb `j` of the `n`-th draw. It has no body, so nothing can be proved of
its value: the contents of an operand register never written since power-on (10_state R47), of an abandoned command's
destinations (70_reset_and_hazards R191), and of what a read is answered while `rst` is asserted (R190, `RESET_ACCESS`).
DESIGN CHOICE (log entries 1, 5 and 6; safe). -/
opaque Config.freeLimb (n j : Nat) : Word

end Sys2Proof
end

