-- ==== Sys2Proof/Machine/State.lean ====
section
/-! DEFINITION. The state of MMB (10_state R42) as plain data, the events its environment sends, the reasons a step can stop,
and the state after power-on reset (70_reset_and_hazards R190). -/

namespace Sys2Proof.Machine

/-! ## Operand registers (10_state R32) -/

/-- The contents of a `W`-bit operand register as its `L` limbs, limb 0 (bits [31:0]) first (10_state R43). -/
abbrev Limbs := List Word

/-- The eight operand registers. There are no aliases and no hard-wired register (10_state R32). -/
structure Regs where
  v0 : Limbs
  v1 : Limbs
  v2 : Limbs
  v3 : Limbs
  v4 : Limbs
  v5 : Limbs
  v6 : Limbs
  v7 : Limbs
deriving DecidableEq, Repr

/-! ## The modulus context (10_state R33) -/

/-- The modulus context `CTX`, with the widths of 10_state R33. The `W`-bit and `W + 32`-bit fields are numbers; that they
stay below `2^W` and `2^(W+32)` is part of the invariant of Sys2Proof/Safety.lean. -/
structure Ctx where
  valid : Bool
  odd   : Bool
  /-- `N`, `W` bits: the modulus. -/
  n     : Nat
  /-- `K`, 16 bits: `bitlen(N)`. -/
  k     : BitVec 16
  /-- `NINV0`, 32 bits: the Montgomery constant of 40_control R113. -/
  ninv0 : Word
  /-- `RR`, `W` bits: `R^2 mod N`. -/
  rr    : Nat
  /-- `MU`, `W + 32` bits: the Barrett constant of 40_control R114. -/
  mu    : Nat
deriving DecidableEq, Repr

/-- The context after a reset and before any `SETMOD`: every field 0 (10_state R33). -/
def Ctx.cleared : Ctx := ⟨false, false, 0, 0, 0, 0, 0⟩

/-! ## The sequencer (10_state R34) -/

inductive Phase where
  | idle
  | busy
deriving DecidableEq, Repr

/-! ## What the environment sends -/

/-- What an access does: read, or write a 32-bit word. -/
inductive Dir where
  | read
  | write (v : Word)
deriving DecidableEq, Repr

/-- One host access as it arrives on the bus (20_memory R60 to R62): a byte address of the host bus, how many bytes it
moves, and its byte-lane enables. Only an aligned access of 4 bytes with all lanes enabled is a defined one (R62). -/
structure Access where
  dir   : Dir
  addr  : Nat
  bytes : Nat
  lanes : BitVec 4
deriving DecidableEq, Repr

/-- The steps of the agents of 10_state R30. -/
inductive Event where
  /-- A host access arrives at the port. -/
  | access (a : Access)
  /-- The engine has its turn: the completion step of R45, if enabled. -/
  | engine
  /-- The input `rst` is asserted: power-on reset (70_reset_and_hazards R190). -/
  | assertRst
  /-- The input `rst` is released. -/
  | releaseRst
deriving DecidableEq, Repr

/-! ## The result of a command -/

/-- What `Exec` of 10_state R45 answers: `Ok(writes, newctx)`, or `Err(code)`. -/
inductive CmdResult where
  | ok (writes : List (Reg × Nat)) (newctx : Option Ctx)
  | err (code : ErrCode)
deriving DecidableEq, Repr

/-! ## The state -/

/-- The state of MMB: every row of 10_state R42, the input `rst` (R30), the configuration, and three fields of the model's own. -/
structure State where
  /-- Configuration (10_state R42: 'the parameters `L` and `BASE` are configuration'); no step changes it. -/
  params   : Params
  /-- `V0` to `V7` (R32). -/
  regs     : Regs
  /-- The modulus context (R33). -/
  ctx      : Ctx
  /-- `PHASE` (R34); `STATUS.BUSY` reads it (R39). -/
  phase    : Phase
  /-- `INFLIGHT` (R34): the command captured at START. -/
  inflight : Word
  /-- `CMD` (R38). -/
  cmd      : Word
  /-- `CTRL.IE` (R37). -/
  ie       : Bool
  /-- `STATUS.DONE` (R39). -/
  done     : Bool
  /-- `STATUS.ERR` (R39). -/
  err      : Bool
  /-- `STATUS.AERR` (R39). -/
  aerr     : Bool
  /-- `STATUS.ERRCODE` (R39, 60_exceptions R168). -/
  errcode  : ErrCode
  /-- The level of the reset input (R30 (3)). -/
  rst      : Bool
  /-- The model's own: the events still to come, oldest first. DESIGN CHOICE (log entry 3; safe). -/
  pending  : List Event
  /-- The model's own: what the port answered to the last access that reached the window, some word for a read, none for a
  write. DESIGN CHOICE (log entry 4; safe). -/
  resp     : Option Word
  /-- The model's own: how many free values have been drawn (Config.freeLimb). DESIGN CHOICE (log entry 5; safe). -/
  draws    : Nat
deriving DecidableEq, Repr

/-! ## Faults and refusals -/

/-- Why the machine stops with a fault: never. MMB answers no access with a bus error (20_memory R62), takes no trap
(60_exceptions R173), and no encoding hangs its engine (30_encoding R97), so the type has no constructor, and that it has none is
itself a claim of the spec. Safe: a stop the hardware had would show as a missing step, and the spec says there is none. -/
inductive Fault where
deriving DecidableEq, Repr

/-- Why the model has no meaning for an instruction. -/
inductive Refusal where
  /-- Raised only by an arm of `exec` whose instruction has no meaning yet; no arm raises it now. Safe: the model would stop
  where the hardware goes on. -/
  | notModelled (mnemonic : String)
deriving DecidableEq, Repr

/-! ## Reset -/

/-- A free draw of an `L`-limb register value, the `n`-th (10_state R47: 'a free draw of a W-bit value, never as zero'). -/
def freeReg (limbs n : Nat) : Limbs := (List.range limbs).map (Config.freeLimb n)

/-- Eight free draws, the `n`-th to the `n + 7`-th, one for each operand register. -/
def freeRegs (limbs n : Nat) : Regs :=
  ⟨freeReg limbs n, freeReg limbs (n + 1), freeReg limbs (n + 2), freeReg limbs (n + 3),
   freeReg limbs (n + 4), freeReg limbs (n + 5), freeReg limbs (n + 6), freeReg limbs (n + 7)⟩

/-- The machine right after power-on reset in the configuration `p` (10_state R42, 70_reset_and_hazards R190): all control
state 0, the context cleared, the operand registers unspecified (free draws, R47), nothing pending. -/
def State.resetFor (p : Params) : State where
  params   := p
  regs     := freeRegs p.limbs 0
  ctx      := Ctx.cleared
  phase    := .idle
  inflight := 0
  cmd      := 0
  ie       := false
  done     := false
  err      := false
  aerr     := false
  errcode  := .noError
  rst      := false
  pending  := []
  resp     := none
  draws    := 8

/-- The machine right after power-on reset, in the reference configuration of 00_scope R5. -/
def State.reset : State := State.resetFor Params.reference

end Sys2Proof.Machine
end

