-- ==== Sys2Proof/Machine/Ops.lean ====
section
/-! DEFINITION. The named operations over the operand registers and the control state: reading and writing a register, the
completion of a command with and without an error (the one shared 'exception' of this machine, 60_exceptions R170), START
acceptance, and the two resets. -/

namespace Sys2Proof.Machine

/-! ## Limbs and numbers (10_state R43, 00_scope R6) -/

/-- The unsigned integer that a list of limbs holds, limb 0 least significant (10_state R43). -/
def ofLimbs : Limbs → Nat
  | [] => 0
  | x :: xs => x.toNat + 2 ^ 32 * ofLimbs xs

/-- The low `32·l` bits of `v` as `l` limbs, limb 0 first (10_state R43). -/
def toLimbs : Nat → Nat → Limbs
  | 0, _ => []
  | l + 1, v => BitVec.ofNat 32 v :: toLimbs l (v / 2 ^ 32)

/-- Limb `j` of the number `v`: `v[32·j+31 : 32·j]` (10_state R43, R44). -/
def limbOf (v j : Nat) : Word := BitVec.ofNat 32 (v / 2 ^ (32 * j))

/-! ## The register file (10_state R32) -/

def Regs.get (rf : Regs) : Reg → Limbs
  | .v0 => rf.v0 | .v1 => rf.v1 | .v2 => rf.v2 | .v3 => rf.v3
  | .v4 => rf.v4 | .v5 => rf.v5 | .v6 => rf.v6 | .v7 => rf.v7

def Regs.set (rf : Regs) (r : Reg) (x : Limbs) : Regs :=
  match r with
  | .v0 => { rf with v0 := x }
  | .v1 => { rf with v1 := x }
  | .v2 => { rf with v2 := x }
  | .v3 => { rf with v3 := x }
  | .v4 => { rf with v4 := x }
  | .v5 => { rf with v5 := x }
  | .v6 => { rf with v6 := x }
  | .v7 => { rf with v7 := x }

/-- `W = 32·L`, the operand width (00_scope R5). -/
def State.width (s : State) : Nat := 32 * s.params.limbs

/-- `V[r]` as an unsigned integer (00_scope R9). -/
def State.value (s : State) (r : Reg) : Nat := ofLimbs (s.regs.get r)

/-- Replace the limbs of one operand register. -/
def State.setLimbs (s : State) (r : Reg) (x : Limbs) : State := { s with regs := s.regs.set r x }

/-- `V[r] <- v` (00_scope R9). Every rule writes a value below `2^W`; the write keeps the low `W` bits. -/
def State.writeReg (s : State) (r : Reg) (v : Nat) : State := s.setLimbs r (toLimbs s.params.limbs v)

/-- Limb `j` of `V[r]` (10_state R43). -/
def State.limb (s : State) (r : Reg) (j : Nat) : Word := (s.regs.get r).getD j 0

/-- Replace limb `j` of `V[r]`; the other limbs keep their values (10_state R43). -/
def State.writeLimb (s : State) (r : Reg) (j : Nat) (v : Word) : State := s.setLimbs r ((s.regs.get r).set j v)

/-- `CTX <- c`. -/
def State.setCtx (s : State) (c : Ctx) : State := { s with ctx := c }

/-- Make `V[r]` unspecified, as if never written (10_state R47): a fresh free draw. -/
def State.drawReg (s : State) (r : Reg) : State :=
  { s with regs := s.regs.set r (freeReg s.params.limbs s.draws), draws := s.draws + 1 }

/-! ## Completing a command (10_state R45) -/

/-- The register writes of a successful command, in order; their values were all computed before the first write. -/
def State.applyWrites (s : State) (ws : List (Reg × Nat)) : State :=
  ws.foldl (fun t w => t.writeReg w.1 w.2) s

/-- The end of the completion step of a command that succeeded: `DONE <- 1`, `PHASE <- IDLE` (10_state R45). -/
def State.finish (s : State) : State := { s with done := true, phase := .idle }

/-- A failing command, the one shared way a command ends in an error (60_exceptions R170, 10_state R45): `ERR` and
`ERRCODE` are recorded, the engine goes idle, and nothing else is written (00_scope R10). -/
def State.failWith (s : State) (code : ErrCode) : State := { s with err := true, errcode := code, phase := .idle }

/-- The completion step's use of `Exec`'s answer (10_state R45). -/
def State.complete (s : State) : CmdResult → State
  | .ok writes none => (s.applyWrites writes).finish
  | .ok writes (some c) => ((s.applyWrites writes).setCtx c).finish
  | .err code => s.failWith code

/-! ## Acknowledging a completion (60_exceptions R174) -/

/-- Writing 1 to `STATUS.DONE` (10_state R39). -/
def State.clearDone (s : State) : State := { s with done := false }

/-- Writing 1 to `STATUS.ERR`: it clears `ERRCODE` in the same step (10_state R39). -/
def State.clearErr (s : State) : State := { s with err := false, errcode := .noError }

/-- Writing 1 to `STATUS.AERR` (10_state R39). -/
def State.clearAerr (s : State) : State := { s with aerr := false }

/-- An access error (20_memory R64): `AERR` is set and nothing else. -/
def State.accessError (s : State) : State := { s with aerr := true }

/-! ## Starting a command (10_state R46) -/

/-- `CTRL.IE <- b` (10_state R37). -/
def State.setIe (s : State) (b : Bool) : State := { s with ie := b }

/-- `CMD <- v` (10_state R38). -/
def State.setCmd (s : State) (v : Word) : State := { s with cmd := v }

/-- An accepted START (10_state R46): the command is captured, the completion status cleared, the engine busy. -/
def State.acceptStart (s : State) : State :=
  { s with inflight := s.cmd, done := false, err := false, errcode := .noError, phase := .busy }

/-- START (10_state R46): accepted while idle, refused with `AERR` while busy. -/
def State.start (s : State) : State :=
  match s.phase with
  | .idle => s.acceptStart
  | .busy => s.accessError

/-! ## Reset (70_reset_and_hazards R190, R191) -/

/-- The part the two resets share: every piece of state but the operand registers takes its reset value (10_state R42). -/
def State.clearControl (s : State) : State :=
  { s with ctx := Ctx.cleared, phase := .idle, inflight := 0, cmd := 0, ie := false, done := false, err := false,
           aerr := false, errcode := .noError }

/-- Power-on reset (70_reset_and_hazards R190): the control state cleared, `V0` to `V7` unspecified (fresh free draws). -/
def State.powerOn (s : State) : State :=
  { s.clearControl with regs := freeRegs s.params.limbs s.draws, draws := s.draws + 8 }

/-- Each register of the list becomes unspecified, in order. -/
def State.drawRegs (s : State) (rs : List Reg) : State := rs.foldl (fun t r => t.drawReg r) s

/-- Soft reset (70_reset_and_hazards R191): the operand registers keep their values, but the destinations of a command in
flight become unspecified; no completion step happens. -/
def State.softReset (s : State) : State :=
  match s.phase with
  | .idle => s.clearControl
  | .busy => (s.drawRegs (abandonedDests s.inflight)).clearControl

/-! ## The port and the queue of events -/

/-- The port answers the current access. -/
def State.answer (s : State) (r : Option Word) : State := { s with resp := r }

/-- The events still to come. -/
def State.setPending (s : State) (es : List Event) : State := { s with pending := es }

/-- The level of the reset input. -/
def State.setRst (s : State) (b : Bool) : State := { s with rst := b }

/-- The word a read of any offset is answered while `rst` is asserted, `ID` and `PARAM` (R192) included: the platform's
(70_reset_and_hazards R190, `RESET_ACCESS`), a free draw. DESIGN CHOICE (log entry 6). -/
def State.drawAnswer (s : State) : State :=
  { s with resp := some (Config.freeLimb s.draws 0), draws := s.draws + 1 }

end Sys2Proof.Machine
end

