-- ==== Sys2Proof/Machine/Operands.lean ====
section
/-! DEFINITION. The operand forms of 30_encoding R93 and R94 and the operand and context checks the commands share, in the
order of 60_exceptions R172. -/

namespace Sys2Proof.Machine

/-- The operand registers as the commands see them: `V[r]`, an unsigned integer (00_scope R9). -/
abbrev Operands := Reg → Nat

/-- The double-width operand of `BRED`: `V[hi]·2^W + V[lo]` (30_encoding R94). -/
def wideOperand (w : Nat) (v : Operands) (hi lo : Reg) : Nat := v hi * 2 ^ w + v lo

/-- The low half of a double-width result (30_encoding R94): bits [W-1:0]. -/
def lowHalf (w p : Nat) : Nat := p % 2 ^ w

/-- The high half of a double-width result (30_encoding R94): bits [2W-1:W]. -/
def highHalf (w p : Nat) : Nat := p / 2 ^ w

/-- `if CTX.VALID = 0: raise E(NOCTX)`, then go on. -/
def needCtx (c : Ctx) (k : CmdResult) : CmdResult := if c.valid then k else .err .noctx

/-- `if CTX.ODD = 0: raise E(EVENMOD)`, then go on (41_multiply_reduce R121). -/
def needOdd (c : Ctx) (k : CmdResult) : CmdResult := if c.odd then k else .err .evenmod

/-- `if x >= CTX.N or ...: raise E(RANGE)` for the residue operands `xs`, then go on. -/
def needResidues (c : Ctx) (xs : List Nat) (k : CmdResult) : CmdResult :=
  if xs.any (fun x => decide (c.n ≤ x)) then .err .range else k

/-- A command whose only effect is one register write. -/
def writeOne (d : Reg) (v : Nat) : CmdResult := .ok [(d, v)] none

end Sys2Proof.Machine
end

