-- ==== Sys2Proof/Machine/Control.lean ====
section
/-! DEFINITION. The control and set-up commands of spec/40_control.md: `NOP`, `MOV`, `SETMOD`. Each command has its `Exec`
body, a function of the operand registers and the context alone (10_state R45), and its meaning, the completion step with it. -/

namespace Sys2Proof.Machine

/-- `NOP` (40_control R110). -/
def nopResult : CmdResult := .ok [] none

/-- `MOV vd, va` (40_control R111). -/
def movResult (v : Operands) (d a : Reg) : CmdResult := writeOne d (v a)

/-- The Montgomery constant `NINV0` of an odd modulus: `(-inv(N mod 2^32, 2^32)) mod 2^32` (40_control R112, R113). -/
def montConst (n : Nat) : Word := -(BitVec.ofNat 32 (inv (n % 2 ^ 32) (2 ^ 32)))

/-- The context of the modulus `N` on registers of `w` bits (10_state R33, 40_control R112). -/
def contextOf (w n : Nat) : Ctx where
  valid := true
  odd   := decide (n % 2 = 1)
  n     := n
  k     := BitVec.ofNat 16 (bitlen n)
  ninv0 := if n % 2 = 1 then montConst n else 0
  rr    := if n % 2 = 1 then 2 ^ (2 * w) % n else 0
  mu    := 2 ^ (2 * bitlen n) / n

/-- `SETMOD va` (40_control R112). -/
def setmodResult (w : Nat) (v : Operands) (a : Reg) : CmdResult :=
  if v a < 2 then .err .badmod else .ok [] (some (contextOf w (v a)))

/-- The meaning of `NOP`. -/
def execNop (s : State) : Host.Outcome State Fault Refusal := .next (s.complete nopResult)

/-- The meaning of `MOV`. -/
def execMov (d a : Reg) (s : State) : Host.Outcome State Fault Refusal := .next (s.complete (movResult s.value d a))

/-- The meaning of `SETMOD`. -/
def execSetmod (a : Reg) (s : State) : Host.Outcome State Fault Refusal :=
  .next (s.complete (setmodResult s.width s.value a))

end Sys2Proof.Machine
end

