-- ==== Sys2Proof/Machine/Euclid.lean ====
section
/-! DEFINITION. The extended Euclidean solver and the modular inverse of spec/42_euclid.md: `EGCD`, `MODINV`. Neither uses
the modulus context. -/

namespace Sys2Proof.Machine

/-- `EGCD vg, vx, vy, va, vb` (42_euclid R140): the solver's answer, the signed coefficients in two's complement. -/
def egcdResult (w : Nat) (v : Operands) (g x y a b : Reg) : CmdResult :=
  if v a = 0 ∧ v b = 0 then .err .zeroarg
  else
    let r := solve (v a) (v b)
    .ok [(g, r.g), (x, twos w r.x), (y, twos w r.y)] none

/-- `MODINV vd, va, vm` (42_euclid R142, 90_conflicts C7): `NOTCOPRIME` is checked first, for every modulus; then a modulus
of 0 (only `A = 1` is left) is `ZEROARG`. -/
def modinvResult (v : Operands) (d a m : Reg) : CmdResult :=
  if Nat.gcd (v a) (v m) ≠ 1 then .err .notcoprime
  else if v m = 0 then .err .zeroarg
  else writeOne d (inv (v a) (v m))

/-- The meaning of `EGCD`. -/
def execEgcd (g x y a b : Reg) (s : State) : Host.Outcome State Fault Refusal :=
  .next (s.complete (egcdResult s.width s.value g x y a b))

/-- The meaning of `MODINV`. -/
def execModinv (d a m : Reg) (s : State) : Host.Outcome State Fault Refusal :=
  .next (s.complete (modinvResult s.value d a m))

end Sys2Proof.Machine
end

