-- ==== Sys2Proof/Machine/ModExp.lean ====
section
/-! DEFINITION. The modular exponentiation engine of spec/43_modexp.md: `MODEXP`. -/

namespace Sys2Proof.Machine

/-- `MODEXP vd, vbase, vexp` (43_modexp R150, R153): `X^E mod N`, with the base a residue and any exponent. -/
def modexpResult (v : Operands) (c : Ctx) (d a b : Reg) : CmdResult :=
  needCtx c (needResidues c [v a] (writeOne d (powMod (v a) (v b) c.n)))

/-- The meaning of `MODEXP`. -/
def execModexp (d a b : Reg) (s : State) : Host.Outcome State Fault Refusal :=
  .next (s.complete (modexpResult s.value s.ctx d a b))

end Sys2Proof.Machine
end

