-- ==== Sys2Proof/Machine/MultiplyReduce.lean ====
section
/-! DEFINITION. The multiply and reduce commands of spec/41_multiply_reduce.md: `MULW`, `MONTMUL`, `TOMONT`, `FROMMONT`,
`MODMUL`, `BRED`, by the closed forms that the rules give as normative. -/

namespace Sys2Proof.Machine

/-- `MULW vlo, vhi, va, vb` (41_multiply_reduce R120): the exact product in two registers. -/
def mulwResult (w : Nat) (v : Operands) (lo hi a b : Reg) : CmdResult :=
  .ok [(lo, lowHalf w (v a * v b)), (hi, highHalf w (v a * v b))] none

/-- `R^(-1)`: the inverse of the Montgomery radix `R = 2^W` modulo `N` (41_multiply_reduce R121). -/
def radixInv (w n : Nat) : Nat := inv (2 ^ w % n) n

/-- `MONTMUL vd, va, vb` (41_multiply_reduce R122): `x·y·R^(-1) mod N`. -/
def montmulResult (w : Nat) (v : Operands) (c : Ctx) (d a b : Reg) : CmdResult :=
  needCtx c (needOdd c (needResidues c [v a, v b] (writeOne d (v a * v b * radixInv w c.n % c.n))))

/-- `TOMONT vd, va` (41_multiply_reduce R123): `x·R mod N`. -/
def tomontResult (w : Nat) (v : Operands) (c : Ctx) (d a : Reg) : CmdResult :=
  needCtx c (needOdd c (needResidues c [v a] (writeOne d (v a * 2 ^ w % c.n))))

/-- `FROMMONT vd, va` (41_multiply_reduce R124): `x·R^(-1) mod N`. -/
def frommontResult (w : Nat) (v : Operands) (c : Ctx) (d a : Reg) : CmdResult :=
  needCtx c (needOdd c (needResidues c [v a] (writeOne d (v a * radixInv w c.n % c.n))))

/-- `MODMUL vd, va, vb` (41_multiply_reduce R126): `x·y mod N`, also for an even `N`. -/
def modmulResult (v : Operands) (c : Ctx) (d a b : Reg) : CmdResult :=
  needCtx c (needResidues c [v a, v b] (writeOne d (v a * v b % c.n)))

/-- `BRED vd, vhi, vlo` (41_multiply_reduce R127): `x mod N` for a double-width `x < 2^(2K)`. -/
def bredResult (w : Nat) (v : Operands) (c : Ctx) (d hi lo : Reg) : CmdResult :=
  needCtx c
    (if 2 ^ (2 * c.k.toNat) ≤ wideOperand w v hi lo then .err .range
     else writeOne d (wideOperand w v hi lo % c.n))

/-- The meaning of `MULW`. -/
def execMulw (lo hi a b : Reg) (s : State) : Host.Outcome State Fault Refusal :=
  .next (s.complete (mulwResult s.width s.value lo hi a b))

/-- The meaning of `MONTMUL`. -/
def execMontmul (d a b : Reg) (s : State) : Host.Outcome State Fault Refusal :=
  .next (s.complete (montmulResult s.width s.value s.ctx d a b))

/-- The meaning of `TOMONT`. -/
def execTomont (d a : Reg) (s : State) : Host.Outcome State Fault Refusal :=
  .next (s.complete (tomontResult s.width s.value s.ctx d a))

/-- The meaning of `FROMMONT`. -/
def execFrommont (d a : Reg) (s : State) : Host.Outcome State Fault Refusal :=
  .next (s.complete (frommontResult s.width s.value s.ctx d a))

/-- The meaning of `MODMUL`. -/
def execModmul (d a b : Reg) (s : State) : Host.Outcome State Fault Refusal :=
  .next (s.complete (modmulResult s.value s.ctx d a b))

/-- The meaning of `BRED`. -/
def execBred (d hi lo : Reg) (s : State) : Host.Outcome State Fault Refusal :=
  .next (s.complete (bredResult s.width s.value s.ctx d hi lo))

end Sys2Proof.Machine
end

