-- ==== Sys2Proof/Machine/Dispatch.lean ====
section
/-! DEFINITION. `Exec` of 10_state R45 with the completion step around it: one arm per command, each one call of its meaning. -/

namespace Sys2Proof.Machine

/-- The completion step of a command that decodes to `i` (10_state R45). -/
def exec (i : Instr) (s : State) : Host.Outcome State Fault Refusal :=
  match i with
  | .nop => Sys2Proof.Machine.execNop s
  | .setmod a => Sys2Proof.Machine.execSetmod a s
  | .montmul d a b => Sys2Proof.Machine.execMontmul d a b s
  | .tomont d a => Sys2Proof.Machine.execTomont d a s
  | .frommont d a => Sys2Proof.Machine.execFrommont d a s
  | .modmul d a b => Sys2Proof.Machine.execModmul d a b s
  | .bred d hi lo => Sys2Proof.Machine.execBred d hi lo s
  | .mulw lo hi a b => Sys2Proof.Machine.execMulw lo hi a b s
  | .modexp d a b => Sys2Proof.Machine.execModexp d a b s
  | .egcd g x y a b => Sys2Proof.Machine.execEgcd g x y a b s
  | .modinv d a m => Sys2Proof.Machine.execModinv d a m s
  | .mov d a => Sys2Proof.Machine.execMov d a s

end Sys2Proof.Machine
end

