-- ==== Sys2Proof/Machine/Flags.lean ====
section
/-! DEFINITION. The status flags (10_state R39, R41), the error codes (60_exceptions R168) and the interrupt line
(60_exceptions R175). MMB has no arithmetic condition codes (R41). -/

namespace Sys2Proof.Machine

/-- The 4-bit `STATUS.ERRCODE` value of an error name (60_exceptions R168). -/
def errCode : ErrCode → BitVec 4
  | .noError    => 0
  | .illegal    => 1
  | .badreg     => 2
  | .noctx      => 3
  | .evenmod    => 4
  | .range      => 5
  | .badmod     => 6
  | .zeroarg    => 7
  | .notcoprime => 8

/-- `STATUS.BUSY`: reads 1 exactly when `PHASE = BUSY` (10_state R39). -/
def State.busy (s : State) : Bool :=
  match s.phase with
  | .idle => false
  | .busy => true

/-- One bit of a register. -/
def bit (b : Bool) : BitVec 1 := BitVec.ofBool b

/-- The 32-bit read of `STATUS` (10_state R39), most significant field first: res[31:14], CTXODD, CTXV, ERRCODE, res[7:4],
AERR, ERR, DONE, BUSY. -/
def State.statusWord (s : State) : Word :=
  (0 : BitVec 18) ++ bit s.ctx.odd ++ bit s.ctx.valid ++ errCode s.errcode ++ (0 : BitVec 4) ++
    bit s.aerr ++ bit s.err ++ bit s.done ++ bit s.busy

/-- The 32-bit read of `CTRL` (10_state R37): `{0..0, IE, 0, 0}`. -/
def State.ctrlWord (s : State) : Word := (0 : BitVec 29) ++ bit s.ie ++ (0 : BitVec 2)

/-- The interrupt output (60_exceptions R175): `irq = CTRL.IE and (STATUS.DONE or STATUS.ERR)`, a level. -/
def State.irq (s : State) : Bool := s.ie && (s.done || s.err)

/-- A write to `STATUS` (10_state R39, 20_memory R61): bits [3:1] are write-1-to-clear, all other bits are ignored. -/
def State.writeStatus (s : State) (v : Word) : State :=
  let s1 := if v.getLsbD 1 then s.clearDone else s
  let s2 := if v.getLsbD 2 then s1.clearErr else s1
  if v.getLsbD 3 then s2.clearAerr else s2

/-- A write to `CTRL` (10_state R37, R46): `SRST` wins over the rest of the write; else `IE` takes bit 2, and then bit 0
starts the command in `CMD`. -/
def State.writeCtrl (s : State) (v : Word) : State :=
  if v.getLsbD 1 then s.softReset
  else if v.getLsbD 0 then (s.setIe (v.getLsbD 2)).start
  else s.setIe (v.getLsbD 2)

end Sys2Proof.Machine
end

