-- ==== Sys2Proof/Machine/Window.lean ====
section
/-! DEFINITION. The register window of 20_memory: the offset map (R70), the two access primitives (R60, R61), undefined
accesses (R62), busy blocking (R63) and access errors (R64). -/

namespace Sys2Proof.Machine

/-- What an aligned word offset of the window selects (20_memory R70). -/
inductive Slot where
  | id
  | param
  | ctrl
  | cmd
  | status
  /-- Limb `j` of operand register `r` (10_state R43). -/
  | vreg (r : Reg) (j : Nat)
  /-- Limb `j` of `CTX.N`, `CTX.RR`, `CTX.MU` (10_state R44). -/
  | ctxN (j : Nat)
  | ctxRr (j : Nat)
  | ctxMu (j : Nat)
  | ctxK
  | ctxNinv0
  | unmapped
deriving DecidableEq, Repr

/-- The size of the window in bytes (00_scope R5). -/
def windowSize : Nat := 0x4000

/-- The offset map of 20_memory R70 with `l` limbs, for a word-aligned offset inside the window. -/
def slotOf (l off : Nat) : Slot :=
  if off < 0x1000 then
    if off = 0x000 then .id
    else if off = 0x004 then .param
    else if off = 0x008 then .ctrl
    else if off = 0x00C then .cmd
    else if off = 0x010 then .status
    else .unmapped
  else if off < 0x3000 then
    if (off - 0x1000) % 0x400 / 4 < l then .vreg (regAt ((off - 0x1000) / 0x400)) ((off - 0x1000) % 0x400 / 4)
    else .unmapped
  else if off < 0x3400 then
    if (off - 0x3000) / 4 < l then .ctxN ((off - 0x3000) / 4) else .unmapped
  else if off < 0x3800 then
    if (off - 0x3400) / 4 < l then .ctxRr ((off - 0x3400) / 4) else .unmapped
  else if off < 0x3C00 then
    if (off - 0x3800) / 4 < l + 1 then .ctxMu ((off - 0x3800) / 4) else .unmapped
  else if off = 0x3C00 then .ctxK
  else if off = 0x3C04 then .ctxNinv0
  else .unmapped

/-- `ID` (10_state R35). -/
def idWord : Word := 0x4D4D0107

/-- `PARAM` (10_state R36): res[31:20], NREG = 8 in [19:16], LIMBS in [15:0]. -/
def paramWord (p : Params) : Word := (0 : BitVec 12) ++ (8 : BitVec 4) ++ BitVec.ofNat 16 p.limbs

/-- The word a data-window slot holds while idle (10_state R43, R44); none for a slot that is no data-window word. -/
def State.dataWord (s : State) : Slot → Option Word
  | .vreg r j => some (s.limb r j)
  | .ctxN j => some (limbOf s.ctx.n j)
  | .ctxRr j => some (limbOf s.ctx.rr j)
  | .ctxMu j => some (limbOf s.ctx.mu j)
  | .ctxK => some ((0 : BitVec 16) ++ s.ctx.k)
  | .ctxNinv0 => some s.ctx.ninv0
  | .id => none
  | .param => none
  | .ctrl => none
  | .cmd => none
  | .status => none
  | .unmapped => none

/-- A read of a data-window word: 0 while busy, and then no access error (20_memory R60, R63). -/
def State.readData (s : State) (w : Word) : Word := if s.busy then 0 else w

/-- `BusRead` (20_memory R60): the word read, and the state after it. A read changes nothing but `AERR` on an unmapped offset. -/
def State.busRead (s : State) (slot : Slot) : Word × State :=
  match slot with
  | .id => (idWord, s)
  | .param => (paramWord s.params, s)
  | .ctrl => (s.ctrlWord, s)
  | .cmd => (s.cmd, s)
  | .status => (s.statusWord, s)
  | .unmapped => (0, s.accessError)
  | other => (s.readData ((s.dataWord other).getD 0), s)

/-- `BusWrite` (20_memory R61). -/
def State.busWrite (s : State) (slot : Slot) (v : Word) : State :=
  match slot with
  | .ctrl => s.writeCtrl v
  | .cmd => if s.busy then s.accessError else s.setCmd v
  | .status => s.writeStatus v
  | .vreg r j => if s.busy then s.accessError else s.writeLimb r j v
  | .id => s.accessError
  | .param => s.accessError
  | .ctxN _ => s.accessError
  | .ctxRr _ => s.accessError
  | .ctxMu _ => s.accessError
  | .ctxK => s.accessError
  | .ctxNinv0 => s.accessError
  | .unmapped => s.accessError

/-- The offset of a bus address, if MMB decodes it (20_memory R69). -/
def Params.offset (p : Params) (addr : Nat) : Option Nat :=
  if p.base ≤ addr ∧ addr < p.base + windowSize then some (addr - p.base) else none

/-- A defined access: a naturally aligned full word with all four byte lanes enabled (20_memory R62). -/
def Access.defined (a : Access) (off : Nat) : Bool :=
  decide (a.bytes = 4) && decide (off % 4 = 0) && decide (a.lanes = 0xF)

/-- An access that reaches the window at offset `off` while `rst` is released (20_memory R60 to R62). -/
def State.access (s : State) (a : Access) (off : Nat) : State :=
  match a.dir with
  | .read =>
    if a.defined off then (s.busRead (slotOf s.params.limbs off)).2.answer (some (s.busRead (slotOf s.params.limbs off)).1)
    else s.accessError.answer (some 0)
  | .write v =>
    if a.defined off then (s.busWrite (slotOf s.params.limbs off) v).answer none
    else s.accessError.answer none

/-- An access that reaches the window while `rst` is asserted: the state keeps its reset values, and what a read is answered is
the platform's (70_reset_and_hazards R190, `RESET_ACCESS`). DESIGN CHOICE (log entry 6): a read of any offset is answered a free
draw, `ID` and `PARAM` among them. R192 says that those two read their constants at all times, R190 leaves every access of this
time to the platform; the free draw allows both. Safe as to the word; unsafe where a platform stalls the access. -/
def State.accessInReset (s : State) (a : Access) : State :=
  match a.dir with
  | .read => s.drawAnswer
  | .write _ => s.answer none

/-- A host access as it arrives on the bus. One outside the window is not MMB's and changes nothing (20_memory R69). -/
def State.hostAccess (s : State) (a : Access) : State :=
  match Params.offset s.params a.addr with
  | none => s
  | some off => if s.rst then s.accessInReset a else s.access a off

/-! ## Byte lanes (20_memory R65) -/

/-- Byte lane `b` of a bus word, at address `BASE + off + b`: bits [8b+7 : 8b]. -/
def laneOf (v : Word) (b : Nat) : BitVec 8 := v.extractLsb' (8 * b) 8

/-- The bus word of the four bytes a byte-addressed host holds at ascending addresses. -/
def wordOfLanes (b0 b1 b2 b3 : BitVec 8) : Word := b3 ++ b2 ++ b1 ++ b0

end Sys2Proof.Machine
end

