-- ==== Sys2Proof/Machine/Engine.lean ====
section
/-! DEFINITION. The steps of the three agents (10_state R30): the engine's completion step (R45), a host access, the reset
input. -/

namespace Sys2Proof.Machine

/-- The engine's turn (10_state R45): enabled exactly while busy. The captured word is decoded (30_encoding R95); a word
that decodes runs its command, any other ends the command with the decoder's error. While `rst` is asserted the engine is
held in reset (70_reset_and_hazards R190). -/
def engineStep (s : State) : Host.Outcome State Fault Refusal :=
  if s.busy && !s.rst then
    match decode s.inflight with
    | .ok i => exec i s
    | .error code => .next (s.failWith code)
  else .next s

/-- The release of `rst`: at its release every piece of state has its reset value (70_reset_and_hazards R190). -/
def State.releaseReset (s : State) : State := if s.rst then (s.setRst false).powerOn else s

/-- One event, taken off the queue before (10_state R30). -/
def eventStep (e : Event) (s : State) : Host.Outcome State Fault Refusal :=
  match e with
  | .access a => .next (s.hostAccess a)
  | .engine => engineStep s
  | .assertRst => .next (s.setRst true).powerOn
  | .releaseRst => .next s.releaseReset

/-- The command word placed in the engine, as an accepted START leaves it (10_state R46), with the engine's turn next. -/
def State.placeCommand (s : State) (w : Word) : State :=
  ((s.setCmd w).acceptStart.setRst false).setPending (.engine :: s.pending)

end Sys2Proof.Machine
end

