-- ==== Sys2Proof/Machine/Step.lean ====
section
/-! DEFINITION. One step of the machine, and the placing of one command for the next step. -/

namespace Sys2Proof.Machine

/-- One step (10_state R30): the oldest event still to come happens; when none is left, only the engine can step. -/
def step (s : State) : Host.Outcome State Fault Refusal :=
  match s.pending with
  | [] => engineStep s
  | e :: rest => eventStep e (s.setPending rest)

/-- `s` with the command of the table bits `w` started, so that the very next step is its completion step: MMB fetches nothing
(10_state R31), a command is the word in `CMD` when START is accepted (R46). The bits above `nbits` are 0. -/
def State.withFetchWord (s : State) (nbits w : Nat) : State := s.placeCommand (BitVec.ofNat 32 (w % 2 ^ nbits))

end Sys2Proof.Machine
end

