-- ==== Sys2Proof/Machine/Assembler.lean ====
section
/-! DEFINITION. The assembler syntax of 30_encoding R99 and R100 and the pseudo-instructions of R101, on lists of characters.
Mnemonics are case-insensitive; a register name outside `v0` to `v7` is rejected. -/

namespace Sys2Proof.Machine

/-- The commands and pseudo-instructions an assembler line can name (30_encoding R99, R101). -/
inductive Mnemonic where
  | nop | setmod | montmul | tomont | frommont | modmul | bred | mulw | modexp | egcd | modinv | mov
  | montsqr | modsqr | encrypt | decrypt | gcd
deriving DecidableEq, Repr

/-- The spelling of each mnemonic, in lower case. -/
def mnemonicTable : List (List Char × Mnemonic) :=
  [(['n', 'o', 'p'], .nop), (['s', 'e', 't', 'm', 'o', 'd'], .setmod), (['m', 'o', 'n', 't', 'm', 'u', 'l'], .montmul),
   (['t', 'o', 'm', 'o', 'n', 't'], .tomont), (['f', 'r', 'o', 'm', 'm', 'o', 'n', 't'], .frommont),
   (['m', 'o', 'd', 'm', 'u', 'l'], .modmul), (['b', 'r', 'e', 'd'], .bred), (['m', 'u', 'l', 'w'], .mulw),
   (['m', 'o', 'd', 'e', 'x', 'p'], .modexp), (['e', 'g', 'c', 'd'], .egcd), (['m', 'o', 'd', 'i', 'n', 'v'], .modinv),
   (['m', 'o', 'v'], .mov)] ++
  [(['m', 'o', 'n', 't', 's', 'q', 'r'], .montsqr), (['m', 'o', 'd', 's', 'q', 'r'], .modsqr),
   (['e', 'n', 'c', 'r', 'y', 'p', 't'], .encrypt), (['d', 'e', 'c', 'r', 'y', 'p', 't'], .decrypt), (['g', 'c', 'd'], .gcd)]

/-- The mnemonic a word spells, in any mixture of cases. -/
def parseMnemonic (w : List Char) : Option Mnemonic := mnemonicTable.lookup (w.map Char.toLower)

/-- The register a name spells (30_encoding R100); any other name is rejected. -/
def parseReg : List Char → Option Reg
  | ['v', '0'] => some .v0
  | ['v', '1'] => some .v1
  | ['v', '2'] => some .v2
  | ['v', '3'] => some .v3
  | ['v', '4'] => some .v4
  | ['v', '5'] => some .v5
  | ['v', '6'] => some .v6
  | ['v', '7'] => some .v7
  | _ => none

/-- The name of a register, its only one (30_encoding R100). -/
def regName : Reg → List Char
  | .v0 => ['v', '0'] | .v1 => ['v', '1'] | .v2 => ['v', '2'] | .v3 => ['v', '3']
  | .v4 => ['v', '4'] | .v5 => ['v', '5'] | .v6 => ['v', '6'] | .v7 => ['v', '7']

/-- `MONTSQR vd, va` (30_encoding R101). -/
def montsqr (d a : Reg) : Instr := .montmul d a a

/-- `MODSQR vd, va` (30_encoding R101). -/
def modsqr (d a : Reg) : Instr := .modmul d a a

/-- `ENCRYPT vc, vm, ve` (30_encoding R101). -/
def encrypt (c m e : Reg) : Instr := .modexp c m e

/-- `DECRYPT vm, vc, vdd` (30_encoding R101). -/
def decrypt (m c d : Reg) : Instr := .modexp m c d

/-- `GCD vg, vx, vy, va, vb` (30_encoding R101). -/
def gcdCommand (g x y a b : Reg) : Instr := .egcd g x y a b

/-- The command of a mnemonic with its operands in the order of R99; none for a wrong number of operands. -/
def instrOf : Mnemonic → List Reg → Option Instr
  | .nop, [] => some .nop
  | .setmod, [a] => some (.setmod a)
  | .montmul, [d, a, b] => some (.montmul d a b)
  | .tomont, [d, a] => some (.tomont d a)
  | .frommont, [d, a] => some (.frommont d a)
  | .modmul, [d, a, b] => some (.modmul d a b)
  | .bred, [d, hi, lo] => some (.bred d hi lo)
  | .mulw, [lo, hi, a, b] => some (.mulw lo hi a b)
  | .modexp, [d, a, b] => some (.modexp d a b)
  | .egcd, [g, x, y, a, b] => some (.egcd g x y a b)
  | .modinv, [d, a, m] => some (.modinv d a m)
  | .mov, [d, a] => some (.mov d a)
  | .montsqr, [d, a] => some (montsqr d a)
  | .modsqr, [d, a] => some (modsqr d a)
  | .encrypt, [c, m, e] => some (encrypt c m e)
  | .decrypt, [m, c, d] => some (decrypt m c d)
  | .gcd, [g, x, y, a, b] => some (gcdCommand g x y a b)
  | _, _ => none

/-- One assembler line (30_encoding R99): the command word, or none where the line is rejected. -/
def assemble (mnemonic : List Char) (operands : List (List Char)) : Option Word :=
  match parseMnemonic mnemonic, operands.mapM parseReg with
  | some m, some rs => (instrOf m rs).map encode
  | _, _ => none

end Sys2Proof.Machine
end

