-- ==== Sys2Proof/Machine/Datapath.lean ====
section
/-! DEFINITION. The reference datapaths of 41_multiply_reduce R125 and R128, 42_euclid R141 and 43_modexp R151, step for
step. They are not observable (10_state R34); the commands use the closed forms, and that these algorithms give the same
results is stated in Sys2Proof/Certificates/Slice0/Obligations.lean. -/

namespace Sys2Proof.Machine

/-! ## CIOS Montgomery multiplication (41_multiply_reduce R125) -/

/-- One limb step: add `x_i · y`, then `m · N` with the `m` that makes the low 32 bits 0, then drop them. -/
def ciosStep (n : Nat) (ninv0 : Word) (y : Nat) (t : Nat) (xi : Word) : Nat :=
  let t1 := t + xi.toNat * y
  let m := (t1 % 2 ^ 32 * ninv0.toNat) % 2 ^ 32
  (t1 + m * n) / 2 ^ 32

/-- The loop over the limbs of `x`, limb 0 first. -/
def ciosLoop (n : Nat) (ninv0 : Word) (y : Nat) : Limbs → Nat → Nat
  | [], t => t
  | xi :: xs, t => ciosLoop n ninv0 y xs (ciosStep n ninv0 y t xi)

/-- `MontMulAlg(x, y)` with the context `c` on `l` limbs. -/
def montMulAlg (l : Nat) (c : Ctx) (x y : Nat) : Nat :=
  let t := ciosLoop c.n c.ninv0 y (toLimbs l x) 0
  if c.n ≤ t then t - c.n else t

/-! ## Barrett reduction (41_multiply_reduce R128) -/

/-- The remainder before the corrections: `x - ⌊⌊x / 2^(k-1)⌋·MU / 2^(k+1)⌋·N`, an integer so that a wrong quotient shows. -/
def barrettEstimate (n k mu x : Nat) : Int :=
  let q1 := x / 2 ^ (k - 1)
  let q2 := q1 * mu
  let q3 := q2 / 2 ^ (k + 1)
  (x : Int) - q3 * n

/-- `while r >= N: r <- r - N`, at most `m` times. -/
def correct (n : Nat) : Nat → Nat → Nat
  | 0, r => r
  | m + 1, r => if n ≤ r then correct n m (r - n) else r

/-- `BarrettAlg(x)` with the context `c`: the estimate and at most two corrections. -/
def barrettAlg (c : Ctx) (x : Nat) : Nat := correct c.n 2 (barrettEstimate c.n c.k.toNat c.mu x).toNat

/-! ## The iterative solver (42_euclid R141) -/

/-- The first loop: push the quotients. The newest quotient is the head of the list. -/
def quotients : Nat → Nat → Nat → List Nat → List Nat × Nat
  | 0, _, b, qs => (qs, b)
  | fuel + 1, a, b, qs => if a = 0 then (qs, b) else quotients fuel (b % a) a (b / a :: qs)

/-- The second loop: pop the quotients, the last pushed first. -/
def popQuotients : List Nat → Bezout → Bezout
  | [], r => r
  | q :: qs, r => popQuotients qs (r.unwind q)

/-- `SolveIter(A, B)`. -/
def solveIter (a b : Nat) : Bezout :=
  let r := quotients a a b []
  popQuotients r.1 ⟨r.2, 0, 1⟩

/-! ## Left-to-right binary exponentiation (43_modexp R151) -/

/-- The loop over the exponent bits, for a given product `mul`. -/
def expLoop (mul : Nat → Nat → Nat) (x e : Nat) : Nat → Nat → Nat
  | 0, acc => acc
  | i + 1, acc => expLoop mul x e i (if e.testBit i then mul (mul acc acc) x else mul acc acc)

/-- `ModExpAlg(X, E)`: in the Montgomery domain for an odd modulus, with Barrett reduction for an even one. -/
def modExpAlg (l : Nat) (c : Ctx) (x e : Nat) : Nat :=
  if c.odd then
    let xm := montMulAlg l c x c.rr
    let one := montMulAlg l c 1 c.rr
    montMulAlg l c (expLoop (montMulAlg l c) xm e (bitlen e) one) 1
  else expLoop (fun a b => barrettAlg c (a * b)) x e (bitlen e) 1

end Sys2Proof.Machine
end

