-- ==== Sys2Proof/Machine/HostProgram.lean ====
section
/-! DEFINITION. The host program notation of 30_encoding R102 as lists of events: bus accesses and the engine's turn. The
host's own control flow (labels, `goto`, host variables) is the host's and not MMB's. -/

namespace Sys2Proof.Machine

/-- A defined access of the window at offset `off`: a full aligned word (20_memory R62). -/
def wordAccess (p : Params) (dir : Dir) (off : Nat) : Event := .access ⟨dir, p.base + off, 4, 0xF⟩

/-- `wr OFF, VAL`. -/
def wr (p : Params) (off : Nat) (v : Word) : Event := wordAccess p (.write v) off

/-- `rd OFF -> t`; the word read is the next state's `resp`. -/
def rd (p : Params) (off : Nat) : Event := wordAccess p .read off

/-- The offset of limb `j` of an operand register (10_state R43). -/
def limbOffset (r : Reg) (j : Nat) : Nat := 0x1000 + 0x400 * r.index + 4 * j

/-- `wrv r, X`: write every limb, limb 0 first. -/
def wrv (p : Params) (r : Reg) (x : Nat) : List Event :=
  (List.range p.limbs).map (fun j => wr p (limbOffset r j) (limbOf x j))

/-- `rdv r -> t`: read every limb, limb 0 first. -/
def rdv (p : Params) (r : Reg) : List Event := (List.range p.limbs).map (fun j => rd p (limbOffset r j))

/-- `run WORD`, when the engine completes during the `polls + 1`-th poll of `STATUS`: the command written and started, `polls`
reads of `STATUS` that find `BUSY = 1`, the completion step, and the read that finds `BUSY = 0`. -/
def runCommand (p : Params) (w : Word) (polls : Nat) : List Event :=
  [wr p 0x00C w, wr p 0x008 1] ++ List.replicate polls (rd p 0x010) ++ [.engine, rd p 0x010]

end Sys2Proof.Machine
end

