-- ==== Sys2Proof/Safety.lean ====
section
/-! DEFINITION. What the claims are stated in: the invariant of the reachable states, and what it means that a command
succeeded or failed. -/

namespace Sys2Proof.Machine

/-! ## The invariant -/

/-- Every operand register holds a `W`-bit value: `L` limbs (10_state R32). -/
def State.RegsWf (s : State) : Prop := ∀ r, (s.regs.get r).length = s.params.limbs

/-- The context holds either nothing or the constants of one modulus `2 ≤ N < 2^W` (10_state R33). -/
def State.CtxWf (s : State) : Prop :=
  (s.ctx.valid = true ∧ 2 ≤ s.ctx.n ∧ s.ctx.n < 2 ^ s.width ∧ s.ctx = contextOf s.width s.ctx.n) ∨ s.ctx = Ctx.cleared

/-- The flag invariants of 10_state R40. -/
def State.FlagsWf (s : State) : Prop :=
  ¬(s.done = true ∧ s.err = true) ∧
  (s.phase = .busy → s.done = false ∧ s.err = false) ∧
  (s.err = true ↔ s.errcode ≠ .noError)

/-- While `rst` is asserted all control state has its reset value (70_reset_and_hazards R190). -/
def State.ResetWf (s : State) : Prop :=
  s.rst = true →
    s.ctx = Ctx.cleared ∧ s.phase = .idle ∧ s.inflight = 0 ∧ s.cmd = 0 ∧ s.ie = false ∧ s.done = false ∧ s.err = false ∧
    s.aerr = false ∧ s.errcode = .noError

/-- While a command runs, `CMD` still holds its word (10_state R38, R46; 60_exceptions R170). -/
def State.CmdWf (s : State) : Prop := s.phase = .busy → s.cmd = s.inflight

/-- The invariant of MMB: it holds after reset and every step keeps it. -/
structure State.Inv (s : State) : Prop where
  params : s.params.Valid
  regs   : s.RegsWf
  ctx    : s.CtxWf
  flags  : s.FlagsWf
  cmd    : s.CmdWf
  reset  : s.ResetWf

/-! ## How a command ends -/

/-- `t` is `s` after its command succeeded and wrote at most the registers `ds` and, if `setsCtx`, the context: `DONE` is 1,
the engine idle, and everything else is as before (10_state R45, 00_scope R12). -/
structure Succeeded (s t : State) (ds : List Reg) (setsCtx : Bool) : Prop where
  done     : t.done = true
  phase    : t.phase = .idle
  others   : ∀ r, r ∉ ds → t.regs.get r = s.regs.get r
  ctx      : setsCtx = false → t.ctx = s.ctx
  err      : t.err = s.err
  errcode  : t.errcode = s.errcode
  aerr     : t.aerr = s.aerr
  ie       : t.ie = s.ie
  cmd      : t.cmd = s.cmd
  inflight : t.inflight = s.inflight
  rst      : t.rst = s.rst
  params   : t.params = s.params
  pending  : t.pending = s.pending
  resp     : t.resp = s.resp
  draws    : t.draws = s.draws

/-- `t` is `s` after its command failed with `code`: `ERR` and `ERRCODE` record it, the engine is idle, and everything else, every
operand register and the context among it, is as before (60_exceptions R170, 00_scope R10). -/
structure Failed (s t : State) (code : ErrCode) : Prop where
  err      : t.err = true
  errcode  : t.errcode = code
  phase    : t.phase = .idle
  regs     : t.regs = s.regs
  ctx      : t.ctx = s.ctx
  done     : t.done = s.done
  aerr     : t.aerr = s.aerr
  ie       : t.ie = s.ie
  cmd      : t.cmd = s.cmd
  inflight : t.inflight = s.inflight
  rst      : t.rst = s.rst
  params   : t.params = s.params
  pending  : t.pending = s.pending
  resp     : t.resp = s.resp
  draws    : t.draws = s.draws

/-! ## Command words in raw bits (30_encoding R90, R91, R95, R96) -/

/-- Bits [hi:lo] of a word as a number (00_scope R6). -/
def bits (w : Word) (hi lo : Nat) : Nat := w.toNat / 2 ^ lo % 2 ^ (hi - lo + 1)

/-- The first group of checks of 30_encoding R95: a reserved opcode, `RSV`, or an unused field that is not 0. -/
def HasIllegalBits (w : Word) : Prop :=
  0x0B < bits w 7 0 ∨ bits w 31 28 ≠ 0 ∨
  (bits w 7 0 ≤ 0x01 ∧ bits w 11 8 ≠ 0) ∨
  (bits w 7 0 = 0x00 ∧ bits w 15 12 ≠ 0) ∨
  (bits w 7 0 ∈ [0x00, 0x01, 0x03, 0x04, 0x0B] ∧ bits w 19 16 ≠ 0) ∨
  (bits w 7 0 ≠ 0x07 ∧ bits w 7 0 ≠ 0x09 ∧ bits w 23 20 ≠ 0) ∨
  (bits w 7 0 ≠ 0x09 ∧ bits w 27 24 ≠ 0)

/-- The second group: a used register field of 8 to 15. -/
def HasBadRegister (w : Word) : Prop :=
  (0x02 ≤ bits w 7 0 ∧ 8 ≤ bits w 11 8) ∨
  (0x01 ≤ bits w 7 0 ∧ 8 ≤ bits w 15 12) ∨
  (bits w 7 0 ∈ [0x02, 0x05, 0x06, 0x07, 0x08, 0x09, 0x0A] ∧ 8 ≤ bits w 19 16) ∨
  ((bits w 7 0 = 0x07 ∨ bits w 7 0 = 0x09) ∧ 8 ≤ bits w 23 20) ∨
  (bits w 7 0 = 0x09 ∧ 8 ≤ bits w 27 24)

/-- The last group: a repeated destination of `MULW` or `EGCD` (30_encoding R96). -/
def RepeatsDestination (w : Word) : Prop :=
  (bits w 7 0 = 0x07 ∧ bits w 11 8 = bits w 23 20) ∨
  (bits w 7 0 = 0x09 ∧
    (bits w 11 8 = bits w 23 20 ∨ bits w 11 8 = bits w 27 24 ∨ bits w 23 20 = bits w 27 24))

/-- The registers a soft reset makes unspecified (70_reset_and_hazards R191): named by a field among `RD`, `RC`, `RE` that the
opcode uses. -/
def IsAbandoned (w : Word) (r : Reg) : Prop :=
  bits w 7 0 ≤ 0x0B ∧
  ((0x02 ≤ bits w 7 0 ∧ bits w 11 8 = r.index) ∨
   ((bits w 7 0 = 0x07 ∨ bits w 7 0 = 0x09) ∧ bits w 23 20 = r.index) ∨
   (bits w 7 0 = 0x09 ∧ bits w 27 24 = r.index))

/-! ## Resets and `CTRL` writes -/

/-- Every piece of control state of `t` has its reset value (10_state R42). -/
structure ControlReset (t : State) : Prop where
  ctx      : t.ctx = Ctx.cleared
  phase    : t.phase = .idle
  inflight : t.inflight = 0
  cmd      : t.cmd = 0
  ie       : t.ie = false
  done     : t.done = false
  err      : t.err = false
  aerr     : t.aerr = false
  errcode  : t.errcode = .noError
  irq      : t.irq = false

/-- `t` is `s` after a soft reset (70_reset_and_hazards R191): the control state reset, and every operand register kept that is no
destination of a command in flight. What those destinations hold is `AbandonedAreFresh`. -/
structure SoftReset (s t : State) : Prop where
  control  : ControlReset t
  kept     : ∀ r, (s.phase = .idle ∨ ¬ IsAbandoned s.inflight r) → t.regs.get r = s.regs.get r
  params   : t.params = s.params
  rst      : t.rst = s.rst
  pending  : t.pending = s.pending
  resp     : t.resp = s.resp

/-- The destinations of a command in flight are unspecified in `t`, each a free draw not made before (70_reset_and_hazards R191,
10_state R47; log entry 5). -/
def AbandonedAreFresh (s t : State) : Prop :=
  ∀ r, s.phase = .busy → IsAbandoned s.inflight r →
    ∃ n, s.draws ≤ n ∧ n < t.draws ∧ t.regs.get r = freeReg s.params.limbs n

/-- `t` is `s` after a `CTRL` write of `v` (10_state R37, R46). -/
def CtrlWritten (s : State) (v : Word) (t : State) : Prop :=
  if v.getLsbD 1 = true then SoftReset s t
  else if v.getLsbD 0 = true then
    match s.phase with
    | .idle => t = { s with ie := v.getLsbD 2, inflight := s.cmd, done := false, err := false, errcode := .noError,
                            phase := .busy }
    | .busy => t = { s with ie := v.getLsbD 2, aerr := true }
  else t = { s with ie := v.getLsbD 2 }

/-! ## The window -/

/-- The offset of an operand-register limb is `limbOffset` (10_state R43); these are the other mapped words of 20_memory R70. -/
def IsCtxOffset (l off : Nat) : Prop :=
  (∃ j, j < l ∧ off = 0x3000 + 4 * j) ∨ (∃ j, j < l ∧ off = 0x3400 + 4 * j) ∨
  (∃ j, j < l + 1 ∧ off = 0x3800 + 4 * j) ∨ off = 0x3C00 ∨ off = 0x3C04

/-- The word-aligned offsets of the window that nothing is mapped to (20_memory R70). -/
def IsUnmapped (l off : Nat) : Prop :=
  off % 4 = 0 ∧ off < 0x4000 ∧ off ∉ [0x000, 0x004, 0x008, 0x00C, 0x010] ∧
  (∀ r j, j < l → off ≠ limbOffset r j) ∧ ¬ IsCtxOffset l off

/-- The access asks for a soft reset: a defined write to `CTRL` with `SRST = 1` (10_state R37). -/
def AsksForReset (p : Params) (a : Access) : Prop := ∃ v, v.getLsbD 1 = true ∧ a = ⟨.write v, p.base + 0x008, 4, 0xF⟩

/-- The next step is the engine's: no event is left, or the oldest one is the engine's turn (10_state R30). -/
def EngineIsNext (s : State) (rest : List Event) : Prop := (s.pending = [] ∧ rest = []) ∨ s.pending = .engine :: rest

end Sys2Proof.Machine
end

