-- ==== Sys2Proof/Certificates/Slice0/Obligations.lean ====
section
/-! DEFINITION. The statements for the provers, one `def Obligations.<Name> : Prop` each, in the order of the files of spec/:
encoding, reset, the port, the sequencer, the commands, the arithmetic they rest on. -/

open Sys2Proof Sys2Proof.Machine

/-! ## Encoding (spec/30_encoding.md) -/

/-- Decoding the encoder's word of a well-formed command gives it back, for every register in every operand. -/
def Obligations.DecodeOfEncodeIsTheCommand : Prop :=
  ∀ i : Instr, i.wellFormed = true → decode (encode i) = .ok i

/-- A word that decodes is the encoder's word of its command: each command has exactly one word (R92: no aliases). -/
def Obligations.EncodeOfDecodeIsTheWord : Prop :=
  ∀ (w : Word) (i : Instr), decode w = .ok i → i.wellFormed = true ∧ encode i = w

/-- 30_encoding R95: the checks of the decoder in their order, in the bits of the word. -/
def Obligations.DecodeChecksInOrder : Prop :=
  ∀ w : Word,
    (HasIllegalBits w → decode w = .error .illegal) ∧
    (¬ HasIllegalBits w → HasBadRegister w → decode w = .error .badreg) ∧
    (¬ HasIllegalBits w → ¬ HasBadRegister w → RepeatsDestination w → decode w = .error .illegal) ∧
    (¬ HasIllegalBits w → ¬ HasBadRegister w → ¬ RepeatsDestination w →
      ∃ i, decode w = .ok i ∧ encode i = w ∧ (opcodeOf i).toNat = bits w 7 0)

/-- Words that the rules of files 40 to 43 write out decode to the commands they stand for there. -/
def Obligations.WordsOfTheRulesDecode : Prop :=
  decode 0x00000000 = .ok .nop ∧
  decode 0x0000140B = .ok (.mov .v4 .v1) ∧
  decode 0x00000001 = .ok (.setmod .v0) ∧
  decode 0x00521407 = .ok (.mulw .v4 .v5 .v1 .v2) ∧
  decode 0x00021402 = .ok (.montmul .v4 .v1 .v2) ∧
  decode 0x00001403 = .ok (.tomont .v4 .v1) ∧
  decode 0x00001404 = .ok (.frommont .v4 .v1) ∧
  decode 0x00021405 = .ok (.modmul .v4 .v1 .v2) ∧
  decode 0x00065406 = .ok (.bred .v4 .v5 .v6) ∧
  decode 0x06521409 = .ok (.egcd .v4 .v5 .v6 .v1 .v2) ∧
  decode 0x0002140A = .ok (.modinv .v4 .v1 .v2) ∧
  decode 0x00021408 = .ok (.modexp .v4 .v1 .v2)

/-- 30_encoding R97: an illegal encoding completes with `ILLEGAL`, a register field of 8 to 15 with `BADREG`, each writing
nothing; every other word is completed as exactly one command; no word hangs the engine. The all-zero word is `NOP`. -/
def Obligations.EveryWordCompletesOrFails : Prop :=
  decode 0 = .ok .nop ∧
  ∀ (s : State) (rest : List Event), s.phase = .busy → s.rst = false → EngineIsNext s rest →
    ∃ t, step s = .next t ∧ t.phase = .idle ∧
      (HasIllegalBits s.inflight → Failed (s.setPending rest) t .illegal) ∧
      (¬ HasIllegalBits s.inflight → HasBadRegister s.inflight → Failed (s.setPending rest) t .badreg) ∧
      (¬ HasIllegalBits s.inflight → ¬ HasBadRegister s.inflight → RepeatsDestination s.inflight →
        Failed (s.setPending rest) t .illegal) ∧
      (¬ HasIllegalBits s.inflight → ¬ HasBadRegister s.inflight → ¬ RepeatsDestination s.inflight →
        ∃ i, decode s.inflight = .ok i ∧ (∀ j, decode s.inflight = .ok j → j = i) ∧ encode i = s.inflight ∧
          exec i (s.setPending rest) = .next t)

/-- 30_encoding R101: each pseudo-instruction, on the names of any registers, assembles to the word of exactly the one command of
its expansion, and on any operand spellings, rejected ones too, gives what its expansion gives. -/
def Obligations.PseudoInstructionsAssemble : Prop :=
  (∀ d a, assemble ['M', 'O', 'N', 'T', 'S', 'Q', 'R'] [regName d, regName a] = some (encode (.montmul d a a))) ∧
  (∀ d a, assemble ['M', 'O', 'D', 'S', 'Q', 'R'] [regName d, regName a] = some (encode (.modmul d a a))) ∧
  (∀ c m e, assemble ['E', 'N', 'C', 'R', 'Y', 'P', 'T'] [regName c, regName m, regName e] =
    some (encode (.modexp c m e))) ∧
  (∀ m c d, assemble ['D', 'E', 'C', 'R', 'Y', 'P', 'T'] [regName m, regName c, regName d] =
    some (encode (.modexp m c d))) ∧
  (∀ g x y a b, assemble ['G', 'C', 'D'] [regName g, regName x, regName y, regName a, regName b] =
    some (encode (.egcd g x y a b))) ∧
  (∀ d a, assemble ['M', 'O', 'N', 'T', 'S', 'Q', 'R'] [d, a] = assemble ['M', 'O', 'N', 'T', 'M', 'U', 'L'] [d, a, a]) ∧
  (∀ d a, assemble ['M', 'O', 'D', 'S', 'Q', 'R'] [d, a] = assemble ['M', 'O', 'D', 'M', 'U', 'L'] [d, a, a]) ∧
  (∀ c m e, assemble ['E', 'N', 'C', 'R', 'Y', 'P', 'T'] [c, m, e] = assemble ['M', 'O', 'D', 'E', 'X', 'P'] [c, m, e]) ∧
  (∀ m c d, assemble ['D', 'E', 'C', 'R', 'Y', 'P', 'T'] [m, c, d] = assemble ['M', 'O', 'D', 'E', 'X', 'P'] [m, c, d]) ∧
  (∀ g x y a b, assemble ['G', 'C', 'D'] [g, x, y, a, b] = assemble ['E', 'G', 'C', 'D'] [g, x, y, a, b])

/-! ## Reset (spec/10_state.md, spec/70_reset_and_hazards.md) -/

/-- 10_state R42, the reset column: the machine right after power-on reset, in every configuration. Nothing is said of what the
operand registers hold (R47); that no event is pending is the model's choice (log entry 3). -/
def Obligations.ResetStateValues : Prop :=
  ∀ p : Params, ControlReset (State.resetFor p) ∧ (State.resetFor p).rst = false ∧ (State.resetFor p).params = p ∧
    (State.resetFor p).pending = [] ∧ (State.resetFor p).statusWord = 0 ∧
    ∀ r, ((State.resetFor p).regs.get r).length = p.limbs

/-- 70_reset_and_hazards R190: the assertion and the release of `rst` leave every piece of control state at its reset value and
every operand register at free draws not made before; while it is asserted no access and no engine turn changes that. -/
def Obligations.PowerOnReset : Prop :=
  ∀ (s : State) (rest : List Event),
    (s.pending = .assertRst :: rest → ∃ t, step s = .next t ∧ ControlReset t ∧ t.rst = true ∧ t.params = s.params ∧
      t.pending = rest ∧ ∀ r, ∃ n, s.draws ≤ n ∧ n < t.draws ∧ t.regs.get r = freeReg s.params.limbs n) ∧
    (s.rst = true → s.pending = .releaseRst :: rest → ∃ t, step s = .next t ∧ ControlReset t ∧ t.rst = false ∧
      t.params = s.params ∧ t.pending = rest ∧
      ∀ r, ∃ n, s.draws ≤ n ∧ n < t.draws ∧ t.regs.get r = freeReg s.params.limbs n) ∧
    (s.rst = true → (s.pending = .engine :: rest ∨ ∃ a, s.pending = .access a :: rest) →
      ∃ t, step s = .next t ∧ t.pending = rest ∧ t.rst = true ∧ t.params = s.params ∧ t.regs = s.regs ∧ t.ctx = s.ctx ∧
        t.phase = s.phase ∧ t.inflight = s.inflight ∧ t.cmd = s.cmd ∧ t.ie = s.ie ∧ t.done = s.done ∧ t.err = s.err ∧
        t.aerr = s.aerr ∧ t.errcode = s.errcode)

/-- The invariant holds right after power-on reset, in every configuration the spec allows, the reference one among them. -/
def Obligations.ResetHasTheInvariant : Prop :=
  (∀ p : Params, p.Valid → (State.resetFor p).Inv) ∧ State.reset.Inv

/-- The invariant holds after every step from a state in which it holds, whether or not a run reaches that state: the widths
of the registers (R32), the context of one modulus or none (R33), the flag invariants (R40), the reset values while `rst` is
asserted (R190), the configuration (R5). -/
def Obligations.EveryStepKeepsTheInvariant : Prop :=
  ∀ s t : State, s.Inv → step s = .next t → t.Inv

/-- 70_reset_and_hazards R191: a `CTRL` write with `SRST = 1` is a soft reset, and nothing else of that write takes effect. That an abandoned destination is a fresh free draw is the model's choice among the two
that R47 gives (log entry 5). -/
def Obligations.SoftResetWrite : Prop :=
  ∀ (s : State) (v : Word) (rest : List Event), s.rst = false → v.getLsbD 1 = true →
    s.pending = wr s.params 0x008 v :: rest →
    ∃ t, step s = .next t ∧ SoftReset { s with pending := rest, resp := none } t ∧ AbandonedAreFresh s t

/-! ## The port (spec/20_memory.md) -/

/-- 20_memory R60: what a read of each offset answers, and that it changes nothing but `AERR` on an unmapped offset. -/
def Obligations.BusReadPrimitive : Prop :=
  ∀ (s : State) (off : Nat) (rest : List Event), s.params.Valid → s.rst = false → s.pending = rd s.params off :: rest →
    (off = 0x000 → step s = .next { s with pending := rest, resp := some 0x4D4D0107 }) ∧
    (off = 0x004 → step s = .next { s with pending := rest, resp := some (BitVec.ofNat 32 (s.params.limbs + 8 * 2 ^ 16)) }) ∧
    (off = 0x008 → step s = .next { s with pending := rest, resp := some (if s.ie = true then 4 else 0) }) ∧
    (off = 0x00C → step s = .next { s with pending := rest, resp := some s.cmd }) ∧
    (off = 0x010 → ∃ w : Word, step s = .next { s with pending := rest, resp := some w } ∧
      w.toNat = s.busy.toNat + 2 * s.done.toNat + 4 * s.err.toNat + 8 * s.aerr.toNat +
        2 ^ 8 * (errCode s.errcode).toNat + 2 ^ 12 * s.ctx.valid.toNat + 2 ^ 13 * s.ctx.odd.toNat) ∧
    (∀ r j, j < s.params.limbs → off = limbOffset r j → step s = .next
      { s with pending := rest, resp := some (if s.phase = .busy then 0 else BitVec.ofNat 32 (s.value r / 2 ^ (32 * j))) }) ∧
    (∀ j, j < s.params.limbs → off = 0x3000 + 4 * j → step s = .next
      { s with pending := rest, resp := some (if s.phase = .busy then 0 else BitVec.ofNat 32 (s.ctx.n / 2 ^ (32 * j))) }) ∧
    (∀ j, j < s.params.limbs → off = 0x3400 + 4 * j → step s = .next
      { s with pending := rest, resp := some (if s.phase = .busy then 0 else BitVec.ofNat 32 (s.ctx.rr / 2 ^ (32 * j))) }) ∧
    (∀ j, j < s.params.limbs + 1 → off = 0x3800 + 4 * j → step s = .next
      { s with pending := rest, resp := some (if s.phase = .busy then 0 else BitVec.ofNat 32 (s.ctx.mu / 2 ^ (32 * j))) }) ∧
    (off = 0x3C00 → step s = .next
      { s with pending := rest, resp := some (if s.phase = .busy then 0 else BitVec.ofNat 32 s.ctx.k.toNat) }) ∧
    (off = 0x3C04 → step s = .next
      { s with pending := rest, resp := some (if s.phase = .busy then 0 else s.ctx.ninv0) }) ∧
    (IsUnmapped s.params.limbs off → step s = .next { s with pending := rest, resp := some 0, aerr := true })

/-- 20_memory R61 with the `CTRL` write of 10_state R46: what a write of each offset does. A write of an operand-register word
replaces that limb and no other. What a soft reset leaves in the destinations of a command in flight is `SoftResetWrite`'s. -/
def Obligations.BusWritePrimitive : Prop :=
  ∀ (s : State) (off : Nat) (v : Word) (rest : List Event), s.params.Valid → s.rst = false →
    s.pending = wr s.params off v :: rest →
    ((off = 0x000 ∨ off = 0x004) → step s = .next { s with pending := rest, resp := none, aerr := true }) ∧
    (off = 0x008 → ∃ t, step s = .next t ∧ CtrlWritten { s with pending := rest, resp := none } v t) ∧
    (off = 0x00C → step s = .next (if s.phase = .busy then { s with pending := rest, resp := none, aerr := true }
      else { s with pending := rest, resp := none, cmd := v })) ∧
    (off = 0x010 → step s = .next
      { s with
        pending := rest, resp := none, done := s.done && !v.getLsbD 1, err := s.err && !v.getLsbD 2,
        errcode := if v.getLsbD 2 = true then .noError else s.errcode, aerr := s.aerr && !v.getLsbD 3 }) ∧
    (∀ r j, j < s.params.limbs → off = limbOffset r j → step s = .next (
      if s.phase = .busy then { s with pending := rest, resp := none, aerr := true }
      else { s with pending := rest, resp := none, regs := s.regs.set r ((s.regs.get r).set j v) })) ∧
    ((IsCtxOffset s.params.limbs off ∨ IsUnmapped s.params.limbs off) →
      step s = .next { s with pending := rest, resp := none, aerr := true })

/-- 10_state R43: after a write of limb `j` of an idle block's register, that limb of its value is the word written, every other
limb of it is as before, and so is every other register. -/
def Obligations.LimbWriteChangesOneLimb : Prop :=
  ∀ (s : State) (r : Reg) (j : Nat) (v : Word) (rest : List Event), s.Inv → s.rst = false → s.phase = .idle →
    j < s.params.limbs → s.pending = wr s.params (limbOffset r j) v :: rest →
    ∃ t, step s = .next t ∧ t.value r / 2 ^ (32 * j) % 2 ^ 32 = v.toNat ∧ t.value r < 2 ^ s.width ∧
      (∀ k, k ≠ j → t.value r / 2 ^ (32 * k) % 2 ^ 32 = s.value r / 2 ^ (32 * k) % 2 ^ 32) ∧
      (∀ q, q ≠ r → t.value q = s.value q) ∧ t.ctx = s.ctx ∧ t.aerr = s.aerr

/-- 20_memory R62: an access that is not an aligned full word, in any of the three ways, is an access error: a write changes
nothing but `AERR`, a read answers 0 and sets `AERR`. No access of any kind ends in an error response. `rst` is released: while it
is asserted the access is the platform's (R190). -/
def Obligations.UndefinedAccessIsAnAccessError : Prop :=
  (∀ (s : State) (a : Access) (rest : List Event), s.rst = false → s.pending = .access a :: rest →
    ∃ t, step s = .next t ∧ t.pending = rest) ∧
  ∀ (s : State) (a : Access) (off : Nat) (rest : List Event), s.rst = false → s.pending = .access a :: rest →
    a.addr = s.params.base + off → off < 0x4000 → (a.bytes ≠ 4 ∨ off % 4 ≠ 0 ∨ a.lanes ≠ 0xF) →
    step s = .next { s with pending := rest, aerr := true, resp := if a.dir = .read then some 0 else none }

/-- 20_memory R69: an access outside the window `[BASE, BASE + 0x4000)` is not decoded and changes nothing. -/
def Obligations.AccessOutsideTheWindow : Prop :=
  ∀ (s : State) (a : Access) (rest : List Event), s.pending = .access a :: rest →
    (a.addr < s.params.base ∨ s.params.base + 0x4000 ≤ a.addr) → step s = .next { s with pending := rest }

/-- 20_memory R64: `AERR` is sticky, cleared by nothing but a `STATUS` write with bit 3 or a reset, and nothing but a host access
sets it. -/
def Obligations.AccessErrorIsSticky : Prop :=
  ∀ s t : State, step s = .next t →
    (s.aerr = true → t.aerr = false →
      ∃ rest, (∃ v : Word, v.getLsbD 3 = true ∧ s.pending = wr s.params 0x010 v :: rest) ∨
        (∃ a, AsksForReset s.params a ∧ s.pending = .access a :: rest) ∨
        s.pending = .assertRst :: rest ∨ (s.rst = true ∧ s.pending = .releaseRst :: rest)) ∧
    (s.aerr = false → t.aerr = true → s.rst = false ∧ ∃ a rest, s.pending = .access a :: rest)

/-- 20_memory R63, the disturbing half: while busy, no access but a soft reset changes an operand register, the context, the
command, or how far it has come; the flags it can change are `IE` and `AERR`. -/
def Obligations.BusyBlockProtectsTheCommand : Prop :=
  ∀ (s : State) (a : Access) (rest : List Event), s.Inv → s.phase = .busy → s.pending = .access a :: rest →
    ¬ AsksForReset s.params a →
    ∃ t, step s = .next t ∧ t.regs = s.regs ∧ t.ctx = s.ctx ∧ t.inflight = s.inflight ∧ t.cmd = s.cmd ∧ t.phase = .busy ∧
      t.done = s.done ∧ t.err = s.err ∧ t.errcode = s.errcode ∧ t.params = s.params ∧ t.pending = rest ∧ t.rst = s.rst ∧
      t.draws = s.draws

/-- 20_memory R63, the observing half: two busy blocks that differ only in the operand registers and in the numbers of the context
answer every access alike, and set `AERR` alike. -/
def Obligations.BusyBlockHidesTheOperands : Prop :=
  ∀ (s : State) (rf : Regs) (n rr mu : Nat) (k : BitVec 16) (ninv0 : Word) (a : Access) (rest : List Event),
    s.phase = .busy → s.pending = .access a :: rest →
    ∃ t u, step s = .next t ∧
      step { s with regs := rf, ctx := { s.ctx with n := n, k := k, ninv0 := ninv0, rr := rr, mu := mu } } = .next u ∧
      u.resp = t.resp ∧ u.aerr = t.aerr ∧ u.ie = t.ie ∧ u.phase = t.phase

/-- 20_memory R65: byte lane `b` of limb `j` of an operand register, at address `BASE + off + b`, carries bits [8b+7 : 8b] of the
word, which are byte `4·j + b` of the register's value. -/
def Obligations.LanesAreLittleEndian : Prop :=
  ∀ (s : State) (r : Reg) (j b : Nat) (rest : List Event), s.params.Valid → s.rst = false → s.phase = .idle →
    j < s.params.limbs → b < 4 → s.pending = rd s.params (limbOffset r j) :: rest →
    ∃ t w, step s = .next t ∧ t.resp = some w ∧
      (laneOf w b).toNat = s.value r / 2 ^ (8 * (4 * j + b)) % 2 ^ 8 ∧
      wordOfLanes (laneOf w 0) (laneOf w 1) (laneOf w 2) (laneOf w 3) = w

/-! ## Status and interrupt (spec/10_state.md, spec/60_exceptions.md) -/

/-- 10_state R40: a `STATUS` read shows idle, busy, done or failed and nothing else; `ERRCODE` is not 0 exactly when it shows
failed. `AERR` is independent: either value of it goes with every value of the others. -/
def Obligations.ReadableStatusValues : Prop :=
  ∀ s : State, s.Inv →
    (∀ b, (s.rst = false → ({ s with aerr := b } : State).Inv) ∧ ({ s with aerr := b } : State).statusWord.getLsbD 3 = b ∧
      ∀ i, i ≠ 3 → ({ s with aerr := b } : State).statusWord.getLsbD i = s.statusWord.getLsbD i) ∧
    let w := s.statusWord
    ((w.getLsbD 0 = false ∧ w.getLsbD 1 = false ∧ w.getLsbD 2 = false ∧ bits w 11 8 = 0) ∨
    (w.getLsbD 0 = true ∧ w.getLsbD 1 = false ∧ w.getLsbD 2 = false ∧ bits w 11 8 = 0) ∨
    (w.getLsbD 0 = false ∧ w.getLsbD 1 = true ∧ w.getLsbD 2 = false ∧ bits w 11 8 = 0) ∨
    (w.getLsbD 0 = false ∧ w.getLsbD 1 = false ∧ w.getLsbD 2 = true ∧ 1 ≤ bits w 11 8 ∧ bits w 11 8 ≤ 8))

/-- 60_exceptions R175: the level of `irq`; the steps that raise it and those that let it fall, and that each of them does, and no
other step. `AERR` is not among what drives it. -/
def Obligations.InterruptLevel : Prop :=
  ∀ s t : State, s.Inv → step s = .next t →
    (t.irq = true ↔ t.ie = true ∧ (t.done = true ∨ t.err = true)) ∧
    (s.phase = .busy → t.phase = .idle → (t.done = true ∨ t.err = true) → t.irq = s.ie) ∧
    (∀ (v : Word) (rest : List Event), s.rst = false → s.pending = wr s.params 0x008 v :: rest →
      (v.getLsbD 0 = false → v.getLsbD 1 = false → v.getLsbD 2 = true → (s.done = true ∨ s.err = true) → t.irq = true) ∧
      ((v.getLsbD 1 = true ∨ v.getLsbD 2 = false ∨ (v.getLsbD 0 = true ∧ s.phase = .idle)) → t.irq = false)) ∧
    (∀ (v : Word) (rest : List Event), s.rst = false → s.pending = wr s.params 0x010 v :: rest →
      (s.done = true → v.getLsbD 1 = true) → (s.err = true → v.getLsbD 2 = true) → t.irq = false) ∧
    (∀ rest, s.pending = .assertRst :: rest → t.irq = false) ∧
    (s.irq = false → t.irq = true →
      (s.phase = .busy ∧ t.phase = .idle ∧ s.ie = true) ∨
      (s.ie = false ∧ (s.done = true ∨ s.err = true) ∧
        ∃ v rest, v.getLsbD 0 = false ∧ v.getLsbD 1 = false ∧ v.getLsbD 2 = true ∧ s.pending = wr s.params 0x008 v :: rest)) ∧
    (s.irq = true → t.irq = false →
      ∃ rest, (∃ v : Word, (s.done = true → v.getLsbD 1 = true) ∧ (s.err = true → v.getLsbD 2 = true) ∧
          s.pending = wr s.params 0x010 v :: rest) ∨
        (∃ v : Word, (v.getLsbD 0 = true ∨ v.getLsbD 1 = true ∨ v.getLsbD 2 = false) ∧
          s.pending = wr s.params 0x008 v :: rest) ∨
        s.pending = .assertRst :: rest)

/-! ## The sequencer (spec/10_state.md, spec/70_reset_and_hazards.md) -/

/-- A step runs the decoded command: when the engine is next and the word in flight decodes to `i`, the step is `exec i` on the
state with the engine's turn taken off the queue. -/
def Obligations.StepRunsTheDecodedCommand : Prop :=
  ∀ (s : State) (i : Instr) (rest : List Event), s.phase = .busy → s.rst = false → decode s.inflight = .ok i →
    EngineIsNext s rest → step s = exec i { s with pending := rest }

/-- 20_memory R74: the command a START runs is the value of `CMD` at its acceptance. -/
def Obligations.StartRunsTheCommandInCmd : Prop :=
  ∀ (s : State) (v : Word) (i : Instr) (rest : List Event), s.phase = .idle → s.rst = false → v.getLsbD 1 = false →
    v.getLsbD 0 = true → decode s.cmd = .ok i → s.pending = wr s.params 0x008 v :: .engine :: rest →
    Sys2Proof.core.run 2 s = exec i
      { s with
        pending := rest, resp := none, ie := v.getLsbD 2, inflight := s.cmd, done := false, err := false, errcode := .noError,
        phase := .busy }

/-- 30_encoding R102, `wrv r, X`: the `L` limb writes leave `X` in the register and change nothing else: every other register, the
context, all control state (`CTRL.IE` and `INFLIGHT` among it), `rst` and the configuration are as before. The model's own fields:
the writes are taken off the queue (log entry 3) and no word is answered (log entry 4). -/
def Obligations.HostWritesARegister : Prop :=
  ∀ (s : State) (r : Reg) (x : Nat) (rest : List Event), s.Inv → s.rst = false → s.phase = .idle → x < 2 ^ s.width →
    s.pending = wrv s.params r x ++ rest →
    ∃ t, Sys2Proof.core.run s.params.limbs s = .next t ∧ t.value r = x ∧
      (∀ q, q ≠ r → t.regs.get q = s.regs.get q) ∧ t = { s with regs := t.regs, resp := none, pending := rest }

/-- 30_encoding R102, `run WORD`: however many polls find the block busy, the run ends with the results of the command in the
registers and the context, and with its status as the last word read. -/
def Obligations.HostRunsACommand : Prop :=
  ∀ (s : State) (w : Word) (i : Instr) (polls : Nat) (rest : List Event), s.Inv → s.rst = false → s.phase = .idle →
    decode w = .ok i → s.pending = runCommand s.params w polls ++ rest →
    ∃ t u,
      exec i
        { s with
          cmd := w, inflight := w, ie := false, done := false, err := false, errcode := .noError, phase := .busy } = .next t ∧
      Sys2Proof.core.run (polls + 4) s = .next u ∧ u.regs = t.regs ∧ u.ctx = t.ctx ∧ u.statusWord = t.statusWord ∧
      u.resp = some u.statusWord ∧ u.busy = false ∧ (u.done = true ∨ u.err = true) ∧ u.pending = rest

/-- No access is answered with a bus error or stalled, no command hangs the engine, no event stops the machine. That an access while
`rst` is asserted is served too is the model's choice, not the spec's: R190 leaves it to the platform (log entry 6). -/
def Obligations.EveryStateHasANextState : Prop :=
  ∀ s : State, ∃ t, step s = .next t

/-- 70_reset_and_hazards R202: a started command completes, or a reset ends it, after no more steps than events are left and
one. -/
def Obligations.StartedCommandEnds : Prop :=
  ∀ s : State, s.Inv → s.phase = .busy →
    ∃ k t, k ≤ s.pending.length + 1 ∧ Sys2Proof.core.run k s = .next t ∧ t.phase = .idle

/-- The result of a command does not depend on when the engine completes it: whatever accesses come between, none of them a soft
reset, the registers, the context and the completion status are those of an immediate completion. -/
def Obligations.ResultIsIndependentOfTheSchedule : Prop :=
  ∀ (s t : State) (es rest : List Event), s.Inv → s.phase = .busy → s.pending = es ++ .engine :: rest →
    (∀ e ∈ es, ∃ a, e = .access a ∧ ¬ AsksForReset s.params a) →
    step { s with pending := .engine :: rest } = .next t →
    ∃ u, Sys2Proof.core.run (es.length + 1) s = .next u ∧ u.regs = t.regs ∧ u.ctx = t.ctx ∧ u.done = t.done ∧ u.err = t.err ∧
      u.errcode = t.errcode ∧ u.phase = t.phase ∧ u.inflight = t.inflight ∧ u.cmd = t.cmd ∧ u.pending = rest

/-- 10_state R33: the context is written only by a successful `SETMOD` and by reset. -/
def Obligations.OnlySetmodAndResetChangeTheContext : Prop :=
  ∀ s t : State, step s = .next t → t.ctx ≠ s.ctx →
    (∃ a rest, decode s.inflight = .ok (.setmod a) ∧ s.phase = .busy ∧ s.rst = false ∧ EngineIsNext s rest ∧
      2 ≤ s.value a ∧ t.ctx.valid = true ∧ t.ctx.n = s.value a ∧ t.done = true) ∨
    (t.ctx = Ctx.cleared ∧ ∃ rest, (∃ a, AsksForReset s.params a ∧ s.pending = .access a :: rest) ∨
      s.pending = .assertRst :: rest ∨ (s.rst = true ∧ s.pending = .releaseRst :: rest))

/-- An operand register changes only as a destination of a completing command, by a host write of one of its limbs while idle, as
a destination abandoned by a soft reset, or by power-on reset (R32, R43, R47, R191). -/
def Obligations.OnlyTheseEventsChangeAnOperandRegister : Prop :=
  ∀ (s t : State) (r : Reg), step s = .next t → t.regs.get r ≠ s.regs.get r →
    ∃ rest, (∃ i, decode s.inflight = .ok i ∧ r ∈ i.dests ∧ s.phase = .busy ∧ s.rst = false ∧ EngineIsNext s rest ∧
        t.done = true) ∨
      (s.phase = .idle ∧ ∃ j v, j < s.params.limbs ∧ s.pending = wr s.params (limbOffset r j) v :: rest) ∨
      (s.phase = .busy ∧ IsAbandoned s.inflight r ∧ ∃ a, AsksForReset s.params a ∧ s.pending = .access a :: rest) ∨
      s.pending = .assertRst :: rest ∨ (s.rst = true ∧ s.pending = .releaseRst :: rest)

/-- 10_state R45: what a command does depends on the operand registers and the context alone (with the configuration). -/
def Obligations.CommandsReadOperandsAndContextOnly : Prop :=
  ∀ (i : Instr) (s u : State), s.regs = u.regs → s.ctx = u.ctx → s.params = u.params →
    ∃ t v, exec i s = .next t ∧ exec i u = .next v ∧ t.regs = v.regs ∧ t.ctx = v.ctx ∧ t.phase = v.phase ∧
      ((∃ c, Failed s t c ∧ Failed u v c) ∨ ∃ b, Succeeded s t i.dests b ∧ Succeeded u v i.dests b)

/-- The frame of every command: it fails and writes nothing but `ERR` and its code, or it succeeds and writes only its destination
registers, and the context if it is `SETMOD` (00_scope R10, R12). -/
def Obligations.EveryCommandSucceedsOrFails : Prop :=
  ∀ (i : Instr) (s : State), ∃ t, exec i s = .next t ∧
    ((∃ c, c ≠ .noError ∧ Failed s t c) ∨
     ∃ b, Succeeded s t i.dests b ∧ (b = true → ∃ a, i = .setmod a))

/-- 60_exceptions R170: a completion that shows `ERR` has recorded a code, cleared `BUSY`, left `DONE = 0` and written nothing else;
the failed word is still in `CMD`. -/
def Obligations.FailedCommandWritesNothing : Prop :=
  ∀ (s t : State) (rest : List Event), s.Inv → s.phase = .busy → EngineIsNext s rest → step s = .next t → t.err = true →
    t.errcode ≠ .noError ∧ t.done = false ∧ t.busy = false ∧ t.cmd = s.inflight ∧
      Failed { s with pending := rest } t t.errcode

/-! ## Control and set-up commands (spec/40_control.md) -/

/-- 40_control R110: `NOP` completes with `DONE` and no other effect; any other word with its opcode is `ILLEGAL`. -/
def Obligations.NopDoesNothing : Prop :=
  decode 0 = .ok .nop ∧ (∀ w : Word, bits w 7 0 = 0 → w ≠ 0 → decode w = .error .illegal) ∧
  ∀ s : State, ∃ t, exec .nop s = .next t ∧ Succeeded s t [] false

/-- 40_control R111: `MOV vd, va` copies a register, into itself too. -/
def Obligations.MovCopiesARegister : Prop :=
  ∀ (d a : Reg) (s : State), s.Inv →
    decode (BitVec.ofNat 32 (a.index * 2 ^ 12 + d.index * 2 ^ 8 + 0x0B)) = .ok (.mov d a) ∧
    ∃ t, exec (.mov d a) s = .next t ∧ Succeeded s t [d] false ∧ t.regs.get d = s.regs.get a

/-- 40_control R112: `SETMOD va` loads the whole context of `N = V[a]`, or fails with `BADMOD` and keeps the old one. -/
def Obligations.SetmodLoadsTheContext : Prop :=
  ∀ (a : Reg) (s : State), s.Inv →
    decode (BitVec.ofNat 32 (a.index * 2 ^ 12 + 0x01)) = .ok (.setmod a) ∧
    ∃ t, exec (.setmod a) s = .next t ∧
      (s.value a < 2 → Failed s t .badmod) ∧
      (2 ≤ s.value a → Succeeded s t [] true ∧ t.ctx.valid = true ∧ t.ctx.n = s.value a ∧
        (t.ctx.odd = true ↔ s.value a % 2 = 1) ∧
        2 ≤ t.ctx.k.toNat ∧ t.ctx.k.toNat ≤ s.width ∧
        2 ^ (t.ctx.k.toNat - 1) ≤ s.value a ∧ s.value a < 2 ^ t.ctx.k.toNat ∧
        t.ctx.mu = 2 ^ (2 * t.ctx.k.toNat) / s.value a ∧
        (s.value a % 2 = 1 → (t.ctx.ninv0.toNat : Int) = -(inv (s.value a % 2 ^ 32) (2 ^ 32) : Int) % 2 ^ 32 ∧
          (s.value a * t.ctx.ninv0.toNat + 1) % 2 ^ 32 = 0 ∧ t.ctx.rr = 2 ^ (2 * s.width) % s.value a) ∧
        (s.value a % 2 = 0 → t.ctx.ninv0 = 0 ∧ t.ctx.rr = 0) ∧
        t.statusWord.getLsbD 12 = true ∧ t.statusWord.getLsbD 13 = decide (s.value a % 2 = 1))

/-! ## Multiply and reduce commands (spec/41_multiply_reduce.md) -/

/-- 41_multiply_reduce R120: `MULW` writes the exact `2W`-bit product in two registers; the sources are read before either is
written. Its destinations are distinct (a word with equal ones is `ILLEGAL`). -/
def Obligations.MulwWritesTheWholeProduct : Prop :=
  ∀ (lo hi a b : Reg) (s : State), s.Inv → lo ≠ hi →
    decode (BitVec.ofNat 32 (hi.index * 2 ^ 20 + b.index * 2 ^ 16 + a.index * 2 ^ 12 + lo.index * 2 ^ 8 + 0x07)) =
      .ok (.mulw lo hi a b) ∧
    decode (BitVec.ofNat 32 (lo.index * 2 ^ 20 + b.index * 2 ^ 16 + a.index * 2 ^ 12 + lo.index * 2 ^ 8 + 0x07)) =
      .error .illegal ∧
    ∃ t, exec (.mulw lo hi a b) s = .next t ∧ Succeeded s t [lo, hi] false ∧
      t.value lo = s.value a * s.value b % 2 ^ s.width ∧
      t.value hi = s.value a * s.value b / 2 ^ s.width ∧
      t.value hi * 2 ^ s.width + t.value lo = s.value a * s.value b

/-- 41_multiply_reduce R122: `MONTMUL` writes the Montgomery product, the residue `t` with `t·R ≡ x·y (mod N)`, or fails with the
first of `NOCTX`, `EVENMOD`, `RANGE` that applies. -/
def Obligations.MontmulIsTheMontgomeryProduct : Prop :=
  ∀ (d a b : Reg) (s : State), s.Inv →
    decode (BitVec.ofNat 32 (b.index * 2 ^ 16 + a.index * 2 ^ 12 + d.index * 2 ^ 8 + 0x02)) = .ok (.montmul d a b) ∧
    ∃ t, exec (.montmul d a b) s = .next t ∧
      (s.ctx.valid = false → Failed s t .noctx) ∧
      (s.ctx.valid = true → s.ctx.odd = false → Failed s t .evenmod) ∧
      (s.ctx.valid = true → s.ctx.odd = true → (s.ctx.n ≤ s.value a ∨ s.ctx.n ≤ s.value b) → Failed s t .range) ∧
      (s.ctx.valid = true → s.ctx.odd = true → s.value a < s.ctx.n → s.value b < s.ctx.n →
        Succeeded s t [d] false ∧ t.value d < s.ctx.n ∧
        t.value d * 2 ^ s.width % s.ctx.n = s.value a * s.value b % s.ctx.n ∧
        t.value d = s.value a * s.value b * inv (2 ^ s.width % s.ctx.n) s.ctx.n % s.ctx.n ∧
        t.value d = montMulAlg s.params.limbs s.ctx (s.value a) (s.value b))

/-- 41_multiply_reduce R123: `TOMONT` writes `x·R mod N`. -/
def Obligations.TomontIsTheMontgomeryForm : Prop :=
  ∀ (d a : Reg) (s : State), s.Inv →
    decode (BitVec.ofNat 32 (a.index * 2 ^ 12 + d.index * 2 ^ 8 + 0x03)) = .ok (.tomont d a) ∧
    ∃ t, exec (.tomont d a) s = .next t ∧
      (s.ctx.valid = false → Failed s t .noctx) ∧
      (s.ctx.valid = true → s.ctx.odd = false → Failed s t .evenmod) ∧
      (s.ctx.valid = true → s.ctx.odd = true → s.ctx.n ≤ s.value a → Failed s t .range) ∧
      (s.ctx.valid = true → s.ctx.odd = true → s.value a < s.ctx.n →
        Succeeded s t [d] false ∧ t.value d = s.value a * 2 ^ s.width % s.ctx.n ∧
        t.value d = montMulAlg s.params.limbs s.ctx (s.value a) s.ctx.rr)

/-- 41_multiply_reduce R124: `FROMMONT` writes the residue `t` with `t·R ≡ x (mod N)`. -/
def Obligations.FrommontLeavesTheMontgomeryForm : Prop :=
  ∀ (d a : Reg) (s : State), s.Inv →
    decode (BitVec.ofNat 32 (a.index * 2 ^ 12 + d.index * 2 ^ 8 + 0x04)) = .ok (.frommont d a) ∧
    ∃ t, exec (.frommont d a) s = .next t ∧
      (s.ctx.valid = false → Failed s t .noctx) ∧
      (s.ctx.valid = true → s.ctx.odd = false → Failed s t .evenmod) ∧
      (s.ctx.valid = true → s.ctx.odd = true → s.ctx.n ≤ s.value a → Failed s t .range) ∧
      (s.ctx.valid = true → s.ctx.odd = true → s.value a < s.ctx.n →
        Succeeded s t [d] false ∧ t.value d < s.ctx.n ∧
        t.value d * 2 ^ s.width % s.ctx.n = s.value a ∧
        t.value d = s.value a * inv (2 ^ s.width % s.ctx.n) s.ctx.n % s.ctx.n ∧
        t.value d = montMulAlg s.params.limbs s.ctx (s.value a) 1)

/-- 41_multiply_reduce R126: `MODMUL` writes `x·y mod N`, for an even `N` too. -/
def Obligations.ModmulIsTheModularProduct : Prop :=
  ∀ (d a b : Reg) (s : State), s.Inv →
    decode (BitVec.ofNat 32 (b.index * 2 ^ 16 + a.index * 2 ^ 12 + d.index * 2 ^ 8 + 0x05)) = .ok (.modmul d a b) ∧
    ∃ t, exec (.modmul d a b) s = .next t ∧
      (s.ctx.valid = false → Failed s t .noctx) ∧
      (s.ctx.valid = true → (s.ctx.n ≤ s.value a ∨ s.ctx.n ≤ s.value b) → Failed s t .range) ∧
      (s.ctx.valid = true → s.value a < s.ctx.n → s.value b < s.ctx.n →
        Succeeded s t [d] false ∧ t.value d = s.value a * s.value b % s.ctx.n ∧
        t.value d = barrettAlg s.ctx (s.value a * s.value b))

/-- 41_multiply_reduce R127: `BRED` writes `x mod N` for the double-width `x = V[hi]·2^W + V[lo] < 2^(2K)`. -/
def Obligations.BredReducesADoubleWidthValue : Prop :=
  ∀ (d hi lo : Reg) (s : State), s.Inv →
    decode (BitVec.ofNat 32 (lo.index * 2 ^ 16 + hi.index * 2 ^ 12 + d.index * 2 ^ 8 + 0x06)) = .ok (.bred d hi lo) ∧
    ∃ t, exec (.bred d hi lo) s = .next t ∧
      (s.ctx.valid = false → Failed s t .noctx) ∧
      (s.ctx.valid = true → 2 ^ (2 * s.ctx.k.toNat) ≤ s.value hi * 2 ^ s.width + s.value lo → Failed s t .range) ∧
      (s.ctx.valid = true → s.value hi * 2 ^ s.width + s.value lo < 2 ^ (2 * s.ctx.k.toNat) →
        Succeeded s t [d] false ∧ t.value d = (s.value hi * 2 ^ s.width + s.value lo) % s.ctx.n ∧
        t.value d = barrettAlg s.ctx (s.value hi * 2 ^ s.width + s.value lo))

/-- 41_multiply_reduce R124, corner case: `FROMMONT(TOMONT(x)) = x` under one context. -/
def Obligations.MontgomeryRoundTrip : Prop :=
  ∀ (d a e : Reg) (s : State), s.Inv → s.ctx.valid = true → s.ctx.odd = true → s.value a < s.ctx.n →
    ∃ t u, exec (.tomont d a) s = .next t ∧ exec (.frommont e d) t = .next u ∧ u.value e = s.value a ∧ u.err = s.err

/-- 41_multiply_reduce R122, corner case: the Montgomery product of two Montgomery forms is the form of the product. -/
def Obligations.MontmulOfFormsIsTheFormOfTheProduct : Prop :=
  ∀ (d a b : Reg) (s : State) (x y : Nat), s.Inv → s.ctx.valid = true → s.ctx.odd = true →
    s.value a = x * 2 ^ s.width % s.ctx.n → s.value b = y * 2 ^ s.width % s.ctx.n →
    ∃ t, exec (.montmul d a b) s = .next t ∧ t.value d = (x * y % s.ctx.n) * 2 ^ s.width % s.ctx.n ∧ t.done = true

/-- 41_multiply_reduce R127, corner case: the product of two residues, split by `MULW`, is in `BRED`'s domain, and reducing it
gives `MODMUL`'s result. -/
def Obligations.MulwThenBredIsModmul : Prop :=
  ∀ (lo hi a b d : Reg) (s : State), s.Inv → s.ctx.valid = true → lo ≠ hi → s.value a < s.ctx.n → s.value b < s.ctx.n →
    ∃ t u v, exec (.mulw lo hi a b) s = .next t ∧ exec (.bred d hi lo) t = .next u ∧ exec (.modmul d a b) s = .next v ∧
      u.value d = v.value d ∧ u.err = s.err

/-! ## Extended Euclid and modular inverse (spec/42_euclid.md) -/

/-- 42_euclid R140: `EGCD` writes the gcd and the solver's coefficients in two's complement, which give the gcd back; both inputs 0
is `ZEROARG`; equal destinations are `ILLEGAL`. -/
def Obligations.EgcdSolvesBezout : Prop :=
  ∀ (g x y a b : Reg) (s : State), s.Inv →
    ((g = x ∨ g = y ∨ x = y) → decode (BitVec.ofNat 32 (y.index * 2 ^ 24 + x.index * 2 ^ 20 + b.index * 2 ^ 16 +
      a.index * 2 ^ 12 + g.index * 2 ^ 8 + 0x09)) = .error .illegal) ∧
    (g ≠ x → g ≠ y → x ≠ y →
      decode (BitVec.ofNat 32 (y.index * 2 ^ 24 + x.index * 2 ^ 20 + b.index * 2 ^ 16 + a.index * 2 ^ 12 +
        g.index * 2 ^ 8 + 0x09)) = .ok (.egcd g x y a b) ∧
      ∃ t, exec (.egcd g x y a b) s = .next t ∧
        (s.value a = 0 → s.value b = 0 → Failed s t .zeroarg) ∧
        ((s.value a ≠ 0 ∨ s.value b ≠ 0) → Succeeded s t [g, x, y] false ∧
          t.value g = Nat.gcd (s.value a) (s.value b) ∧ t.value g = (solve (s.value a) (s.value b)).g ∧
          t.value x = twos s.width (solve (s.value a) (s.value b)).x ∧
          t.value y = twos s.width (solve (s.value a) (s.value b)).y ∧
          sext s.width (t.value x) = (solve (s.value a) (s.value b)).x ∧
          sext s.width (t.value y) = (solve (s.value a) (s.value b)).y ∧
          (s.value a : Int) * sext s.width (t.value x) + (s.value b : Int) * sext s.width (t.value y) = t.value g))

/-- 42_euclid R142: `MODINV` writes the inverse in `[0, M)`; `NOTCOPRIME` is checked first, then `ZEROARG`. -/
def Obligations.ModinvIsTheInverse : Prop :=
  ∀ (d a m : Reg) (s : State), s.Inv →
    decode (BitVec.ofNat 32 (m.index * 2 ^ 16 + a.index * 2 ^ 12 + d.index * 2 ^ 8 + 0x0A)) = .ok (.modinv d a m) ∧
    ∃ t, exec (.modinv d a m) s = .next t ∧
      (Nat.gcd (s.value a) (s.value m) ≠ 1 → Failed s t .notcoprime) ∧
      (Nat.gcd (s.value a) (s.value m) = 1 → s.value m = 0 → Failed s t .zeroarg) ∧
      (Nat.gcd (s.value a) (s.value m) = 1 → s.value m ≠ 0 →
        Succeeded s t [d] false ∧ t.value d < s.value m ∧
        s.value a * t.value d % s.value m = 1 % s.value m ∧
        (t.value d : Int) = (solve (s.value a) (s.value m)).x % (s.value m : Int))

/-- 42_euclid R143: the three properties the source states, as they hold of MMB. -/
def Obligations.SourcePropertiesOfTheInverse : Prop :=
  (∀ (d a m : Reg) (s : State), s.Inv → 1 < s.value m → Nat.gcd (s.value a) (s.value m) = 1 →
    ∃ t, exec (.modinv d a m) s = .next t ∧ Succeeded s t [d] false ∧ s.value a * t.value d % s.value m = 1) ∧
  (∀ (d a m : Reg) (s : State), Nat.gcd (s.value a) (s.value m) ≠ 1 →
    ∃ t, exec (.modinv d a m) s = .next t ∧ Failed s t .notcoprime) ∧
  (∀ (g x y a b : Reg) (s : State), s.Inv → g ≠ x → g ≠ y → x ≠ y → s.value a = 0 → s.value b = 7 →
    ∃ t, exec (.egcd g x y a b) s = .next t ∧ Succeeded s t [g, x, y] false ∧ t.value g = 7 ∧ t.value x = 0 ∧ t.value y = 1)

/-! ## Modular exponentiation (spec/43_modexp.md) -/

/-- 43_modexp R150: `MODEXP` writes `X^E mod N`, with `0^0 = 1`, for odd and even `N` and every exponent. -/
def Obligations.ModexpIsThePower : Prop :=
  ∀ (d a b : Reg) (s : State), s.Inv →
    decode (BitVec.ofNat 32 (b.index * 2 ^ 16 + a.index * 2 ^ 12 + d.index * 2 ^ 8 + 0x08)) = .ok (.modexp d a b) ∧
    ∃ t, exec (.modexp d a b) s = .next t ∧
      (s.ctx.valid = false → Failed s t .noctx) ∧
      (s.ctx.valid = true → s.ctx.n ≤ s.value a → Failed s t .range) ∧
      (s.ctx.valid = true → s.value a < s.ctx.n →
        Succeeded s t [d] false ∧ t.value d = s.value a ^ s.value b % s.ctx.n ∧
        t.value d = modExpAlg s.params.limbs s.ctx (s.value a) (s.value b))

/-- 43_modexp R152: encryption then decryption with correctly paired keys returns the unit, for a product of two distinct primes;
and for `p = q = 3`, `e = d = 3` the unit 2 comes back as 8. -/
def Obligations.RsaRoundTrip : Prop :=
  (∀ (c a b m e : Reg) (s : State) (p q : Nat), s.Inv → s.ctx.valid = true → p.Prime → q.Prime → p ≠ q →
    s.ctx.n = p * q → s.value b * s.value e % ((p - 1) * (q - 1)) = 1 % ((p - 1) * (q - 1)) →
    s.value a < s.ctx.n → c ≠ e →
    ∃ t u, exec (.modexp c a b) s = .next t ∧ exec (.modexp m c e) t = .next u ∧ u.value m = s.value a) ∧
  (∀ (c a b m e : Reg) (s : State), s.Inv → s.ctx.valid = true → s.ctx.n = 9 → s.value a = 2 → s.value b = 3 →
    s.value e = 3 → c ≠ e →
    ∃ t u, exec (.modexp c a b) s = .next t ∧ exec (.modexp m c e) t = .next u ∧ u.value m = 8)

/-! ## The arithmetic (spec/00_scope.md and the reference datapaths) -/

/-- 00_scope R11: `inv(a, m)` is the unique `x` in `[0, m)` with `a·x mod m = 1 mod m`. -/
def Obligations.InverseIsUnique : Prop :=
  ∀ a m : Nat, 0 < m → Nat.gcd a m = 1 →
    inv a m < m ∧ a * inv a m % m = 1 % m ∧ (∀ x, x < m → a * x % m = 1 % m → x = inv a m)

/-- 00_scope R8: `sext_N(twos_N(z)) = z` for `-2^(N-1) ≤ z < 2^(N-1)`, and a pattern is an `N`-bit value. -/
def Obligations.TwosComplementRoundTrip : Prop :=
  ∀ (n : Nat) (z : Int), 1 ≤ n → -(2 ^ (n - 1)) ≤ z → z < 2 ^ (n - 1) → twos n z < 2 ^ n ∧ sext n (twos n z) = z

/-- 42_euclid R141: the recursion, the equal iterative form, the gcd and Bézout's identity. -/
def Obligations.SolverMeetsItsContract : Prop :=
  (∀ b : Nat, solve 0 b = ⟨b, 0, 1⟩) ∧
  (∀ a b : Nat, a ≠ 0 →
    solve a b = ⟨(solve (b % a) a).g, (solve (b % a) a).y - ((b / a : Nat) : Int) * (solve (b % a) a).x, (solve (b % a) a).x⟩) ∧
  (∀ a b : Nat, solveIter a b = solve a b) ∧
  (∀ a b : Nat, (solve a b).g = Nat.gcd a b ∧
    (a : Int) * (solve a b).x + (b : Int) * (solve a b).y = (solve a b).g) ∧
  (∀ a : Nat, 0 < a → solve a a = ⟨a, 1, 0⟩)

/-- 42_euclid R144: the coefficients are small, so `W`-bit two's complement holds them exactly for every `W ≥ 2` (not for `W = 1`),
and `EGCD` has no overflow error: with distinct destinations (R96) and inputs not both 0 it succeeds. -/
def Obligations.CoefficientsFitTheRegister : Prop :=
  ¬ (solve 0 1).y < 2 ^ (1 - 1) ∧
  (∀ (g x y a b : Reg) (s : State), g ≠ x → g ≠ y → x ≠ y → (s.value a ≠ 0 ∨ s.value b ≠ 0) →
    ∃ t, exec (.egcd g x y a b) s = .next t ∧ Succeeded s t [g, x, y] false) ∧
  ∀ a b : Nat, (a ≠ 0 ∨ b ≠ 0) →
    (solve a b).x.natAbs ≤ max 1 (b / Nat.gcd a b / 2) ∧ (solve a b).y.natAbs ≤ max 1 (a / Nat.gcd a b / 2) ∧
    ∀ w : Nat, 2 ≤ w → a < 2 ^ w → b < 2 ^ w →
      -(2 ^ (w - 1)) ≤ (solve a b).x ∧ (solve a b).x < 2 ^ (w - 1) ∧
      -(2 ^ (w - 1)) ≤ (solve a b).y ∧ (solve a b).y < 2 ^ (w - 1) ∧
      sext w (twos w (solve a b).x) = (solve a b).x ∧ sext w (twos w (solve a b).y) = (solve a b).y

/-- 41_multiply_reduce R125: the limb loop divides exactly, stays below `2N`, and gives the Montgomery product. -/
def Obligations.CiosIsTheMontgomeryProduct : Prop :=
  ∀ l n x y : Nat, n % 2 = 1 → 2 ≤ n → n < 2 ^ (32 * l) → x < n → y < n →
    (∀ t xi : Nat, (t + xi * y + (t + xi * y) % 2 ^ 32 * (montConst n).toNat % 2 ^ 32 * n) % 2 ^ 32 = 0) ∧
    ciosLoop n (montConst n) y (toLimbs l x) 0 < 2 * n ∧
    montMulAlg l (contextOf (32 * l) n) x y < n ∧
    montMulAlg l (contextOf (32 * l) n) x y * 2 ^ (32 * l) % n = x * y % n ∧
    montMulAlg l (contextOf (32 * l) n) x y = x * y * inv (2 ^ (32 * l) % n) n % n

/-- 41_multiply_reduce R128: the Barrett estimate needs at most two corrections and gives `x mod N`, for every modulus; and so does
the datapath with the context that `SETMOD` loads, whose 16-bit `K` holds `bitlen(N)` for every modulus MMB can hold. -/
def Obligations.BarrettIsTheRemainder : Prop :=
  ∀ n x : Nat, 2 ≤ n → x < 2 ^ (2 * bitlen n) →
    0 ≤ barrettEstimate n (bitlen n) (2 ^ (2 * bitlen n) / n) x ∧
    barrettEstimate n (bitlen n) (2 ^ (2 * bitlen n) / n) x < 3 * n ∧
    correct n 2 (barrettEstimate n (bitlen n) (2 ^ (2 * bitlen n) / n) x).toNat = x % n ∧
    (bitlen n ≤ 4096 → ∀ w, barrettAlg (contextOf w n) x = x % n)

/-- 43_modexp R151: square-and-multiply, in the Montgomery domain for an odd and with Barrett reduction for an even modulus,
computes the power. -/
def Obligations.SquareAndMultiplyIsThePower : Prop :=
  ∀ l n x e : Nat, 1 ≤ l → l ≤ 128 → 2 ≤ n → n < 2 ^ (32 * l) → x < n →
    modExpAlg l (contextOf (32 * l) n) x e = x ^ e % n

/-- 40_control R114: the size of the Barrett constant; it has `k + 2` bits exactly for a power of two. -/
def Obligations.BarrettConstantBounds : Prop :=
  ∀ n k : Nat, 2 ≤ n → k = bitlen n →
    2 ^ (k - 1) ≤ n ∧ n < 2 ^ k ∧ 2 ^ k < 2 ^ (2 * k) / n ∧ 2 ^ (2 * k) / n ≤ 2 ^ (k + 1) ∧
    (bitlen (2 ^ (2 * k) / n) = k + 1 ∨ bitlen (2 ^ (2 * k) / n) = k + 2) ∧
    (bitlen (2 ^ (2 * k) / n) = k + 2 ↔ n = 2 ^ (k - 1)) ∧
    (n = 2 ^ (k - 1) → 2 ^ (2 * k) / n = 2 ^ (k + 1)) ∧
    (∀ l, k ≤ 32 * l → 2 ^ (2 * k) / n < 2 ^ (32 * (l + 1)))

/-- 40_control R113: `NINV0` of an odd modulus is the unique 32-bit value with `(N·NINV0 + 1) mod 2^32 = 0`, and depends only on
`N mod 2^32`. -/
def Obligations.MontgomeryConstantIsUnique : Prop :=
  ∀ n : Nat, n % 2 = 1 →
    (n * (montConst n).toNat + 1) % 2 ^ 32 = 0 ∧
    (∀ v : Word, (n * v.toNat + 1) % 2 ^ 32 = 0 → v = montConst n) ∧
    (∀ m : Nat, m % 2 ^ 32 = n % 2 ^ 32 → montConst m = montConst n)
end

