-- ==== Sys2Proof/Laws/State.lean ====
section
/-! SUPPORT. One lemma per field of `State` and per named update of Sys2Proof/Machine/Ops.lean, so that no later proof unfolds
a record update. -/

namespace Sys2Proof.Machine

variable (s : State)

/-! ### `State.setLimbs` -/

@[simp] theorem State.setLimbs_params (r : Reg) (x : Limbs) : (s.setLimbs r x).params = s.params := rfl
@[simp] theorem State.setLimbs_regs (r : Reg) (x : Limbs) : (s.setLimbs r x).regs = s.regs.set r x := rfl
@[simp] theorem State.setLimbs_ctx (r : Reg) (x : Limbs) : (s.setLimbs r x).ctx = s.ctx := rfl
@[simp] theorem State.setLimbs_phase (r : Reg) (x : Limbs) : (s.setLimbs r x).phase = s.phase := rfl
@[simp] theorem State.setLimbs_inflight (r : Reg) (x : Limbs) : (s.setLimbs r x).inflight = s.inflight := rfl
@[simp] theorem State.setLimbs_cmd (r : Reg) (x : Limbs) : (s.setLimbs r x).cmd = s.cmd := rfl
@[simp] theorem State.setLimbs_ie (r : Reg) (x : Limbs) : (s.setLimbs r x).ie = s.ie := rfl
@[simp] theorem State.setLimbs_done (r : Reg) (x : Limbs) : (s.setLimbs r x).done = s.done := rfl
@[simp] theorem State.setLimbs_err (r : Reg) (x : Limbs) : (s.setLimbs r x).err = s.err := rfl
@[simp] theorem State.setLimbs_aerr (r : Reg) (x : Limbs) : (s.setLimbs r x).aerr = s.aerr := rfl
@[simp] theorem State.setLimbs_errcode (r : Reg) (x : Limbs) : (s.setLimbs r x).errcode = s.errcode := rfl
@[simp] theorem State.setLimbs_rst (r : Reg) (x : Limbs) : (s.setLimbs r x).rst = s.rst := rfl
@[simp] theorem State.setLimbs_pending (r : Reg) (x : Limbs) : (s.setLimbs r x).pending = s.pending := rfl
@[simp] theorem State.setLimbs_resp (r : Reg) (x : Limbs) : (s.setLimbs r x).resp = s.resp := rfl
@[simp] theorem State.setLimbs_draws (r : Reg) (x : Limbs) : (s.setLimbs r x).draws = s.draws := rfl

/-! ### `State.writeReg` -/

@[simp] theorem State.writeReg_params (r : Reg) (v : Nat) : (s.writeReg r v).params = s.params := rfl
@[simp] theorem State.writeReg_regs (r : Reg) (v : Nat) : (s.writeReg r v).regs = s.regs.set r (toLimbs s.params.limbs v) := rfl
@[simp] theorem State.writeReg_ctx (r : Reg) (v : Nat) : (s.writeReg r v).ctx = s.ctx := rfl
@[simp] theorem State.writeReg_phase (r : Reg) (v : Nat) : (s.writeReg r v).phase = s.phase := rfl
@[simp] theorem State.writeReg_inflight (r : Reg) (v : Nat) : (s.writeReg r v).inflight = s.inflight := rfl
@[simp] theorem State.writeReg_cmd (r : Reg) (v : Nat) : (s.writeReg r v).cmd = s.cmd := rfl
@[simp] theorem State.writeReg_ie (r : Reg) (v : Nat) : (s.writeReg r v).ie = s.ie := rfl
@[simp] theorem State.writeReg_done (r : Reg) (v : Nat) : (s.writeReg r v).done = s.done := rfl
@[simp] theorem State.writeReg_err (r : Reg) (v : Nat) : (s.writeReg r v).err = s.err := rfl
@[simp] theorem State.writeReg_aerr (r : Reg) (v : Nat) : (s.writeReg r v).aerr = s.aerr := rfl
@[simp] theorem State.writeReg_errcode (r : Reg) (v : Nat) : (s.writeReg r v).errcode = s.errcode := rfl
@[simp] theorem State.writeReg_rst (r : Reg) (v : Nat) : (s.writeReg r v).rst = s.rst := rfl
@[simp] theorem State.writeReg_pending (r : Reg) (v : Nat) : (s.writeReg r v).pending = s.pending := rfl
@[simp] theorem State.writeReg_resp (r : Reg) (v : Nat) : (s.writeReg r v).resp = s.resp := rfl
@[simp] theorem State.writeReg_draws (r : Reg) (v : Nat) : (s.writeReg r v).draws = s.draws := rfl

/-! ### `State.writeLimb` -/

@[simp] theorem State.writeLimb_params (r : Reg) (j : Nat) (v : Word) : (s.writeLimb r j v).params = s.params := rfl
@[simp] theorem State.writeLimb_regs (r : Reg) (j : Nat) (v : Word) : (s.writeLimb r j v).regs = s.regs.set r ((s.regs.get r).set j v) := rfl
@[simp] theorem State.writeLimb_ctx (r : Reg) (j : Nat) (v : Word) : (s.writeLimb r j v).ctx = s.ctx := rfl
@[simp] theorem State.writeLimb_phase (r : Reg) (j : Nat) (v : Word) : (s.writeLimb r j v).phase = s.phase := rfl
@[simp] theorem State.writeLimb_inflight (r : Reg) (j : Nat) (v : Word) : (s.writeLimb r j v).inflight = s.inflight := rfl
@[simp] theorem State.writeLimb_cmd (r : Reg) (j : Nat) (v : Word) : (s.writeLimb r j v).cmd = s.cmd := rfl
@[simp] theorem State.writeLimb_ie (r : Reg) (j : Nat) (v : Word) : (s.writeLimb r j v).ie = s.ie := rfl
@[simp] theorem State.writeLimb_done (r : Reg) (j : Nat) (v : Word) : (s.writeLimb r j v).done = s.done := rfl
@[simp] theorem State.writeLimb_err (r : Reg) (j : Nat) (v : Word) : (s.writeLimb r j v).err = s.err := rfl
@[simp] theorem State.writeLimb_aerr (r : Reg) (j : Nat) (v : Word) : (s.writeLimb r j v).aerr = s.aerr := rfl
@[simp] theorem State.writeLimb_errcode (r : Reg) (j : Nat) (v : Word) : (s.writeLimb r j v).errcode = s.errcode := rfl
@[simp] theorem State.writeLimb_rst (r : Reg) (j : Nat) (v : Word) : (s.writeLimb r j v).rst = s.rst := rfl
@[simp] theorem State.writeLimb_pending (r : Reg) (j : Nat) (v : Word) : (s.writeLimb r j v).pending = s.pending := rfl
@[simp] theorem State.writeLimb_resp (r : Reg) (j : Nat) (v : Word) : (s.writeLimb r j v).resp = s.resp := rfl
@[simp] theorem State.writeLimb_draws (r : Reg) (j : Nat) (v : Word) : (s.writeLimb r j v).draws = s.draws := rfl

/-! ### `State.drawReg` -/

@[simp] theorem State.drawReg_params (r : Reg) : (s.drawReg r).params = s.params := rfl
@[simp] theorem State.drawReg_regs (r : Reg) : (s.drawReg r).regs = s.regs.set r (freeReg s.params.limbs s.draws) := rfl
@[simp] theorem State.drawReg_ctx (r : Reg) : (s.drawReg r).ctx = s.ctx := rfl
@[simp] theorem State.drawReg_phase (r : Reg) : (s.drawReg r).phase = s.phase := rfl
@[simp] theorem State.drawReg_inflight (r : Reg) : (s.drawReg r).inflight = s.inflight := rfl
@[simp] theorem State.drawReg_cmd (r : Reg) : (s.drawReg r).cmd = s.cmd := rfl
@[simp] theorem State.drawReg_ie (r : Reg) : (s.drawReg r).ie = s.ie := rfl
@[simp] theorem State.drawReg_done (r : Reg) : (s.drawReg r).done = s.done := rfl
@[simp] theorem State.drawReg_err (r : Reg) : (s.drawReg r).err = s.err := rfl
@[simp] theorem State.drawReg_aerr (r : Reg) : (s.drawReg r).aerr = s.aerr := rfl
@[simp] theorem State.drawReg_errcode (r : Reg) : (s.drawReg r).errcode = s.errcode := rfl
@[simp] theorem State.drawReg_rst (r : Reg) : (s.drawReg r).rst = s.rst := rfl
@[simp] theorem State.drawReg_pending (r : Reg) : (s.drawReg r).pending = s.pending := rfl
@[simp] theorem State.drawReg_resp (r : Reg) : (s.drawReg r).resp = s.resp := rfl
@[simp] theorem State.drawReg_draws (r : Reg) : (s.drawReg r).draws = s.draws + 1 := rfl

/-! ### `State.setCtx` -/

@[simp] theorem State.setCtx_params (c : Ctx) : (s.setCtx c).params = s.params := rfl
@[simp] theorem State.setCtx_regs (c : Ctx) : (s.setCtx c).regs = s.regs := rfl
@[simp] theorem State.setCtx_ctx (c : Ctx) : (s.setCtx c).ctx = c := rfl
@[simp] theorem State.setCtx_phase (c : Ctx) : (s.setCtx c).phase = s.phase := rfl
@[simp] theorem State.setCtx_inflight (c : Ctx) : (s.setCtx c).inflight = s.inflight := rfl
@[simp] theorem State.setCtx_cmd (c : Ctx) : (s.setCtx c).cmd = s.cmd := rfl
@[simp] theorem State.setCtx_ie (c : Ctx) : (s.setCtx c).ie = s.ie := rfl
@[simp] theorem State.setCtx_done (c : Ctx) : (s.setCtx c).done = s.done := rfl
@[simp] theorem State.setCtx_err (c : Ctx) : (s.setCtx c).err = s.err := rfl
@[simp] theorem State.setCtx_aerr (c : Ctx) : (s.setCtx c).aerr = s.aerr := rfl
@[simp] theorem State.setCtx_errcode (c : Ctx) : (s.setCtx c).errcode = s.errcode := rfl
@[simp] theorem State.setCtx_rst (c : Ctx) : (s.setCtx c).rst = s.rst := rfl
@[simp] theorem State.setCtx_pending (c : Ctx) : (s.setCtx c).pending = s.pending := rfl
@[simp] theorem State.setCtx_resp (c : Ctx) : (s.setCtx c).resp = s.resp := rfl
@[simp] theorem State.setCtx_draws (c : Ctx) : (s.setCtx c).draws = s.draws := rfl

/-! ### `State.finish` -/

@[simp] theorem State.finish_params : (s.finish).params = s.params := rfl
@[simp] theorem State.finish_regs : (s.finish).regs = s.regs := rfl
@[simp] theorem State.finish_ctx : (s.finish).ctx = s.ctx := rfl
@[simp] theorem State.finish_phase : (s.finish).phase = .idle := rfl
@[simp] theorem State.finish_inflight : (s.finish).inflight = s.inflight := rfl
@[simp] theorem State.finish_cmd : (s.finish).cmd = s.cmd := rfl
@[simp] theorem State.finish_ie : (s.finish).ie = s.ie := rfl
@[simp] theorem State.finish_done : (s.finish).done = true := rfl
@[simp] theorem State.finish_err : (s.finish).err = s.err := rfl
@[simp] theorem State.finish_aerr : (s.finish).aerr = s.aerr := rfl
@[simp] theorem State.finish_errcode : (s.finish).errcode = s.errcode := rfl
@[simp] theorem State.finish_rst : (s.finish).rst = s.rst := rfl
@[simp] theorem State.finish_pending : (s.finish).pending = s.pending := rfl
@[simp] theorem State.finish_resp : (s.finish).resp = s.resp := rfl
@[simp] theorem State.finish_draws : (s.finish).draws = s.draws := rfl

/-! ### `State.failWith` -/

@[simp] theorem State.failWith_params (code : ErrCode) : (s.failWith code).params = s.params := rfl
@[simp] theorem State.failWith_regs (code : ErrCode) : (s.failWith code).regs = s.regs := rfl
@[simp] theorem State.failWith_ctx (code : ErrCode) : (s.failWith code).ctx = s.ctx := rfl
@[simp] theorem State.failWith_phase (code : ErrCode) : (s.failWith code).phase = .idle := rfl
@[simp] theorem State.failWith_inflight (code : ErrCode) : (s.failWith code).inflight = s.inflight := rfl
@[simp] theorem State.failWith_cmd (code : ErrCode) : (s.failWith code).cmd = s.cmd := rfl
@[simp] theorem State.failWith_ie (code : ErrCode) : (s.failWith code).ie = s.ie := rfl
@[simp] theorem State.failWith_done (code : ErrCode) : (s.failWith code).done = s.done := rfl
@[simp] theorem State.failWith_err (code : ErrCode) : (s.failWith code).err = true := rfl
@[simp] theorem State.failWith_aerr (code : ErrCode) : (s.failWith code).aerr = s.aerr := rfl
@[simp] theorem State.failWith_errcode (code : ErrCode) : (s.failWith code).errcode = code := rfl
@[simp] theorem State.failWith_rst (code : ErrCode) : (s.failWith code).rst = s.rst := rfl
@[simp] theorem State.failWith_pending (code : ErrCode) : (s.failWith code).pending = s.pending := rfl
@[simp] theorem State.failWith_resp (code : ErrCode) : (s.failWith code).resp = s.resp := rfl
@[simp] theorem State.failWith_draws (code : ErrCode) : (s.failWith code).draws = s.draws := rfl

/-! ### `State.clearDone` -/

@[simp] theorem State.clearDone_params : (s.clearDone).params = s.params := rfl
@[simp] theorem State.clearDone_regs : (s.clearDone).regs = s.regs := rfl
@[simp] theorem State.clearDone_ctx : (s.clearDone).ctx = s.ctx := rfl
@[simp] theorem State.clearDone_phase : (s.clearDone).phase = s.phase := rfl
@[simp] theorem State.clearDone_inflight : (s.clearDone).inflight = s.inflight := rfl
@[simp] theorem State.clearDone_cmd : (s.clearDone).cmd = s.cmd := rfl
@[simp] theorem State.clearDone_ie : (s.clearDone).ie = s.ie := rfl
@[simp] theorem State.clearDone_done : (s.clearDone).done = false := rfl
@[simp] theorem State.clearDone_err : (s.clearDone).err = s.err := rfl
@[simp] theorem State.clearDone_aerr : (s.clearDone).aerr = s.aerr := rfl
@[simp] theorem State.clearDone_errcode : (s.clearDone).errcode = s.errcode := rfl
@[simp] theorem State.clearDone_rst : (s.clearDone).rst = s.rst := rfl
@[simp] theorem State.clearDone_pending : (s.clearDone).pending = s.pending := rfl
@[simp] theorem State.clearDone_resp : (s.clearDone).resp = s.resp := rfl
@[simp] theorem State.clearDone_draws : (s.clearDone).draws = s.draws := rfl

/-! ### `State.clearErr` -/

@[simp] theorem State.clearErr_params : (s.clearErr).params = s.params := rfl
@[simp] theorem State.clearErr_regs : (s.clearErr).regs = s.regs := rfl
@[simp] theorem State.clearErr_ctx : (s.clearErr).ctx = s.ctx := rfl
@[simp] theorem State.clearErr_phase : (s.clearErr).phase = s.phase := rfl
@[simp] theorem State.clearErr_inflight : (s.clearErr).inflight = s.inflight := rfl
@[simp] theorem State.clearErr_cmd : (s.clearErr).cmd = s.cmd := rfl
@[simp] theorem State.clearErr_ie : (s.clearErr).ie = s.ie := rfl
@[simp] theorem State.clearErr_done : (s.clearErr).done = s.done := rfl
@[simp] theorem State.clearErr_err : (s.clearErr).err = false := rfl
@[simp] theorem State.clearErr_aerr : (s.clearErr).aerr = s.aerr := rfl
@[simp] theorem State.clearErr_errcode : (s.clearErr).errcode = .noError := rfl
@[simp] theorem State.clearErr_rst : (s.clearErr).rst = s.rst := rfl
@[simp] theorem State.clearErr_pending : (s.clearErr).pending = s.pending := rfl
@[simp] theorem State.clearErr_resp : (s.clearErr).resp = s.resp := rfl
@[simp] theorem State.clearErr_draws : (s.clearErr).draws = s.draws := rfl

/-! ### `State.clearAerr` -/

@[simp] theorem State.clearAerr_params : (s.clearAerr).params = s.params := rfl
@[simp] theorem State.clearAerr_regs : (s.clearAerr).regs = s.regs := rfl
@[simp] theorem State.clearAerr_ctx : (s.clearAerr).ctx = s.ctx := rfl
@[simp] theorem State.clearAerr_phase : (s.clearAerr).phase = s.phase := rfl
@[simp] theorem State.clearAerr_inflight : (s.clearAerr).inflight = s.inflight := rfl
@[simp] theorem State.clearAerr_cmd : (s.clearAerr).cmd = s.cmd := rfl
@[simp] theorem State.clearAerr_ie : (s.clearAerr).ie = s.ie := rfl
@[simp] theorem State.clearAerr_done : (s.clearAerr).done = s.done := rfl
@[simp] theorem State.clearAerr_err : (s.clearAerr).err = s.err := rfl
@[simp] theorem State.clearAerr_aerr : (s.clearAerr).aerr = false := rfl
@[simp] theorem State.clearAerr_errcode : (s.clearAerr).errcode = s.errcode := rfl
@[simp] theorem State.clearAerr_rst : (s.clearAerr).rst = s.rst := rfl
@[simp] theorem State.clearAerr_pending : (s.clearAerr).pending = s.pending := rfl
@[simp] theorem State.clearAerr_resp : (s.clearAerr).resp = s.resp := rfl
@[simp] theorem State.clearAerr_draws : (s.clearAerr).draws = s.draws := rfl

/-! ### `State.accessError` -/

@[simp] theorem State.accessError_params : (s.accessError).params = s.params := rfl
@[simp] theorem State.accessError_regs : (s.accessError).regs = s.regs := rfl
@[simp] theorem State.accessError_ctx : (s.accessError).ctx = s.ctx := rfl
@[simp] theorem State.accessError_phase : (s.accessError).phase = s.phase := rfl
@[simp] theorem State.accessError_inflight : (s.accessError).inflight = s.inflight := rfl
@[simp] theorem State.accessError_cmd : (s.accessError).cmd = s.cmd := rfl
@[simp] theorem State.accessError_ie : (s.accessError).ie = s.ie := rfl
@[simp] theorem State.accessError_done : (s.accessError).done = s.done := rfl
@[simp] theorem State.accessError_err : (s.accessError).err = s.err := rfl
@[simp] theorem State.accessError_aerr : (s.accessError).aerr = true := rfl
@[simp] theorem State.accessError_errcode : (s.accessError).errcode = s.errcode := rfl
@[simp] theorem State.accessError_rst : (s.accessError).rst = s.rst := rfl
@[simp] theorem State.accessError_pending : (s.accessError).pending = s.pending := rfl
@[simp] theorem State.accessError_resp : (s.accessError).resp = s.resp := rfl
@[simp] theorem State.accessError_draws : (s.accessError).draws = s.draws := rfl

/-! ### `State.setIe` -/

@[simp] theorem State.setIe_params (b : Bool) : (s.setIe b).params = s.params := rfl
@[simp] theorem State.setIe_regs (b : Bool) : (s.setIe b).regs = s.regs := rfl
@[simp] theorem State.setIe_ctx (b : Bool) : (s.setIe b).ctx = s.ctx := rfl
@[simp] theorem State.setIe_phase (b : Bool) : (s.setIe b).phase = s.phase := rfl
@[simp] theorem State.setIe_inflight (b : Bool) : (s.setIe b).inflight = s.inflight := rfl
@[simp] theorem State.setIe_cmd (b : Bool) : (s.setIe b).cmd = s.cmd := rfl
@[simp] theorem State.setIe_ie (b : Bool) : (s.setIe b).ie = b := rfl
@[simp] theorem State.setIe_done (b : Bool) : (s.setIe b).done = s.done := rfl
@[simp] theorem State.setIe_err (b : Bool) : (s.setIe b).err = s.err := rfl
@[simp] theorem State.setIe_aerr (b : Bool) : (s.setIe b).aerr = s.aerr := rfl
@[simp] theorem State.setIe_errcode (b : Bool) : (s.setIe b).errcode = s.errcode := rfl
@[simp] theorem State.setIe_rst (b : Bool) : (s.setIe b).rst = s.rst := rfl
@[simp] theorem State.setIe_pending (b : Bool) : (s.setIe b).pending = s.pending := rfl
@[simp] theorem State.setIe_resp (b : Bool) : (s.setIe b).resp = s.resp := rfl
@[simp] theorem State.setIe_draws (b : Bool) : (s.setIe b).draws = s.draws := rfl

/-! ### `State.setCmd` -/

@[simp] theorem State.setCmd_params (v : Word) : (s.setCmd v).params = s.params := rfl
@[simp] theorem State.setCmd_regs (v : Word) : (s.setCmd v).regs = s.regs := rfl
@[simp] theorem State.setCmd_ctx (v : Word) : (s.setCmd v).ctx = s.ctx := rfl
@[simp] theorem State.setCmd_phase (v : Word) : (s.setCmd v).phase = s.phase := rfl
@[simp] theorem State.setCmd_inflight (v : Word) : (s.setCmd v).inflight = s.inflight := rfl
@[simp] theorem State.setCmd_cmd (v : Word) : (s.setCmd v).cmd = v := rfl
@[simp] theorem State.setCmd_ie (v : Word) : (s.setCmd v).ie = s.ie := rfl
@[simp] theorem State.setCmd_done (v : Word) : (s.setCmd v).done = s.done := rfl
@[simp] theorem State.setCmd_err (v : Word) : (s.setCmd v).err = s.err := rfl
@[simp] theorem State.setCmd_aerr (v : Word) : (s.setCmd v).aerr = s.aerr := rfl
@[simp] theorem State.setCmd_errcode (v : Word) : (s.setCmd v).errcode = s.errcode := rfl
@[simp] theorem State.setCmd_rst (v : Word) : (s.setCmd v).rst = s.rst := rfl
@[simp] theorem State.setCmd_pending (v : Word) : (s.setCmd v).pending = s.pending := rfl
@[simp] theorem State.setCmd_resp (v : Word) : (s.setCmd v).resp = s.resp := rfl
@[simp] theorem State.setCmd_draws (v : Word) : (s.setCmd v).draws = s.draws := rfl

/-! ### `State.acceptStart` -/

@[simp] theorem State.acceptStart_params : (s.acceptStart).params = s.params := rfl
@[simp] theorem State.acceptStart_regs : (s.acceptStart).regs = s.regs := rfl
@[simp] theorem State.acceptStart_ctx : (s.acceptStart).ctx = s.ctx := rfl
@[simp] theorem State.acceptStart_phase : (s.acceptStart).phase = .busy := rfl
@[simp] theorem State.acceptStart_inflight : (s.acceptStart).inflight = s.cmd := rfl
@[simp] theorem State.acceptStart_cmd : (s.acceptStart).cmd = s.cmd := rfl
@[simp] theorem State.acceptStart_ie : (s.acceptStart).ie = s.ie := rfl
@[simp] theorem State.acceptStart_done : (s.acceptStart).done = false := rfl
@[simp] theorem State.acceptStart_err : (s.acceptStart).err = false := rfl
@[simp] theorem State.acceptStart_aerr : (s.acceptStart).aerr = s.aerr := rfl
@[simp] theorem State.acceptStart_errcode : (s.acceptStart).errcode = .noError := rfl
@[simp] theorem State.acceptStart_rst : (s.acceptStart).rst = s.rst := rfl
@[simp] theorem State.acceptStart_pending : (s.acceptStart).pending = s.pending := rfl
@[simp] theorem State.acceptStart_resp : (s.acceptStart).resp = s.resp := rfl
@[simp] theorem State.acceptStart_draws : (s.acceptStart).draws = s.draws := rfl

/-! ### `State.clearControl` -/

@[simp] theorem State.clearControl_params : (s.clearControl).params = s.params := rfl
@[simp] theorem State.clearControl_regs : (s.clearControl).regs = s.regs := rfl
@[simp] theorem State.clearControl_ctx : (s.clearControl).ctx = Ctx.cleared := rfl
@[simp] theorem State.clearControl_phase : (s.clearControl).phase = .idle := rfl
@[simp] theorem State.clearControl_inflight : (s.clearControl).inflight = 0 := rfl
@[simp] theorem State.clearControl_cmd : (s.clearControl).cmd = 0 := rfl
@[simp] theorem State.clearControl_ie : (s.clearControl).ie = false := rfl
@[simp] theorem State.clearControl_done : (s.clearControl).done = false := rfl
@[simp] theorem State.clearControl_err : (s.clearControl).err = false := rfl
@[simp] theorem State.clearControl_aerr : (s.clearControl).aerr = false := rfl
@[simp] theorem State.clearControl_errcode : (s.clearControl).errcode = .noError := rfl
@[simp] theorem State.clearControl_rst : (s.clearControl).rst = s.rst := rfl
@[simp] theorem State.clearControl_pending : (s.clearControl).pending = s.pending := rfl
@[simp] theorem State.clearControl_resp : (s.clearControl).resp = s.resp := rfl
@[simp] theorem State.clearControl_draws : (s.clearControl).draws = s.draws := rfl

/-! ### `State.powerOn` -/

@[simp] theorem State.powerOn_params : (s.powerOn).params = s.params := rfl
@[simp] theorem State.powerOn_regs : (s.powerOn).regs = freeRegs s.params.limbs s.draws := rfl
@[simp] theorem State.powerOn_ctx : (s.powerOn).ctx = Ctx.cleared := rfl
@[simp] theorem State.powerOn_phase : (s.powerOn).phase = .idle := rfl
@[simp] theorem State.powerOn_inflight : (s.powerOn).inflight = 0 := rfl
@[simp] theorem State.powerOn_cmd : (s.powerOn).cmd = 0 := rfl
@[simp] theorem State.powerOn_ie : (s.powerOn).ie = false := rfl
@[simp] theorem State.powerOn_done : (s.powerOn).done = false := rfl
@[simp] theorem State.powerOn_err : (s.powerOn).err = false := rfl
@[simp] theorem State.powerOn_aerr : (s.powerOn).aerr = false := rfl
@[simp] theorem State.powerOn_errcode : (s.powerOn).errcode = .noError := rfl
@[simp] theorem State.powerOn_rst : (s.powerOn).rst = s.rst := rfl
@[simp] theorem State.powerOn_pending : (s.powerOn).pending = s.pending := rfl
@[simp] theorem State.powerOn_resp : (s.powerOn).resp = s.resp := rfl
@[simp] theorem State.powerOn_draws : (s.powerOn).draws = s.draws + 8 := rfl

/-! ### `State.answer` -/

@[simp] theorem State.answer_params (a : Option Word) : (s.answer a).params = s.params := rfl
@[simp] theorem State.answer_regs (a : Option Word) : (s.answer a).regs = s.regs := rfl
@[simp] theorem State.answer_ctx (a : Option Word) : (s.answer a).ctx = s.ctx := rfl
@[simp] theorem State.answer_phase (a : Option Word) : (s.answer a).phase = s.phase := rfl
@[simp] theorem State.answer_inflight (a : Option Word) : (s.answer a).inflight = s.inflight := rfl
@[simp] theorem State.answer_cmd (a : Option Word) : (s.answer a).cmd = s.cmd := rfl
@[simp] theorem State.answer_ie (a : Option Word) : (s.answer a).ie = s.ie := rfl
@[simp] theorem State.answer_done (a : Option Word) : (s.answer a).done = s.done := rfl
@[simp] theorem State.answer_err (a : Option Word) : (s.answer a).err = s.err := rfl
@[simp] theorem State.answer_aerr (a : Option Word) : (s.answer a).aerr = s.aerr := rfl
@[simp] theorem State.answer_errcode (a : Option Word) : (s.answer a).errcode = s.errcode := rfl
@[simp] theorem State.answer_rst (a : Option Word) : (s.answer a).rst = s.rst := rfl
@[simp] theorem State.answer_pending (a : Option Word) : (s.answer a).pending = s.pending := rfl
@[simp] theorem State.answer_resp (a : Option Word) : (s.answer a).resp = a := rfl
@[simp] theorem State.answer_draws (a : Option Word) : (s.answer a).draws = s.draws := rfl

/-! ### `State.setPending` -/

@[simp] theorem State.setPending_params (es : List Event) : (s.setPending es).params = s.params := rfl
@[simp] theorem State.setPending_regs (es : List Event) : (s.setPending es).regs = s.regs := rfl
@[simp] theorem State.setPending_ctx (es : List Event) : (s.setPending es).ctx = s.ctx := rfl
@[simp] theorem State.setPending_phase (es : List Event) : (s.setPending es).phase = s.phase := rfl
@[simp] theorem State.setPending_inflight (es : List Event) : (s.setPending es).inflight = s.inflight := rfl
@[simp] theorem State.setPending_cmd (es : List Event) : (s.setPending es).cmd = s.cmd := rfl
@[simp] theorem State.setPending_ie (es : List Event) : (s.setPending es).ie = s.ie := rfl
@[simp] theorem State.setPending_done (es : List Event) : (s.setPending es).done = s.done := rfl
@[simp] theorem State.setPending_err (es : List Event) : (s.setPending es).err = s.err := rfl
@[simp] theorem State.setPending_aerr (es : List Event) : (s.setPending es).aerr = s.aerr := rfl
@[simp] theorem State.setPending_errcode (es : List Event) : (s.setPending es).errcode = s.errcode := rfl
@[simp] theorem State.setPending_rst (es : List Event) : (s.setPending es).rst = s.rst := rfl
@[simp] theorem State.setPending_pending (es : List Event) : (s.setPending es).pending = es := rfl
@[simp] theorem State.setPending_resp (es : List Event) : (s.setPending es).resp = s.resp := rfl
@[simp] theorem State.setPending_draws (es : List Event) : (s.setPending es).draws = s.draws := rfl

/-! ### `State.setRst` -/

@[simp] theorem State.setRst_params (b : Bool) : (s.setRst b).params = s.params := rfl
@[simp] theorem State.setRst_regs (b : Bool) : (s.setRst b).regs = s.regs := rfl
@[simp] theorem State.setRst_ctx (b : Bool) : (s.setRst b).ctx = s.ctx := rfl
@[simp] theorem State.setRst_phase (b : Bool) : (s.setRst b).phase = s.phase := rfl
@[simp] theorem State.setRst_inflight (b : Bool) : (s.setRst b).inflight = s.inflight := rfl
@[simp] theorem State.setRst_cmd (b : Bool) : (s.setRst b).cmd = s.cmd := rfl
@[simp] theorem State.setRst_ie (b : Bool) : (s.setRst b).ie = s.ie := rfl
@[simp] theorem State.setRst_done (b : Bool) : (s.setRst b).done = s.done := rfl
@[simp] theorem State.setRst_err (b : Bool) : (s.setRst b).err = s.err := rfl
@[simp] theorem State.setRst_aerr (b : Bool) : (s.setRst b).aerr = s.aerr := rfl
@[simp] theorem State.setRst_errcode (b : Bool) : (s.setRst b).errcode = s.errcode := rfl
@[simp] theorem State.setRst_rst (b : Bool) : (s.setRst b).rst = b := rfl
@[simp] theorem State.setRst_pending (b : Bool) : (s.setRst b).pending = s.pending := rfl
@[simp] theorem State.setRst_resp (b : Bool) : (s.setRst b).resp = s.resp := rfl
@[simp] theorem State.setRst_draws (b : Bool) : (s.setRst b).draws = s.draws := rfl

/-! ### `State.drawAnswer` -/

@[simp] theorem State.drawAnswer_params : (s.drawAnswer).params = s.params := rfl
@[simp] theorem State.drawAnswer_regs : (s.drawAnswer).regs = s.regs := rfl
@[simp] theorem State.drawAnswer_ctx : (s.drawAnswer).ctx = s.ctx := rfl
@[simp] theorem State.drawAnswer_phase : (s.drawAnswer).phase = s.phase := rfl
@[simp] theorem State.drawAnswer_inflight : (s.drawAnswer).inflight = s.inflight := rfl
@[simp] theorem State.drawAnswer_cmd : (s.drawAnswer).cmd = s.cmd := rfl
@[simp] theorem State.drawAnswer_ie : (s.drawAnswer).ie = s.ie := rfl
@[simp] theorem State.drawAnswer_done : (s.drawAnswer).done = s.done := rfl
@[simp] theorem State.drawAnswer_err : (s.drawAnswer).err = s.err := rfl
@[simp] theorem State.drawAnswer_aerr : (s.drawAnswer).aerr = s.aerr := rfl
@[simp] theorem State.drawAnswer_errcode : (s.drawAnswer).errcode = s.errcode := rfl
@[simp] theorem State.drawAnswer_rst : (s.drawAnswer).rst = s.rst := rfl
@[simp] theorem State.drawAnswer_pending : (s.drawAnswer).pending = s.pending := rfl
@[simp] theorem State.drawAnswer_resp : (s.drawAnswer).resp = some (Config.freeLimb s.draws 0) := rfl
@[simp] theorem State.drawAnswer_draws : (s.drawAnswer).draws = s.draws + 1 := rfl

end Sys2Proof.Machine
end

