-- ==== Sys2Proof/Laws/Ops.lean ====
section
/-! SUPPORT. What the named operations of Sys2Proof/Machine/Ops.lean do, once each: limbs and numbers, the register file, the
completion step, START, the resets. -/

namespace Sys2Proof.Machine

/-! ## Limbs and numbers -/

@[simp] theorem length_toLimbs (l v : Nat) : (toLimbs l v).length = l := by
  induction l generalizing v with
  | zero => rfl
  | succ l ih => simp [toLimbs, ih]

@[simp] theorem length_freeReg (l n : Nat) : (freeReg l n).length = l := by simp [freeReg]

theorem ofLimbs_lt (xs : Limbs) : ofLimbs xs < 2 ^ (32 * xs.length) := by
  induction xs with
  | nil => simp [ofLimbs]
  | cons x xs ih =>
    have hx := x.isLt
    have : 2 ^ (32 * (x :: xs).length) = 2 ^ 32 * 2 ^ (32 * xs.length) := by
      rw [← pow_add]; congr 1; simp [Nat.mul_add]; omega
    rw [this]
    simp only [ofLimbs]
    omega

theorem ofLimbs_toLimbs (l v : Nat) : ofLimbs (toLimbs l v) = v % 2 ^ (32 * l) := by
  induction l generalizing v with
  | zero => simp [toLimbs, ofLimbs, Nat.mod_one]
  | succ l ih =>
    have : 2 ^ (32 * (l + 1)) = 2 ^ 32 * 2 ^ (32 * l) := by rw [← pow_add]; congr 1; omega
    simp only [toLimbs, ofLimbs, ih, BitVec.toNat_ofNat]
    rw [this, Nat.mod_mul]

theorem toLimbs_ofLimbs (xs : Limbs) : toLimbs xs.length (ofLimbs xs) = xs := by
  induction xs with
  | nil => rfl
  | cons x xs ih =>
    have hx := x.isLt
    have h1 : (ofLimbs (x :: xs)) / 2 ^ 32 = ofLimbs xs := by
      simp only [ofLimbs]; omega
    have h2 : BitVec.ofNat 32 (ofLimbs (x :: xs)) = x := by
      apply BitVec.eq_of_toNat_eq
      simp only [ofLimbs, BitVec.toNat_ofNat]
      omega
    rw [List.length_cons, toLimbs, h1, h2, ih]

/-- Limb `j` of a list of limbs is limb `j` of the number it holds (10_state R43). -/
theorem limbOf_ofLimbs (xs : Limbs) (j : Nat) : limbOf (ofLimbs xs) j = xs.getD j 0 := by
  induction xs generalizing j with
  | nil => simp [limbOf, ofLimbs]
  | cons x xs ih =>
    have hx := x.isLt
    cases j with
    | zero =>
      apply BitVec.eq_of_toNat_eq
      simp only [limbOf, ofLimbs, BitVec.toNat_ofNat, List.getD_cons_zero, Nat.mul_zero, pow_zero, Nat.div_one]
      omega
    | succ j =>
      have h1 : 2 ^ (32 * (j + 1)) = 2 ^ 32 * 2 ^ (32 * j) := by rw [← pow_add]; congr 1; omega
      have h2 : ofLimbs (x :: xs) / 2 ^ 32 = ofLimbs xs := by
        simp only [ofLimbs]; omega
      rw [List.getD_cons_succ, ← ih j, limbOf, limbOf, h1, ← Nat.div_div_eq_div_mul, h2]

/-! ## The register file -/

theorem Regs.get_set (rf : Regs) (r d : Reg) (x : Limbs) : (rf.set d x).get r = if r = d then x else rf.get r := by
  cases r <;> cases d <;> rfl

@[simp] theorem Regs.get_set_self (rf : Regs) (d : Reg) (x : Limbs) : (rf.set d x).get d = x := by
  simp [Regs.get_set]

theorem Regs.get_set_ne (rf : Regs) {r d : Reg} (h : r ≠ d) (x : Limbs) : (rf.set d x).get r = rf.get r := by
  simp [Regs.get_set, h]

theorem Regs.ext_get {a b : Regs} (h : ∀ r, a.get r = b.get r) : a = b := by
  cases a; cases b
  simpa [Regs.get] using
    And.intro (h .v0) (And.intro (h .v1) (And.intro (h .v2) (And.intro (h .v3) (And.intro (h .v4) (And.intro (h .v5)
      (And.intro (h .v6) (h .v7)))))))

theorem get_freeRegs (l n : Nat) (r : Reg) : (freeRegs l n).get r = freeReg l (n + r.index) := by
  cases r <;> rfl

theorem State.value_writeReg_self (s : State) (r : Reg) (v : Nat) : (s.writeReg r v).value r = v % 2 ^ s.width := by
  simp [State.value, ofLimbs_toLimbs, State.width]

theorem State.value_writeReg_ne (s : State) {r d : Reg} (h : r ≠ d) (v : Nat) : (s.writeReg d v).value r = s.value r := by
  simp [State.value, Regs.get_set_ne _ h]

@[simp] theorem State.width_writeReg (s : State) (r : Reg) (v : Nat) : (s.writeReg r v).width = s.width := rfl

@[simp] theorem State.value_finish (s : State) (r : Reg) : s.finish.value r = s.value r := rfl

@[simp] theorem State.value_setCtx (s : State) (c : Ctx) (r : Reg) : (s.setCtx c).value r = s.value r := rfl

/-! ## Writing the results of a command -/

@[simp] theorem State.applyWrites_nil (s : State) : s.applyWrites [] = s := rfl

@[simp] theorem State.applyWrites_cons (s : State) (d : Reg) (v : Nat) (ws : List (Reg × Nat)) :
    s.applyWrites ((d, v) :: ws) = (s.writeReg d v).applyWrites ws := rfl

/-- The writes of a command change the operand registers and nothing else. -/
theorem State.applyWrites_eq (s : State) (ws : List (Reg × Nat)) :
    s.applyWrites ws = { s with regs := (s.applyWrites ws).regs } := by
  induction ws generalizing s with
  | nil => rfl
  | cons w ws ih =>
    obtain ⟨d, v⟩ := w
    rw [applyWrites_cons, ih (s.writeReg d v)]
    rfl

/-- A register no write names keeps its limbs. -/
theorem State.get_applyWrites_ne (s : State) (ws : List (Reg × Nat)) (r : Reg) (h : r ∉ ws.map Prod.fst) :
    (s.applyWrites ws).regs.get r = s.regs.get r := by
  induction ws generalizing s with
  | nil => rfl
  | cons w ws ih =>
    obtain ⟨d, v⟩ := w
    simp only [List.map_cons, List.mem_cons, not_or] at h
    rw [applyWrites_cons, ih _ h.2, writeReg_regs, Regs.get_set_ne _ h.1]

/-- Writes of a command keep every register at `L` limbs. -/
theorem State.length_applyWrites (s : State) (ws : List (Reg × Nat))
    (h : ∀ r, (s.regs.get r).length = s.params.limbs) (r : Reg) :
    ((s.applyWrites ws).regs.get r).length = s.params.limbs := by
  induction ws generalizing s with
  | nil => exact h r
  | cons w ws ih =>
    obtain ⟨d, v⟩ := w
    rw [applyWrites_cons]
    refine ih (s.writeReg d v) (fun q => ?_)
    rw [writeReg_regs, Regs.get_set]
    split
    · exact length_toLimbs ..
    · exact h q

/-- Everything the completion step does with a successful answer (10_state R45). -/
theorem State.complete_ok (s : State) (ws : List (Reg × Nat)) (c : Option Ctx) :
    s.complete (.ok ws c) =
      { s with regs := (s.applyWrites ws).regs, ctx := c.getD s.ctx, done := true, phase := .idle } := by
  cases c <;> simp only [complete] <;> rw [applyWrites_eq] <;> rfl

/-- Everything the completion step does with an error (10_state R45, 60_exceptions R170). -/
@[simp] theorem State.complete_err (s : State) (code : ErrCode) : s.complete (.err code) = s.failWith code := rfl

/-! ## Abandoned destinations -/

/-- Drawing registers changes the operand registers and the draw counter and nothing else. -/
theorem State.drawRegs_eq (s : State) (rs : List Reg) :
    s.drawRegs rs = { s with regs := (s.drawRegs rs).regs, draws := s.draws + rs.length } := by
  induction rs generalizing s with
  | nil => rfl
  | cons r rs ih =>
    have : s.drawRegs (r :: rs) = (s.drawReg r).drawRegs rs := rfl
    rw [this, ih (s.drawReg r)]
    simp [drawReg, Nat.add_assoc, Nat.add_comm 1]

/-- A register that is not drawn keeps its limbs; a drawn one holds a fresh free draw. -/
theorem State.get_drawRegs (s : State) (rs : List Reg) (r : Reg) :
    (r ∉ rs ∧ (s.drawRegs rs).regs.get r = s.regs.get r) ∨
    (r ∈ rs ∧ ∃ n, s.draws ≤ n ∧ n < s.draws + rs.length ∧ (s.drawRegs rs).regs.get r = freeReg s.params.limbs n) := by
  induction rs generalizing s with
  | nil => exact .inl ⟨by simp, rfl⟩
  | cons d rs ih =>
    have hd : s.drawRegs (d :: rs) = (s.drawReg d).drawRegs rs := rfl
    rw [hd]
    rcases ih (s.drawReg d) with ⟨hm, he⟩ | ⟨hm, n, h1, h2, h3⟩
    · by_cases hr : r = d
      · subst hr
        exact .inr ⟨by simp, s.draws, le_refl _, by simp, by simp [he]⟩
      · exact .inl ⟨by simp [hr, hm], by simp [he, Regs.get_set_ne _ hr]⟩
    · simp only [drawReg_draws, drawReg_params] at h1 h2 h3
      exact .inr ⟨by simp [hm], n, by omega, by simp; omega, h3⟩

/-! ## START -/

theorem State.start_idle {s : State} (h : s.phase = .idle) : s.start = s.acceptStart := by simp [start, h]

theorem State.start_busy {s : State} (h : s.phase = .busy) : s.start = s.accessError := by simp [start, h]

/-! ## Soft reset -/

theorem State.softReset_idle {s : State} (h : s.phase = .idle) : s.softReset = s.clearControl := by simp [softReset, h]

theorem State.softReset_busy {s : State} (h : s.phase = .busy) :
    s.softReset = (s.drawRegs (abandonedDests s.inflight)).clearControl := by simp [softReset, h]

end Sys2Proof.Machine
end

