-- ==== Sys2Proof/Laws/Window.lean ====
section
/-! SUPPORT. What a host access does, once: which parts of the state it can change, and how the window's offsets are decoded. -/

namespace Sys2Proof.Machine

/-! ## Status bits -/

@[simp] theorem State.busy_eq_true (s : State) : s.busy = true ↔ s.phase = .busy := by
  cases h : s.phase <;> simp [busy, h]

@[simp] theorem State.busy_eq_false (s : State) : s.busy = false ↔ s.phase = .idle := by
  cases h : s.phase <;> simp [busy, h]

/-! ## Writes to `STATUS` and `CTRL` -/

/-- Everything a `STATUS` write does (10_state R39). -/
theorem State.writeStatus_eq (s : State) (v : Word) :
    s.writeStatus v =
      { s with
        done := s.done && !v.getLsbD 1, err := s.err && !v.getLsbD 2, aerr := s.aerr && !v.getLsbD 3,
        errcode := if v.getLsbD 2 then .noError else s.errcode } := by
  unfold writeStatus
  generalize v.getLsbD 1 = b1, v.getLsbD 2 = b2, v.getLsbD 3 = b3
  cases s
  cases b1 <;> cases b2 <;> cases b3 <;> simp [clearDone, clearErr, clearAerr]

/-- A `CTRL` write with `SRST = 1` is a soft reset and nothing else (10_state R37). -/
theorem State.writeCtrl_srst {s : State} {v : Word} (h : v.getLsbD 1 = true) : s.writeCtrl v = s.softReset := by
  rw [writeCtrl, if_pos h]

/-- A `CTRL` write with `SRST = 0` sets `IE` and then applies START if bit 0 is 1 (10_state R37). -/
theorem State.writeCtrl_noSrst {s : State} {v : Word} (h : v.getLsbD 1 = false) :
    s.writeCtrl v = if v.getLsbD 0 then (s.setIe (v.getLsbD 2)).start else s.setIe (v.getLsbD 2) := by
  rw [writeCtrl, if_neg (by rw [h]; decide)]

/-! ## Reads -/

/-- A read changes nothing but `AERR`, and that only on an unmapped offset (20_memory R60). -/
theorem State.busRead_state (s : State) (slot : Slot) :
    (s.busRead slot).2 = if slot = .unmapped then s.accessError else s := by
  cases slot <;> simp [busRead]

/-! ## Address decode -/

theorem Params.offset_base (p : Params) {off : Nat} (h : off < 0x4000) : Params.offset p (p.base + off) = some off := by
  simp [Params.offset, windowSize, h]

/-- An access outside the window is not MMB's (20_memory R69). -/
theorem State.hostAccess_outside {s : State} {a : Access} (h : Params.offset s.params a.addr = none) : s.hostAccess a = s := by
  simp [hostAccess, h]

/-- An access that reaches the window. -/
theorem State.hostAccess_inside {s : State} {a : Access} {off : Nat} (h : Params.offset s.params a.addr = some off) :
    s.hostAccess a = if s.rst then s.accessInReset a else s.access a off := by
  simp [hostAccess, h]

/-! ## The offset map (20_memory R70) -/

@[simp] theorem slotOf_id (l : Nat) : slotOf l 0x000 = .id := rfl
@[simp] theorem slotOf_param (l : Nat) : slotOf l 0x004 = .param := rfl
@[simp] theorem slotOf_ctrl (l : Nat) : slotOf l 0x008 = .ctrl := rfl
@[simp] theorem slotOf_cmd (l : Nat) : slotOf l 0x00C = .cmd := rfl
@[simp] theorem slotOf_status (l : Nat) : slotOf l 0x010 = .status := rfl
@[simp] theorem slotOf_ctxK (l : Nat) : slotOf l 0x3C00 = .ctxK := rfl
@[simp] theorem slotOf_ctxNinv0 (l : Nat) : slotOf l 0x3C04 = .ctxNinv0 := rfl

@[simp] theorem regAt_index (r : Reg) : regAt r.index = r := by cases r <;> rfl

theorem slotOf_vreg {l : Nat} (r : Reg) {j : Nat} (hj : j < l) (hl : l ≤ 128) :
    slotOf l (0x1000 + 0x400 * r.index + 4 * j) = .vreg r j := by
  have hr : r.index < 8 := by cases r <;> decide
  have h1 : (0x1000 + 0x400 * r.index + 4 * j - 0x1000) % 0x400 / 4 = j := by omega
  have h2 : (0x1000 + 0x400 * r.index + 4 * j - 0x1000) / 0x400 = r.index := by omega
  have h3 : ¬ 0x1000 + 0x400 * r.index + 4 * j < 0x1000 := by omega
  have h4 : 0x1000 + 0x400 * r.index + 4 * j < 0x3000 := by omega
  simp only [slotOf, h1, h2, h3, h4, hj, if_true, if_false, regAt_index]

theorem slotOf_ctxN {l j : Nat} (hj : j < l) (hl : l ≤ 128) : slotOf l (0x3000 + 4 * j) = .ctxN j := by
  have h1 : (0x3000 + 4 * j - 0x3000) / 4 = j := by omega
  have h2 : ¬ 0x3000 + 4 * j < 0x1000 := by omega
  have h3 : ¬ 0x3000 + 4 * j < 0x3000 := by omega
  have h4 : 0x3000 + 4 * j < 0x3400 := by omega
  simp only [slotOf, h1, h2, h3, h4, hj, if_true, if_false]

theorem slotOf_ctxRr {l j : Nat} (hj : j < l) (hl : l ≤ 128) : slotOf l (0x3400 + 4 * j) = .ctxRr j := by
  have h1 : (0x3400 + 4 * j - 0x3400) / 4 = j := by omega
  have h2 : ¬ 0x3400 + 4 * j < 0x1000 := by omega
  have h3 : ¬ 0x3400 + 4 * j < 0x3000 := by omega
  have h4 : ¬ 0x3400 + 4 * j < 0x3400 := by omega
  have h5 : 0x3400 + 4 * j < 0x3800 := by omega
  simp only [slotOf, h1, h2, h3, h4, h5, hj, if_true, if_false]

theorem slotOf_ctxMu {l j : Nat} (hj : j < l + 1) (hl : l ≤ 128) : slotOf l (0x3800 + 4 * j) = .ctxMu j := by
  have h1 : (0x3800 + 4 * j - 0x3800) / 4 = j := by omega
  have h2 : ¬ 0x3800 + 4 * j < 0x1000 := by omega
  have h3 : ¬ 0x3800 + 4 * j < 0x3000 := by omega
  have h4 : ¬ 0x3800 + 4 * j < 0x3400 := by omega
  have h5 : ¬ 0x3800 + 4 * j < 0x3800 := by omega
  have h6 : 0x3800 + 4 * j < 0x3C00 := by omega
  simp only [slotOf, h1, h2, h3, h4, h5, h6, hj, if_true, if_false]

/-! ## What an access cannot change -/

/-- No access changes the configuration, the queue or the reset input. -/
theorem State.access_frame (s : State) (a : Access) (off : Nat) :
    (s.access a off).params = s.params ∧ (s.access a off).pending = s.pending ∧ (s.access a off).rst = s.rst := by
  have hw : ∀ v slot, (s.busWrite slot v).params = s.params ∧ (s.busWrite slot v).pending = s.pending ∧
      (s.busWrite slot v).rst = s.rst := by
    intro v slot
    have hs : s.softReset.params = s.params ∧ s.softReset.pending = s.pending ∧ s.softReset.rst = s.rst := by
      cases h : s.phase
      · simp [softReset_idle h]
      · rw [softReset_busy h, drawRegs_eq]; simp
    have hst : ∀ b, ((s.setIe b).start).params = s.params ∧ ((s.setIe b).start).pending = s.pending ∧
        ((s.setIe b).start).rst = s.rst := by
      intro b
      cases h : (s.setIe b).phase
      · simp [start_idle h]
      · simp [start_busy h]
    cases slot <;> simp only [busWrite]
    case ctrl =>
      cases h1 : v.getLsbD 1
      · rw [writeCtrl_noSrst h1]
        split
        · exact hst _
        · simp
      · rw [writeCtrl_srst h1]; exact hs
    case status => rw [writeStatus_eq]; simp
    case cmd => split <;> simp
    case vreg => split <;> simp
    all_goals simp
  unfold access
  cases a.dir with
  | read =>
    simp only [busRead_state]
    split
    · split <;> simp
    · simp
  | write v =>
    simp only
    split
    · simpa using hw v _
    · simp

/-- No host access changes the configuration, the queue or the reset input. -/
theorem State.hostAccess_frame (s : State) (a : Access) :
    (s.hostAccess a).params = s.params ∧ (s.hostAccess a).pending = s.pending ∧ (s.hostAccess a).rst = s.rst := by
  cases h : Params.offset s.params a.addr with
  | none => simp [hostAccess_outside h]
  | some off =>
    rw [hostAccess_inside h]
    split
    · cases hd : a.dir <;> simp [accessInReset, hd]
    · exact access_frame s a off

end Sys2Proof.Machine
end

