-- ==== Sys2Proof/Laws/Access.lean ====
section
/-! SUPPORT. Everything one host access can do, in one lemma, and the offsets from which the offset map answers each slot. -/

namespace Sys2Proof.Machine

/-! ## The offset map, backwards (20_memory R70) -/

theorem index_regAt {n : Nat} (h : n < 8) : (regAt n).index = n := by
  revert n; decide

/-- What the offset map says of an offset whose slot is written by something other than an access error. -/
theorem slotOf_inv {l off : Nat} (h4 : off % 4 = 0) :
    (slotOf l off = .ctrl → off = 0x008) ∧ (slotOf l off = .cmd → off = 0x00C) ∧ (slotOf l off = .status → off = 0x010) ∧
    ∀ r j, slotOf l off = .vreg r j → j < l ∧ off = limbOffset r j := by
  have key : ∀ r j, off < 0x3000 → ¬ off < 0x1000 → (off - 0x1000) % 0x400 / 4 < l →
      Slot.vreg (regAt ((off - 0x1000) / 0x400)) ((off - 0x1000) % 0x400 / 4) = .vreg r j → j < l ∧ off = limbOffset r j := by
    intro r j h1 h2 h3 he
    simp only [Slot.vreg.injEq] at he
    obtain ⟨rfl, rfl⟩ := he
    refine ⟨h3, ?_⟩
    rw [limbOffset, index_regAt (by omega)]
    omega
  unfold slotOf
  split
  · (repeat' split) <;> simp [*]
  · split
    · split
      · exact ⟨by simp, by simp, by simp, fun r j he => key r j ‹_› ‹_› ‹_› he⟩
      · simp
    · (repeat' split) <;> simp

/-! ## One host access -/

/-- Everything a host access can do (20_memory R60 to R64, R69). -/
theorem State.hostAccess_cases (s : State) (a : Access) :
    (Params.offset s.params a.addr = none ∧ s.hostAccess a = s) ∨
    (s.rst = true ∧ (s.hostAccess a = s.drawAnswer ∨ s.hostAccess a = s.answer none)) ∨
    (s.rst = false ∧ ∃ r, s.hostAccess a = s.accessError.answer r) ∨
    (s.rst = false ∧ ∃ w, s.hostAccess a = s.answer (some w)) ∨
    (s.rst = false ∧ ∃ v, a = ⟨.write v, s.params.base + 0x008, 4, 0xF⟩ ∧ s.hostAccess a = (s.writeCtrl v).answer none) ∨
    (s.rst = false ∧ ∃ v, a = ⟨.write v, s.params.base + 0x010, 4, 0xF⟩ ∧ s.hostAccess a = (s.writeStatus v).answer none) ∨
    (s.rst = false ∧ s.phase = .idle ∧ ∃ v, a = ⟨.write v, s.params.base + 0x00C, 4, 0xF⟩ ∧
      s.hostAccess a = (s.setCmd v).answer none) ∨
    (s.rst = false ∧ s.phase = .idle ∧ ∃ r j v, j < s.params.limbs ∧
      a = ⟨.write v, s.params.base + limbOffset r j, 4, 0xF⟩ ∧ s.hostAccess a = (s.writeLimb r j v).answer none) := by
  cases ho : Params.offset s.params a.addr with
  | none => exact .inl ⟨rfl, hostAccess_outside ho⟩
  | some off =>
    refine .inr ?_
    have haddr : a.addr = s.params.base + off := by
      unfold Params.offset at ho
      split at ho
      · simp only [Option.some.injEq] at ho; omega
      · cases ho
    rw [hostAccess_inside ho]
    cases hr : s.rst with
    | true => cases hd : a.dir <;> simp [accessInReset, hd]
    | false =>
      refine .inr ?_
      simp only [Bool.false_eq_true, if_false, true_and]
      cases hf : a.defined off with
      | false => exact .inl (by cases hd : a.dir <;> simp [access, hd, hf])
      | true =>
        cases hd : a.dir with
        | read =>
          simp only [access, hd, hf, if_true, busRead_state]
          split
          · exact .inl ⟨_, rfl⟩
          · exact .inr (.inl ⟨_, rfl⟩)
        | write v =>
          simp only [Access.defined, Bool.and_eq_true, decide_eq_true_eq] at hf
          obtain ⟨⟨hb, h4⟩, hl⟩ := hf
          have ha : ∀ o, off = o → a = ⟨.write v, s.params.base + o, 4, 0xF⟩ := by
            rintro _ rfl
            cases a
            simp_all
          obtain ⟨h1, h2, h3, h5⟩ := slotOf_inv (l := s.params.limbs) h4
          have hdef : a.defined off = true := by simp [Access.defined, hb, h4, hl]
          simp only [access, hd, hdef, if_true]
          cases hs : slotOf s.params.limbs off <;> simp only [busWrite]
          case ctrl => exact .inr (.inr (.inl ⟨v, ha _ (h1 hs), rfl⟩))
          case status => exact .inr (.inr (.inr (.inl ⟨v, ha _ (h3 hs), rfl⟩)))
          case cmd =>
            cases hp : s.phase with
            | idle => exact .inr (.inr (.inr (.inr (.inl ⟨rfl, v, ha _ (h2 hs), by simp [busy, hp]⟩))))
            | busy => exact .inl ⟨none, by simp [busy, hp]⟩
          case vreg r j =>
            cases hp : s.phase with
            | idle =>
              obtain ⟨hj, he⟩ := h5 r j hs
              exact .inr (.inr (.inr (.inr (.inr ⟨rfl, r, j, v, hj, ha _ he, by simp [busy, hp]⟩))))
            | busy => exact .inl ⟨none, by simp [busy, hp]⟩
          all_goals exact .inl ⟨none, rfl⟩

end Sys2Proof.Machine
end

