-- ==== Sys2Proof/Laws/Assembler.lean ====
section
/-! SUPPORT. Register names and their parser are inverse; what an assembler line of register names gives (30_encoding R99, R100). -/

namespace Sys2Proof.Machine

@[simp] theorem parseReg_regName (r : Reg) : parseReg (regName r) = some r := by cases r <;> rfl

/-- A spelling that is read as a register is that register's name: there are no aliases. -/
theorem regName_of_parseReg {w : List Char} {r : Reg} (h : parseReg w = some r) : w = regName r := by
  unfold parseReg at h
  split at h <;> cases h <;> rfl

/-- The operands of a line of register names are those registers. -/
@[simp] theorem mapM_parseReg_regName (rs : List Reg) : (rs.map regName).mapM parseReg = some rs := by
  induction rs with
  | nil => rfl
  | cons r rs ih => simp [ih]

/-- A line of register names assembles to the word of its mnemonic's command, and to nothing where the mnemonic takes another number
of operands. -/
theorem assemble_names {m : List Char} {k : Mnemonic} (h : parseMnemonic m = some k) (rs : List Reg) :
    assemble m (rs.map regName) = (instrOf k rs).map encode := by
  rw [assemble, h, mapM_parseReg_regName]

end Sys2Proof.Machine
end

