-- ==== Sys2Proof/Laws/Decode.lean ====
section
/-! SUPPORT. The fields of a command word that was put together, and the register a field selects. -/

namespace Sys2Proof

/-- A concatenation as a number: the low part keeps its place, the high part is above it (00_scope R6). -/
theorem toNat_concat {n m : Nat} (x : BitVec n) (y : BitVec m) : (x ++ y).toNat = x.toNat * 2 ^ m + y.toNat := by
  rw [BitVec.toNat_append, ← Nat.shiftLeft_add_eq_or_of_lt y.isLt, Nat.shiftLeft_eq]

section fields
variable (rsv re rc rb ra rd : BitVec 4) (opc : BitVec 8)

/-- The command word as a number, each field at the place of 30_encoding R90. -/
theorem mkWord_toNat : (mkWord rsv re rc rb ra rd opc).toNat =
    rsv.toNat * 2 ^ 28 + re.toNat * 2 ^ 24 + rc.toNat * 2 ^ 20 + rb.toNat * 2 ^ 16 + ra.toNat * 2 ^ 12 +
      rd.toNat * 2 ^ 8 + opc.toNat := by
  have h : (mkWord rsv re rc rb ra rd opc).toNat = (rsv ++ re ++ rc ++ rb ++ ra ++ rd ++ opc).toNat := rfl
  simp only [h, toNat_concat]
  ring

theorem field_toNat (w : Word) (lo len : Nat) : (w.extractLsb' lo len).toNat = w.toNat / 2 ^ lo % 2 ^ len := by
  rw [BitVec.extractLsb'_toNat, Nat.shiftRight_eq_div_pow]

@[simp] theorem opcOf_mkWord : opcOf (mkWord rsv re rc rb ra rd opc) = opc := by
  apply BitVec.eq_of_toNat_eq; rw [opcOf, field_toNat, mkWord_toNat]; omega

@[simp] theorem rdOf_mkWord : rdOf (mkWord rsv re rc rb ra rd opc) = rd := by
  apply BitVec.eq_of_toNat_eq; rw [rdOf, field_toNat, mkWord_toNat]; omega

@[simp] theorem raOf_mkWord : raOf (mkWord rsv re rc rb ra rd opc) = ra := by
  apply BitVec.eq_of_toNat_eq; rw [raOf, field_toNat, mkWord_toNat]; omega

@[simp] theorem rbOf_mkWord : rbOf (mkWord rsv re rc rb ra rd opc) = rb := by
  apply BitVec.eq_of_toNat_eq; rw [rbOf, field_toNat, mkWord_toNat]; omega

@[simp] theorem rcOf_mkWord : rcOf (mkWord rsv re rc rb ra rd opc) = rc := by
  apply BitVec.eq_of_toNat_eq; rw [rcOf, field_toNat, mkWord_toNat]; omega

@[simp] theorem reOf_mkWord : reOf (mkWord rsv re rc rb ra rd opc) = re := by
  apply BitVec.eq_of_toNat_eq; rw [reOf, field_toNat, mkWord_toNat]; omega

@[simp] theorem rsvOf_mkWord : rsvOf (mkWord rsv re rc rb ra rd opc) = rsv := by
  apply BitVec.eq_of_toNat_eq; rw [rsvOf, field_toNat, mkWord_toNat]; omega

end fields

/-- The fields of a word put together again are the word (30_encoding R90: the fields are all 32 bits). -/
theorem mkWord_fields (w : Word) : mkWord (rsvOf w) (reOf w) (rcOf w) (rbOf w) (raOf w) (rdOf w) (opcOf w) = w := by
  apply BitVec.eq_of_toNat_eq
  have := w.isLt
  rw [mkWord_toNat]
  simp only [opcOf, rdOf, raOf, rbOf, rcOf, reOf, rsvOf, field_toNat]
  omega

@[simp] theorem regOf_fieldOf (r : Reg) : regOf (fieldOf r) = r := by cases r <;> rfl

@[simp] theorem fieldOf_toNat (r : Reg) : (fieldOf r).toNat = r.index := by cases r <;> rfl

theorem Reg.index_lt (r : Reg) : r.index < 8 := by cases r <;> decide

/-- A field below 8 is the field of the register it selects (30_encoding R93). -/
theorem fieldOf_regOf (f : BitVec 4) (h : f.toNat < 8) : fieldOf (regOf f) = f := by
  revert f; decide

/-- Two registers with the same index are the same. -/
theorem Reg.index_inj {r q : Reg} (h : r.index = q.index) : r = q := by
  cases r <;> cases q <;> first | rfl | cases h

end Sys2Proof
end

