-- ==== Sys2Proof/Laws/Numbers.lean ====
section
/-! SUPPORT. What the functions of Sys2Proof/Machine/Numbers.lean compute: `bitlen`, the recursion of the solver, and
square-and-multiply. -/

namespace Sys2Proof.Machine

/-! ## `bitlen` (00_scope R7) -/

@[simp] theorem bitlen_zero : bitlen 0 = 0 := rfl

theorem lt_pow_bitlen (v : Nat) : v < 2 ^ bitlen v := by
  unfold bitlen
  split
  · subst v; simp
  · exact Nat.lt_log2_self

theorem pow_bitlen_le {v : Nat} (h : v ≠ 0) : 2 ^ (bitlen v - 1) ≤ v := by
  simpa [bitlen, h] using Nat.log2_self_le h

/-- `bitlen(v)` is the least `k` with `v < 2^k`. -/
theorem bitlen_le_iff (v k : Nat) : bitlen v ≤ k ↔ v < 2 ^ k := by
  constructor
  · intro h
    exact lt_of_lt_of_le (lt_pow_bitlen v) (Nat.pow_le_pow_right (by norm_num) h)
  · intro h
    by_cases hv : v = 0
    · subst hv; simp
    · by_contra hk
      have h1 := pow_bitlen_le hv
      have h2 : 2 ^ k ≤ 2 ^ (bitlen v - 1) := Nat.pow_le_pow_right (by norm_num) (by omega)
      omega

/-! ## The solver (42_euclid R141) -/

/-- The bound on the recursion depth does not matter once it is at least the first argument. -/
theorem solveFuel_eq (fuel : Nat) : ∀ a b, a ≤ fuel → solveFuel fuel a b = solveFuel a a b := by
  induction fuel using Nat.strong_induction_on with
  | _ fuel ih =>
    intro a b h
    rcases Nat.eq_or_lt_of_le h with rfl | hlt
    · rfl
    · match fuel, a, hlt with
      | fuel + 1, 0, _ => simp [solveFuel]
      | fuel + 1, a + 1, hlt =>
        have hr : b % (a + 1) ≤ a := Nat.lt_succ_iff.mp (Nat.mod_lt b (Nat.succ_pos a))
        simp only [solveFuel, Nat.succ_ne_zero, if_false]
        rw [ih fuel (Nat.lt_succ_self _) _ _ (by omega), ih a (by omega) _ _ hr]

/-- The solver's base case. -/
@[simp] theorem solve_zero (b : Nat) : solve 0 b = ⟨b, 0, 1⟩ := rfl

/-- The solver's recursion. -/
theorem solve_pos {a : Nat} (b : Nat) (h : a ≠ 0) : solve a b = (solve (b % a) a).unwind (b / a) := by
  match a, h with
  | a + 1, _ =>
    have hr : b % (a + 1) ≤ a := Nat.lt_succ_iff.mp (Nat.mod_lt b (Nat.succ_pos a))
    unfold solve
    rw [show solveFuel (a + 1) (a + 1) b = (solveFuel a (b % (a + 1)) (a + 1)).unwind (b / (a + 1)) by simp [solveFuel]]
    rw [solveFuel_eq a _ _ hr]

/-! ## Square-and-multiply (43_modexp R151) -/

/-- One step of the exponent: the bits down to bit `i` are the bits down to bit `i + 1`, doubled, and bit `i`. -/
theorem shift_succ (e i : Nat) : e / 2 ^ i = 2 * (e / 2 ^ (i + 1)) + (if e.testBit i then 1 else 0) := by
  have h : e / 2 ^ (i + 1) = e / 2 ^ i / 2 := by rw [pow_succ, Nat.div_div_eq_div_mul]
  have ht : e.testBit i = decide (e / 2 ^ i % 2 = 1) := Nat.testBit_eq_decide_div_mod_eq
  rw [h, ht]
  by_cases hb : e / 2 ^ i % 2 = 1 <;> simp [hb] <;> omega

/-- The loop turns the power of the exponent bits above `i` into the power of the whole exponent. -/
theorem powModLoop_eq (x e n i : Nat) : powModLoop x e n i (x ^ (e / 2 ^ i) % n) = x ^ e % n := by
  induction i with
  | zero => simp [powModLoop]
  | succ i ih =>
    rw [powModLoop, ← ih]
    congr 1
    rw [shift_succ e i]
    generalize e / 2 ^ (i + 1) = q
    have hsq : x ^ q % n * (x ^ q % n) % n = x ^ (2 * q) % n := by
      rw [← Nat.mul_mod, two_mul, pow_add]
    by_cases hb : e.testBit i = true
    · simp only [hb, if_true]
      rw [hsq, pow_succ, Nat.mod_mul_mod]
    · simp only [hb, Bool.false_eq_true, if_false, Nat.add_zero]
      exact hsq

/-- Square-and-multiply computes the power (43_modexp R150). -/
theorem powMod_eq (x e n : Nat) : powMod x e n = x ^ e % n := by
  have h : e / 2 ^ bitlen e = 0 := Nat.div_eq_of_lt (lt_pow_bitlen e)
  have := powModLoop_eq x e n (bitlen e)
  rwa [h, pow_zero] at this

/-! ## Two's complement (00_scope R8) -/

theorem twos_lt (n : Nat) (z : Int) : twos n z < 2 ^ n := by
  have h1 : (0 : Int) < 2 ^ n := by positivity
  have h2 := Int.emod_lt_of_pos z h1
  have h3 := Int.emod_nonneg z (ne_of_gt h1)
  have : ((twos n z : Nat) : Int) < ((2 ^ n : Nat) : Int) := by
    rw [twos, Int.toNat_of_nonneg h3]; push_cast; exact h2
  exact_mod_cast this

end Sys2Proof.Machine
end

