-- ==== Sys2Proof/Laws/PerInstr.lean ====
section
/-! SUPPORT. Statements about every instruction as syntax, one lemma per constructor (LAWS.json). -/

namespace Sys2Proof.Laws.EncodedFields

/-- The fields of the encoder's word of `i` (30_encoding R90, R91, R99): its opcode is the instruction's and a defined one, `RSV`
is 0, every register field the opcode uses is below 8, and every other is 0. -/
def Statement (i : Instr) : Prop :=
  opcOf (encode i) = opcodeOf i ∧ (opcodeOf i).toNat ≤ 0x0B ∧ rsvOf (encode i) = 0 ∧
  ∀ f ∈ fieldsOf (encode i), if f.1 = true then f.2.toNat < 8 else f.2 = 0

theorem nop : Statement .nop := by
  simp [Statement, encode, opcodeOf, fieldsOf, usesRd, usesRa, usesRb, usesRc, usesRe]

theorem setmod (a : Reg) : Statement (.setmod a) := by
  simp [Statement, encode, opcodeOf, fieldsOf, usesRd, usesRa, usesRb, usesRc, usesRe, Reg.index_lt]

theorem montmul (d a b : Reg) : Statement (.montmul d a b) := by
  simp [Statement, encode, opcodeOf, fieldsOf, usesRd, usesRa, usesRb, usesRc, usesRe, Reg.index_lt]

theorem tomont (d a : Reg) : Statement (.tomont d a) := by
  simp [Statement, encode, opcodeOf, fieldsOf, usesRd, usesRa, usesRb, usesRc, usesRe, Reg.index_lt]

theorem frommont (d a : Reg) : Statement (.frommont d a) := by
  simp [Statement, encode, opcodeOf, fieldsOf, usesRd, usesRa, usesRb, usesRc, usesRe, Reg.index_lt]

theorem modmul (d a b : Reg) : Statement (.modmul d a b) := by
  simp [Statement, encode, opcodeOf, fieldsOf, usesRd, usesRa, usesRb, usesRc, usesRe, Reg.index_lt]

theorem bred (d hi lo : Reg) : Statement (.bred d hi lo) := by
  simp [Statement, encode, opcodeOf, fieldsOf, usesRd, usesRa, usesRb, usesRc, usesRe, Reg.index_lt]

theorem mulw (lo hi a b : Reg) : Statement (.mulw lo hi a b) := by
  simp [Statement, encode, opcodeOf, fieldsOf, usesRd, usesRa, usesRb, usesRc, usesRe, Reg.index_lt]

theorem modexp (d a b : Reg) : Statement (.modexp d a b) := by
  simp [Statement, encode, opcodeOf, fieldsOf, usesRd, usesRa, usesRb, usesRc, usesRe, Reg.index_lt]

theorem egcd (g x y a b : Reg) : Statement (.egcd g x y a b) := by
  simp [Statement, encode, opcodeOf, fieldsOf, usesRd, usesRa, usesRb, usesRc, usesRe, Reg.index_lt]

theorem modinv (d a m : Reg) : Statement (.modinv d a m) := by
  simp [Statement, encode, opcodeOf, fieldsOf, usesRd, usesRa, usesRb, usesRc, usesRe, Reg.index_lt]

theorem mov (d a : Reg) : Statement (.mov d a) := by
  simp [Statement, encode, opcodeOf, fieldsOf, usesRd, usesRa, usesRb, usesRc, usesRe, Reg.index_lt]

end Sys2Proof.Laws.EncodedFields
end

