-- ==== Sys2Proof/Laws/Step.lean ====
section
/-! SUPPORT. What one step and one command can do, once each: later proofs cite these instead of unfolding the machine. -/

namespace Sys2Proof.Machine

/-! ## The shared checks (60_exceptions R172) -/

theorem needCtx_eq (c : Ctx) (k : CmdResult) : needCtx c k = if c.valid = true then k else .err .noctx := rfl

theorem needOdd_eq (c : Ctx) (k : CmdResult) : needOdd c k = if c.odd = true then k else .err .evenmod := rfl

theorem needResidues_one (c : Ctx) (x : Nat) (k : CmdResult) :
    needResidues c [x] k = if c.n ≤ x then .err .range else k := by simp [needResidues]

theorem needResidues_two (c : Ctx) (x y : Nat) (k : CmdResult) :
    needResidues c [x, y] k = if c.n ≤ x ∨ c.n ≤ y then .err .range else k := by simp [needResidues]

/-! ## One command -/

/-- What a successful command with the destinations `ds` may write, and that a failing one has a code: the shape every
command's answer has. -/
def Answers (i : Instr) (s : State) (r : CmdResult) : Prop :=
  (∃ ws, r = .ok ws none ∧ ws.map Prod.fst = i.dests ∧ ∀ a, i ≠ .setmod a) ∨
  (∃ a, i = .setmod a ∧ 2 ≤ s.value a ∧ r = .ok [] (some (contextOf s.width (s.value a)))) ∨
  (∃ code, r = .err code ∧ code ≠ .noError)

theorem Answers.err {i : Instr} {s : State} (code : ErrCode) (h : code ≠ .noError) : Answers i s (.err code) :=
  .inr (.inr ⟨code, rfl, h⟩)

theorem Answers.writes {i : Instr} {s : State} {ws : List (Reg × Nat)} (h : ws.map Prod.fst = i.dests)
    (hi : ∀ a, i ≠ .setmod a) : Answers i s (.ok ws none) := .inl ⟨ws, rfl, h, hi⟩

theorem Answers.needCtx {i : Instr} {s : State} {c : Ctx} {k : CmdResult} (h : Answers i s k) :
    Answers i s (needCtx c k) := by
  rw [needCtx_eq]; split
  · exact h
  · exact .err _ (by decide)

theorem Answers.needOdd {i : Instr} {s : State} {c : Ctx} {k : CmdResult} (h : Answers i s k) :
    Answers i s (needOdd c k) := by
  rw [needOdd_eq]; split
  · exact h
  · exact .err _ (by decide)

theorem Answers.needResidues {i : Instr} {s : State} {c : Ctx} {xs : List Nat} {k : CmdResult} (h : Answers i s k) :
    Answers i s (needResidues c xs k) := by
  unfold Machine.needResidues; split
  · exact .err _ (by decide)
  · exact h

/-- The answer of each command's `Exec` body (10_state R45). -/
def answerOf (i : Instr) (s : State) : CmdResult :=
  match i with
  | .nop => nopResult
  | .setmod a => setmodResult s.width s.value a
  | .montmul d a b => montmulResult s.width s.value s.ctx d a b
  | .tomont d a => tomontResult s.width s.value s.ctx d a
  | .frommont d a => frommontResult s.width s.value s.ctx d a
  | .modmul d a b => modmulResult s.value s.ctx d a b
  | .bred d hi lo => bredResult s.width s.value s.ctx d hi lo
  | .mulw lo hi a b => mulwResult s.width s.value lo hi a b
  | .modexp d a b => modexpResult s.value s.ctx d a b
  | .egcd g x y a b => egcdResult s.width s.value g x y a b
  | .modinv d a m => modinvResult s.value d a m
  | .mov d a => movResult s.value d a

/-- Every command answers a next state: the completion step with its answer. -/
theorem exec_eq (i : Instr) (s : State) : exec i s = .next (s.complete (answerOf i s)) := by cases i <;> rfl

/-- A command's answer is a function of the operand registers, the context and the configuration alone (10_state R45). -/
theorem answerOf_congr (i : Instr) {s u : State} (hr : s.regs = u.regs) (hc : s.ctx = u.ctx) (hp : s.params = u.params) :
    answerOf i s = answerOf i u := by
  have hv : s.value = u.value := by funext r; simp [State.value, hr]
  have hw : s.width = u.width := by simp [State.width, hp]
  cases i <;> simp only [answerOf, hv, hw, hc]

/-- Every command's answer has the one shape. -/
theorem answers_answerOf (i : Instr) (s : State) : Answers i s (answerOf i s) := by
  cases i with
  | nop => exact .writes rfl (by simp)
  | mov d a => exact .writes rfl (by simp)
  | setmod a =>
    simp only [answerOf, setmodResult]
    split
    · exact .err _ (by decide)
    · exact .inr (.inl ⟨a, rfl, by omega, rfl⟩)
  | montmul d a b => exact .needCtx (.needOdd (.needResidues (.writes rfl (by simp))))
  | tomont d a => exact .needCtx (.needOdd (.needResidues (.writes rfl (by simp))))
  | frommont d a => exact .needCtx (.needOdd (.needResidues (.writes rfl (by simp))))
  | modmul d a b => exact .needCtx (.needResidues (.writes rfl (by simp)))
  | bred d hi lo =>
    refine .needCtx ?_
    split
    · exact .err _ (by decide)
    · exact .writes rfl (by simp)
  | mulw lo hi a b => exact .writes rfl (by simp)
  | modexp d a b => exact .needCtx (.needResidues (.writes rfl (by simp)))
  | egcd g x y a b =>
    simp only [answerOf, egcdResult]
    split
    · exact .err _ (by decide)
    · exact .writes rfl (by simp)
  | modinv d a m =>
    simp only [answerOf, modinvResult]
    split
    · exact .err _ (by decide)
    · split
      · exact .err _ (by decide)
      · exact .writes rfl (by simp)

/-- Every command answers a next state, the completion step with an answer of the one shape (10_state R45). -/
theorem exec_cases (i : Instr) (s : State) : ∃ r, exec i s = .next (s.complete r) ∧ Answers i s r :=
  ⟨_, exec_eq i s, answers_answerOf i s⟩

/-! ## The engine's turn -/

/-- The engine is not enabled: nothing happens (10_state R45). -/
theorem engineStep_disabled {s : State} (h : s.phase = .idle ∨ s.rst = true) : engineStep s = .next s := by
  rcases h with h | h <;> simp [engineStep, State.busy, h]

/-- The engine completes a command word that decodes. -/
theorem engineStep_ok {s : State} {i : Instr} (hp : s.phase = .busy) (hr : s.rst = false) (hd : decode s.inflight = .ok i) :
    engineStep s = exec i s := by
  simp [engineStep, State.busy, hp, hr, hd]

/-- The engine completes a command word that does not decode. -/
theorem engineStep_error {s : State} {code : ErrCode} (hp : s.phase = .busy) (hr : s.rst = false)
    (hd : decode s.inflight = .error code) : engineStep s = .next (s.failWith code) := by
  simp [engineStep, State.busy, hp, hr, hd]

/-- Everything the engine's turn can do. -/
theorem engineStep_cases (s : State) :
    ((s.phase = .idle ∨ s.rst = true) ∧ engineStep s = .next s) ∨
    (s.phase = .busy ∧ s.rst = false ∧ ∃ i, decode s.inflight = .ok i ∧ engineStep s = exec i s) ∨
    (s.phase = .busy ∧ s.rst = false ∧ ∃ code, decode s.inflight = .error code ∧ engineStep s = .next (s.failWith code)) := by
  cases hp : s.phase with
  | idle => exact .inl ⟨.inl rfl, engineStep_disabled (.inl hp)⟩
  | busy =>
    cases hr : s.rst with
    | true => exact .inl ⟨.inr rfl, engineStep_disabled (.inr hr)⟩
    | false =>
      cases hd : decode s.inflight with
      | ok i => exact .inr (.inl ⟨rfl, rfl, i, rfl, engineStep_ok hp hr hd⟩)
      | error code => exact .inr (.inr ⟨rfl, rfl, code, rfl, engineStep_error hp hr hd⟩)

/-- The decoder's errors are `ILLEGAL` and `BADREG` (30_encoding R95). -/
theorem decode_error_cases {w : Word} {code : ErrCode} (h : decode w = .error code) : code = .illegal ∨ code = .badreg := by
  unfold decode at h
  split at h
  · cases h; exact .inl rfl
  · split at h
    · cases h; exact .inl rfl
    · split at h
      · cases h; exact .inl rfl
      · split at h
        · cases h; exact .inr rfl
        · simp only at h
          split at h
          · cases h
          · cases h; exact .inl rfl

/-! ## One step -/

theorem step_nil {s : State} (h : s.pending = []) : step s = engineStep s := by simp [step, h]

theorem step_access {s : State} {a : Access} {es : List Event} (h : s.pending = .access a :: es) :
    step s = .next ((s.setPending es).hostAccess a) := by simp [step, h, eventStep]

theorem step_engine {s : State} {es : List Event} (h : s.pending = .engine :: es) :
    step s = engineStep (s.setPending es) := by simp [step, h, eventStep]

theorem step_assertRst {s : State} {es : List Event} (h : s.pending = .assertRst :: es) :
    step s = .next ((s.setPending es).setRst true).powerOn := by simp [step, h, eventStep]

theorem step_releaseRst {s : State} {es : List Event} (h : s.pending = .releaseRst :: es) :
    step s = .next (s.setPending es).releaseReset := by simp [step, h, eventStep]

end Sys2Proof.Machine
end

