-- ==== Sys2Proof/Laws/Safety.lean ====
section
/-! SUPPORT. What the completion step leaves, in the terms of the claims; what the invariant says of the operands and of the
context; the `STATUS` word and the fields of a command word as numbers. -/

namespace Sys2Proof.Machine

/-! ## How a command ends -/

/-- A command that answers writes alone succeeds and writes the registers they name (10_state R45). -/
theorem Succeeded.of_writes (s : State) {ws : List (Reg × Nat)} {ds : List Reg} (h : ws.map Prod.fst = ds) :
    Succeeded s (s.complete (.ok ws none)) ds false := by
  rw [State.complete_ok]
  subst h
  constructor <;> first | rfl | (intro _; rfl) | (intro r hr; exact State.get_applyWrites_ne s ws r hr)

/-- A command that answers a context alone succeeds and writes no register (10_state R45). -/
theorem Succeeded.of_ctx (s : State) (c : Ctx) : Succeeded s (s.complete (.ok [] (some c))) [] true := by
  rw [State.complete_ok]
  constructor <;> first | rfl | (intro r _; rfl) | (intro h; cases h)

/-- A command that answers an error fails with it (60_exceptions R170). -/
theorem Failed.of_err (s : State) (c : ErrCode) : Failed s (s.complete (.err c)) c := by constructor <;> rfl

/-- The value a command with one destination leaves there. -/
theorem State.value_complete_writeOne (s : State) (d : Reg) {v : Nat} (h : v < 2 ^ s.width) :
    (s.complete (writeOne d v)).value d = v := by
  rw [writeOne, State.complete_ok]
  show (s.writeReg d v).value d = v
  rw [State.value_writeReg_self, Nat.mod_eq_of_lt h]

/-! ## The invariant -/

/-- An operand register holds a `W`-bit value (10_state R32). -/
theorem State.Inv.value_lt {s : State} (h : s.Inv) (r : Reg) : s.value r < 2 ^ s.width := by
  have := ofLimbs_lt (s.regs.get r)
  rwa [h.regs r] at this

/-- The operand width (00_scope R5). -/
theorem State.Inv.width_le {s : State} (h : s.Inv) : 32 ≤ s.width ∧ s.width ≤ 4096 := by
  have h1 := h.params.1
  have h2 := h.params.2.1
  unfold State.width
  omega

/-- A valid context holds the constants of one modulus (10_state R33). -/
theorem State.Inv.ctx_eq {s : State} (h : s.Inv) (hv : s.ctx.valid = true) :
    2 ≤ s.ctx.n ∧ s.ctx.n < 2 ^ s.width ∧ s.ctx = contextOf s.width s.ctx.n := by
  rcases h.ctx with h | h
  · exact h.2
  · rw [h] at hv; cases hv

/-- `ODD` says that the modulus is odd (10_state R33). -/
theorem State.Inv.ctx_odd {s : State} (h : s.Inv) (hv : s.ctx.valid = true) (ho : s.ctx.odd = true) : s.ctx.n % 2 = 1 := by
  rw [(h.ctx_eq hv).2.2] at ho
  simpa [contextOf] using ho

/-- `K` holds `bitlen(N)` whole, for every modulus of at most 4096 bits (10_state R33). -/
theorem contextOf_k (w : Nat) {n : Nat} (h : bitlen n ≤ 4096) : (contextOf w n).k.toNat = bitlen n := by
  simp only [contextOf, BitVec.toNat_ofNat]
  exact Nat.mod_eq_of_lt (by omega)

/-! ## Words as numbers -/

/-- The `STATUS` word as a number, each flag at its place (10_state R39). -/
theorem State.statusWord_toNat (s : State) :
    s.statusWord.toNat = s.busy.toNat + 2 * s.done.toNat + 4 * s.err.toNat + 8 * s.aerr.toNat +
      2 ^ 8 * (errCode s.errcode).toNat + 2 ^ 12 * s.ctx.valid.toNat + 2 ^ 13 * s.ctx.odd.toNat := by
  have h : s.statusWord.toNat = ((0 : BitVec 18) ++ bit s.ctx.odd ++ bit s.ctx.valid ++ errCode s.errcode ++ (0 : BitVec 4) ++
    bit s.aerr ++ bit s.err ++ bit s.done ++ bit s.busy).toNat := rfl
  rw [h]
  have h0 : ∀ n, BitVec.toNat (0 : BitVec n) = 0 := fun n => BitVec.toNat_zero
  simp only [toNat_concat, bit, BitVec.toNat_ofBool, h0]
  ring

/-- Bits [hi:lo] of a word given by its number. -/
theorem bits_ofNat {n : Nat} (h : n < 2 ^ 32) (hi lo : Nat) :
    bits (BitVec.ofNat 32 n) hi lo = n / 2 ^ lo % 2 ^ (hi - lo + 1) := by
  rw [bits, BitVec.toNat_ofNat, Nat.mod_eq_of_lt h]

end Sys2Proof.Machine
end

