-- ==== Sys2Proof/Tests/Slice0.lean ====
section
/-! SUPPORT. Tests of the model on small states, with expected values from spec/95_test_vectors.md (`V-…`), words written out bit by bit
from spec/30_encoding.md R90 and R91, and one witness per hypothesised statement of
Sys2Proof/Certificates/Slice0/Obligations.lean. The test configuration is `L = 2`, `W = 64`. -/

namespace Sys2Proof.Tests

open Sys2Proof.Machine

/-! ## Small states -/

/-- The registers of `s` after the host has written the listed values. -/
def load (s : State) (vs : List (Reg × Nat)) : State := s.applyWrites vs

/-- The test configuration after reset, with the context of `n` loaded (none for `n = 0`) and the listed registers written. -/
def testState (n : Nat) (vs : List (Reg × Nat)) : State :=
  load { State.resetFor Params.test with ctx := if n = 0 then Ctx.cleared else contextOf 64 n } vs

/-- The same with the command word `w` in flight, or idle, and the events `es` still to come. -/
def portState (n : Nat) (vs : List (Reg × Nat)) (phase : Phase) (w : Word) (es : List Event) : State :=
  { testState n vs with phase := phase, inflight := w, cmd := w, pending := es }

/-- What one step from `s` shows through `f`; none where it does not answer a next state. -/
def after {α : Type} (s : State) (f : State → α) : Option α :=
  match step s with
  | .next t => some (f t)
  | .fault _ => none
  | .refused _ => none

/-- The state of a vector of L2.1 to L2.5: the command word in flight, nothing else to come. -/
def vector (n : Nat) (vs : List (Reg × Nat)) (w : Word) : State := portState n vs .busy w []

/-- What a vector's result shows: the `STATUS` word and one register. -/
def shows (r : Reg) (t : State) : Word × Nat := (t.statusWord, t.value r)

theorem testState_inv {n : Nat} (h : n = 0 ∨ 2 ≤ n ∧ n < 2 ^ 64) (vs : List (Reg × Nat)) : (testState n vs).Inv := by
  have e : testState n vs = { State.resetFor Params.test with
      regs := (testState n vs).regs, ctx := if n = 0 then Ctx.cleared else contextOf 64 n } := by
    unfold testState load
    rw [State.applyWrites_eq]
  have hr : (testState n vs).RegsWf := by
    intro r
    rw [e]
    exact State.length_applyWrites _ vs (fun q => by cases q <;> exact length_freeReg ..) r
  rw [e] at hr ⊢
  refine ⟨show Params.test.Valid by decide, hr, ?_, ?_, ?_, ?_⟩
  · rcases h with rfl | ⟨h1, h2⟩
    · exact .inr rfl
    · have : n ≠ 0 := by omega
      simp only [this, if_false]
      exact .inl ⟨rfl, h1, h2, rfl⟩
  · simp [State.FlagsWf, State.resetFor]
  · simp [State.CmdWf, State.resetFor]
  · simp [State.ResetWf, State.resetFor]

theorem portState_inv {n : Nat} (h : n = 0 ∨ 2 ≤ n ∧ n < 2 ^ 64) (vs : List (Reg × Nat)) (phase : Phase) (w : Word)
    (es : List Event) : (portState n vs phase w es).Inv := by
  have hi := testState_inv h vs
  have e : (testState n vs).done = false ∧ (testState n vs).err = false ∧ (testState n vs).rst = false ∧
      (testState n vs).errcode = .noError := by
    unfold testState load
    rw [State.applyWrites_eq]
    exact ⟨rfl, rfl, rfl, rfl⟩
  refine ⟨hi.params, hi.regs, hi.ctx, ⟨?_, ?_, ?_⟩, fun _ => rfl, ?_⟩
  · simp [portState, e]
  · exact fun _ => ⟨e.1, e.2.1⟩
  · simp [portState, e]
  · intro hr
    simp [portState, e] at hr

/-! ## Well-formedness: one ill-formed term per check (30_encoding R96) -/

theorem test_wellFormed_mulw : (Instr.mulw .v4 .v4 .v1 .v2).wellFormed = false := by decide
theorem test_wellFormed_egcd_gx : (Instr.egcd .v4 .v4 .v6 .v1 .v2).wellFormed = false := by decide
theorem test_wellFormed_egcd_gy : (Instr.egcd .v6 .v5 .v6 .v1 .v2).wellFormed = false := by decide
theorem test_wellFormed_egcd_xy : (Instr.egcd .v4 .v5 .v5 .v1 .v2).wellFormed = false := by decide
theorem test_wellFormed_sources_alias : (Instr.egcd .v1 .v2 .v3 .v1 .v1).wellFormed = true := by decide

/-! ## Decoding: RSV, RE, RC, RB, RA, RD, OPC written out from 30_encoding R90, R91, R99 -/

theorem test_decode_nop : decode 0b0000_0000_0000_0000_0000_0000_00000000 = .ok .nop := by decide
theorem test_decode_setmod : decode 0b0000_0000_0000_0000_0111_0000_00000001 = .ok (.setmod .v7) := by decide
theorem test_decode_montmul : decode 0b0000_0000_0000_0110_0101_0100_00000010 = .ok (.montmul .v4 .v5 .v6) := by decide
theorem test_decode_tomont : decode 0b0000_0000_0000_0000_0010_0001_00000011 = .ok (.tomont .v1 .v2) := by decide
theorem test_decode_frommont : decode 0b0000_0000_0000_0000_0010_0001_00000100 = .ok (.frommont .v1 .v2) := by decide
theorem test_decode_modmul : decode 0b0000_0000_0000_0110_0101_0100_00000101 = .ok (.modmul .v4 .v5 .v6) := by decide
theorem test_decode_bred : decode 0b0000_0000_0000_0110_0101_0100_00000110 = .ok (.bred .v4 .v5 .v6) := by decide
theorem test_decode_mulw : decode 0b0000_0000_0101_0010_0001_0100_00000111 = .ok (.mulw .v4 .v5 .v1 .v2) := by decide
theorem test_decode_modexp : decode 0b0000_0000_0000_0011_0010_0001_00001000 = .ok (.modexp .v1 .v2 .v3) := by decide
theorem test_decode_egcd : decode 0b0000_0110_0101_0010_0001_0100_00001001 = .ok (.egcd .v4 .v5 .v6 .v1 .v2) := by decide
theorem test_decode_modinv : decode 0b0000_0000_0000_0011_0010_0001_00001010 = .ok (.modinv .v1 .v2 .v3) := by decide
theorem test_decode_mov : decode 0b0000_0000_0000_0000_0111_0110_00001011 = .ok (.mov .v6 .v7) := by decide

/-- V-D1, V-D3, V-D4, V-D6, V-D7, V-D9, V-D11: `ILLEGAL`. -/
theorem test_decode_illegal : decode 0x0000000C = .error .illegal ∧ decode 0x10021402 = .error .illegal ∧ decode 0x00321402 = .error .illegal ∧
    decode 0x10029402 = .error .illegal ∧ decode 0x00F2F402 = .error .illegal ∧ decode 0x00441407 = .error .illegal ∧
    decode 0x06521609 = .error .illegal := by decide

/-- V-D5, V-D8, V-D10, V-D12, V-D13: `BADREG`. -/
theorem test_decode_badreg : decode 0x00029402 = .error .badreg ∧ decode 0x00991907 = .error .badreg ∧ decode 0x0F521409 = .error .badreg ∧
    decode 0x00081402 = .error .badreg ∧ decode 0x00029F02 = .error .badreg := by decide

/-- The table word of a row with distinct destinations decodes; `MULW` with every operand field 0 repeats its destination (R96). -/
theorem test_decodeTableWord : decodeTableWord 32 0x0000140B = some (.mov .v4 .v1) ∧ decodeTableWord 32 0x00000007 = none := by
  decide

/-! ## Commands: at most two vectors each (spec/95_test_vectors.md L2.1 to L2.4) -/

/-- V-C1. -/
theorem test_nop : after (vector 0 [] 0x00000000) State.statusWord = some 0x00000002 := by decide
/-- V-C2. -/
theorem test_nop_illegal : after (vector 0 [] 0x00000100) State.statusWord = some 0x00000104 := by decide
/-- V-C4. -/
theorem test_mov : after (vector 0 [(.v1, 0x123456789ABCDEF0)] 0x0000140B) (shows .v4) =
    some (0x00000002, 0x123456789ABCDEF0) := by decide
/-- V-C8. -/
theorem test_setmod_odd : after (vector 0 [(.v0, 3233)] 0x00000001) State.ctx =
    some ⟨true, true, 3233, 12, 0x669F289F, 1232, 5189⟩ := by decide
/-- V-C18: the old context stays. -/
theorem test_setmod_badmod : after (vector 3233 [(.v1, 1)] 0x00001001) (fun t => (t.statusWord, t.ctx.n)) =
    some (0x00003604, 3233) := by decide
/-- V-M1. -/
theorem test_mulw_low : after (vector 0 [(.v1, 2 ^ 64 - 1), (.v2, 2 ^ 64 - 1)] 0x00521407) (shows .v4) =
    some (0x00000002, 1) := by decide
/-- V-M4: destinations equal to sources. -/
theorem test_mulw_alias : after (vector 0 [(.v1, 3233), (.v2, 3233)] 0x00221107) (fun t => (t.value .v1, t.value .v2)) =
    some (0x9F7D41, 0) := by decide
/-- V-M6. -/
theorem test_montmul : after (vector 3233 [(.v1, 65), (.v2, 17)] 0x00021402) (shows .v4) = some (0x00003002, 904) := by decide
/-- V-M13. -/
theorem test_montmul_range : after (vector 3233 [(.v1, 3233), (.v2, 1)] 0x00021402) State.statusWord =
    some 0x00003504 := by decide
/-- V-M7. -/
theorem test_tomont : after (vector 3233 [(.v1, 65)] 0x00001403) (shows .v4) = some (0x00003002, 2565) := by decide
/-- V-M17: `EVENMOD` before `RANGE`. -/
theorem test_tomont_evenmod : after (vector 3232 [(.v1, 5000)] 0x00001403) State.statusWord = some 0x00001404 := by decide
/-- V-M9. -/
theorem test_frommont : after (vector 3233 [(.v1, 2565)] 0x00001404) (shows .v4) = some (0x00003002, 65) := by decide
/-- V-M22: an even modulus. -/
theorem test_modmul_even : after (vector 3232 [(.v1, 3231), (.v2, 3231)] 0x00021405) (shows .v4) =
    some (0x00001002, 1) := by decide
/-- V-M26: the largest input of the domain for `K = 12`. -/
theorem test_bred : after (vector 3233 [(.v5, 0), (.v6, 0xFFFFFF)] 0x00065406) (shows .v4) = some (0x00003002, 1178) := by decide
/-- V-M28: the high half counts. -/
theorem test_bred_range : after (vector 3233 [(.v5, 1), (.v6, 0)] 0x00065406) State.statusWord = some 0x00003504 := by decide
/-- V-X1. -/
theorem test_modexp : after (vector 3233 [(.v1, 65), (.v2, 17)] 0x00021408) (shows .v4) = some (0x00003002, 2790) := by decide
/-- V-X19: one register as base, exponent and destination. -/
theorem test_modexp_alias : after (vector 3233 [(.v1, 65)] 0x00011108) (shows .v1) = some (0x00003002, 1878) := by decide
/-- V-E15: destinations equal to sources, a negative coefficient. -/
theorem test_egcd : after (vector 0 [(.v1, 17), (.v2, 3120)] 0x03221109) (fun t => (t.value .v1, t.value .v2, t.value .v3)) =
    some (1, 0xFFFFFFFFFFFFFE91, 2) := by decide
/-- V-E4: equal inputs give `(A, 1, 0)`. -/
theorem test_egcd_equal : after (vector 0 [(.v1, 5), (.v2, 5)] 0x06521409) (fun t => (t.value .v4, t.value .v5, t.value .v6)) =
    some (5, 1, 0) := by decide
/-- V-E16. -/
theorem test_modinv : after (vector 0 [(.v1, 17), (.v2, 3120)] 0x0002140A) (shows .v4) = some (0x00000002, 2753) := by decide
/-- V-E22, V-E23: `NOTCOPRIME` before `ZEROARG`. -/
theorem test_modinv_zero : after (vector 0 [(.v1, 5), (.v2, 0)] 0x0002140A) State.statusWord = some 0x00000804 ∧
    after (vector 0 [(.v1, 1), (.v2, 0)] 0x0002140A) State.statusWord = some 0x00000704 := by decide

/-! ## The port (spec/95_test_vectors.md L2.6), one step each -/

/-- V-B2. -/
theorem test_read_param : after (portState 0 [] .idle 0 [rd Params.test 0x004]) State.resp = some (some 0x00080002) := by decide
/-- V-B6: limb 2 is unmapped. -/
theorem test_read_unmapped : after (portState 0 [] .idle 0 [rd Params.test 0x1008]) (fun t => (t.resp, t.statusWord)) =
    some (some 0, 8) := by decide
/-- V-B8: misaligned. -/
theorem test_read_misaligned : after (portState 0 [] .idle 0 [rd Params.test 0x002]) (fun t => (t.resp, t.statusWord)) =
    some (some 0, 8) := by decide
/-- V-B11: a read of `V1` while busy. -/
theorem test_read_busy : after (portState 0 [(.v1, 65)] .busy 1 [rd Params.test 0x1400]) (fun t => (t.resp, t.statusWord)) =
    some (some 0, 1) := by decide
/-- V-B12: a write of `V1` while busy. -/
theorem test_write_busy : after (portState 0 [(.v1, 65)] .busy 1 [wr Params.test 0x1400 99]) (shows .v1) =
    some (9, 65) := by decide
/-- V-B16: START with `IE`, and the interrupt of the completion. -/
theorem test_irq : after (portState 3233 [] .idle 0 [wr Params.test 0x008 5]) (fun t => (t.statusWord, t.irq, t.ie)) =
    some (0x00003001, false, true) := by decide
/-- V-B20: SRST while busy keeps `V1` and clears the rest. -/
theorem test_softReset : after (portState 3233 [(.v1, 65)] .busy 0x00021402 [wr Params.test 0x008 2])
    (fun t => (t.statusWord, t.cmd, t.ctx.k, t.value .v1, t.draws)) = some (0, 0, 0, 65, 9) := by decide
/-- V-B21: SRST wins over START. -/
theorem test_softReset_wins : after (portState 0 [] .idle 0 [wr Params.test 0x008 3]) State.statusWord = some 0 := by decide

/-! ## The host's questions -/

/-- A placed command runs in the very next step, from reset. -/
theorem test_withFetchWord : after (State.reset.withFetchWord 32 0x00000000) State.statusWord = some 0x00000002 := by decide

/-- Assembler lines of programs P1 and P2 (spec/95_test_vectors.md L3). -/
theorem test_assemble : assemble ['m', 'o', 'd', 'e', 'x', 'p'] [['v', '5'], ['v', '4'], ['v', '3']] = some 0x00034508 ∧
    assemble ['G', 'C', 'D'] [['v', '6'], ['v', '7'], ['v', '1'], ['v', '5'], ['v', '3']] = some 0x01735609 ∧
    assemble ['M', 'O', 'V'] [['v', '8'], ['v', '1']] = none := by decide

/-- The limb accesses of `wrv 0, 3233` (program P1) and of `rdv 0`. -/
theorem test_wrv_rdv : wrv Params.test .v0 3233 = [wr Params.test 0x1000 0x00000CA1, wr Params.test 0x1004 0] ∧
    rdv Params.test .v0 = [rd Params.test 0x1000, rd Params.test 0x1004] := by decide

/-- Reference datapaths on vectors of L2.2 to L2.4: CIOS (V-M6), Barrett (V-M26), the iterative solver (V-E1). -/
theorem test_datapaths : montMulAlg 2 (contextOf 64 3233) 65 17 = 904 ∧ barrettAlg (contextOf 64 3233) 0xFFFFFF = 1178 ∧
    solveIter 17 3120 = ⟨1, -367, 2⟩ ∧ modExpAlg 2 (contextOf 64 3233) 65 17 = 2790 := by decide

/-! ## Witnesses: for each hypothesised statement, states and operands that meet its hypotheses, one per clause at a boundary -/

theorem after_spec {α : Type} {s : State} {f : State → α} {x : α} (h : after s f = some x) : ∃ t, step s = .next t ∧ f t = x := by
  unfold after at h
  cases hs : step s with
  | next t => rw [hs] at h; exact ⟨t, rfl, by simpa using h⟩
  | fault r => rw [hs] at h; cases h
  | refused r => rw [hs] at h; cases h

/-- A state with the flags `IE`, `DONE` and `AERR` as given; `DONE` only while idle. -/
def flagState (phase : Phase) (w : Word) (ie done aerr : Bool) (es : List Event) : State :=
  { portState 3233 [(.v1, 65)] phase w es with ie := ie, done := done, aerr := aerr }

theorem flagState_inv {phase : Phase} {done : Bool} (h : phase = .busy → done = false) (w : Word) (ie aerr : Bool)
    (es : List Event) : (flagState phase w ie done aerr es).Inv := by
  have hi := portState_inv (n := 3233) (by omega) [(.v1, 65)] phase w es
  have e : (portState 3233 [(.v1, 65)] phase w es).err = false ∧ (portState 3233 [(.v1, 65)] phase w es).rst = false ∧
      (portState 3233 [(.v1, 65)] phase w es).errcode = .noError := ⟨rfl, rfl, rfl⟩
  refine ⟨hi.params, hi.regs, hi.ctx, ⟨?_, ?_, ?_⟩, fun _ => rfl, ?_⟩
  · simp [flagState, e]
  · exact fun hb => ⟨h hb, e.1⟩
  · simp [flagState, e]
  · intro hr
    simp [flagState, e] at hr

/-! ### Encoding -/

theorem witness_DecodeOfEncodeIsTheCommand : (Instr.mulw .v7 .v0 .v7 .v7).wellFormed = true ∧
    (Instr.egcd .v7 .v6 .v0 .v7 .v0).wellFormed = true := by decide

theorem witness_EncodeOfDecodeIsTheWord : decode 0x06521409 = .ok (.egcd .v4 .v5 .v6 .v1 .v2) := by decide

theorem witness_DecodeChecksInOrder_illegal : HasIllegalBits 0x0000000C ∧ HasIllegalBits 0x10029402 ∧
    HasIllegalBits 0x00F2F402 := by
  simp only [HasIllegalBits]; decide

theorem witness_DecodeChecksInOrder_badreg : ¬ HasIllegalBits 0x0000080B ∧ HasBadRegister 0x0000080B := by
  simp only [HasIllegalBits, HasBadRegister]; decide

theorem witness_DecodeChecksInOrder_repeated : ¬ HasIllegalBits 0x00421407 ∧ ¬ HasBadRegister 0x00421407 ∧
    RepeatsDestination 0x00421407 := by
  simp only [HasIllegalBits, HasBadRegister, RepeatsDestination]; decide

theorem witness_DecodeChecksInOrder_command : ¬ HasIllegalBits 0x0000770B ∧ ¬ HasBadRegister 0x0000770B ∧
    ¬ RepeatsDestination 0x0000770B := by
  simp only [HasIllegalBits, HasBadRegister, RepeatsDestination]; decide

/-- Every word in flight, the words of the four witnesses above among them, with no event left and with the engine's turn next. -/
theorem witness_EveryWordCompletesOrFails (w : Word) : (vector 0 [] w).phase = .busy ∧ (vector 0 [] w).rst = false ∧
    EngineIsNext (vector 0 [] w) [] ∧ EngineIsNext (portState 0 [] .busy w [.engine]) [] :=
  ⟨rfl, rfl, .inl ⟨rfl, rfl⟩, .inr rfl⟩

/-! ### Reset -/

theorem witness_PowerOnReset : (portState 0 [] .busy 0 [.assertRst]).pending = .assertRst :: [] ∧
    ((State.resetFor Params.test).setRst true).rst = true ∧
    (((State.resetFor Params.test).setRst true).setPending [.releaseRst]).pending = .releaseRst :: [] ∧
    (((State.resetFor Params.test).setRst true).setPending [.engine]).pending = .engine :: [] ∧
    (((State.resetFor Params.test).setRst true).setPending [rd Params.test 0x010]).pending = rd Params.test 0x010 :: [] :=
  ⟨rfl, rfl, rfl, rfl, rfl⟩

theorem witness_ResetHasTheInvariant : (Params.mk 1 0).Valid ∧ (Params.mk 128 0x4000).Valid := by decide

theorem witness_EveryStepKeepsTheInvariant : (vector 3233 [(.v1, 65)] 0x0000140B).Inv ∧
    ∃ t, step (vector 3233 [(.v1, 65)] 0x0000140B) = .next t ∧ t.value .v4 = 65 :=
  ⟨portState_inv (by omega) _ _ _ _, after_spec (by decide)⟩

theorem witness_SoftResetWrite : (portState 3233 [] .busy 0x00021402 [wr Params.test 0x008 3]).rst = false ∧
    (3 : Word).getLsbD 1 = true ∧ (portState 3233 [] .busy 0x00021402 [wr Params.test 0x008 3]).pending =
      wr (portState 3233 [] .busy 0x00021402 [wr Params.test 0x008 3]).params 0x008 3 :: [] := ⟨rfl, by decide, rfl⟩

/-! ### The port -/

/-- The hypotheses of the read and write primitives at any offset, idle and busy. -/
theorem witness_BusPrimitives (phase : Phase) (e : Event) : (portState 3233 [] phase 1 [e]).params.Valid ∧
    (portState 3233 [] phase 1 [e]).rst = false ∧ (portState 3233 [] phase 1 [e]).params = Params.test ∧
    (portState 3233 [] phase 1 [e]).pending = e :: [] := ⟨show Params.test.Valid by decide, rfl, rfl, rfl⟩

/-- The last limb of the last register, and the last word of each array of the context, for `L = 2`. -/
theorem witness_BusPrimitives_mapped : (1 < Params.test.limbs ∧ 0x2C04 = limbOffset .v7 1) ∧ 0x3004 = 0x3000 + 4 * 1 ∧
    0x3404 = 0x3400 + 4 * 1 ∧ (2 < Params.test.limbs + 1 ∧ 0x3808 = 0x3800 + 4 * 2) ∧ IsCtxOffset 2 0x3808 :=
  ⟨by decide, rfl, rfl, by decide, .inr (.inr (.inl ⟨2, by decide, rfl⟩))⟩

/-- The first unmapped offset after each mapped range, and the last of the window. -/
theorem witness_BusPrimitives_unmapped : IsUnmapped 2 0x0014 ∧ IsUnmapped 2 0x1008 ∧ IsUnmapped 2 0x380C ∧
    IsUnmapped 2 0x3FFC := by
  have key : ∀ off, off ∈ [0x0014, 0x1008, 0x380C, 0x3FFC] → IsUnmapped 2 off := by
    intro off h
    simp only [List.mem_cons, List.not_mem_nil, or_false] at h
    refine ⟨by omega, by omega, by simp; omega, ?_, ?_⟩
    · intro r j hj
      have := Reg.index_lt r
      unfold limbOffset
      omega
    · rintro (⟨j, hj, h1⟩ | ⟨j, hj, h1⟩ | ⟨j, hj, h1⟩ | h1 | h1) <;> omega
  exact ⟨key _ (by simp), key _ (by simp), key _ (by simp), key _ (by simp)⟩

/-- A `CTRL` write of each of its three kinds. -/
theorem witness_BusWritePrimitive_ctrl : (2 : Word).getLsbD 1 = true ∧ ((1 : Word).getLsbD 1 = false ∧ (1 : Word).getLsbD 0 = true) ∧
    ((4 : Word).getLsbD 1 = false ∧ (4 : Word).getLsbD 0 = false) := by decide

theorem witness_LimbWriteChangesOneLimb :
    (portState 3233 [] .idle 0 [wr Params.test (limbOffset .v7 1) 0xFFFFFFFF]).Inv ∧
    (portState 3233 [] .idle 0 [wr Params.test (limbOffset .v7 1) 0xFFFFFFFF]).rst = false ∧
    (portState 3233 [] .idle 0 [wr Params.test (limbOffset .v7 1) 0xFFFFFFFF]).phase = .idle ∧ 1 < Params.test.limbs :=
  ⟨portState_inv (by omega) _ _ _ _, rfl, rfl, by decide⟩

/-- A state with an access next and `rst` released; a half word, a misaligned word at the top of the window, a partial write. -/
theorem witness_UndefinedAccessIsAnAccessError :
    ((portState 0 [] .idle 0 [.access ⟨.read, 0x1000, 2, 0xF⟩]).rst = false ∧
      (portState 0 [] .idle 0 [.access ⟨.read, 0x1000, 2, 0xF⟩]).pending = .access ⟨.read, 0x1000, 2, 0xF⟩ :: []) ∧
    ((Access.mk .read 0x1000 2 0xF).addr = Params.test.base + 0x1000 ∧ (Access.mk .read 0x1000 2 0xF).bytes ≠ 4) ∧
    ((Access.mk .read 0x3FFF 4 0xF).addr = Params.test.base + 0x3FFF ∧ 0x3FFF < 0x4000 ∧ 0x3FFF % 4 ≠ 0) ∧
    ((Access.mk (.write 8) 0x0010 4 0x7).addr = Params.test.base + 0x0010 ∧ (Access.mk (.write 8) 0x0010 4 0x7).lanes ≠ 0xF) := by
  decide

/-- The bytes just outside a window at `0x4000`. -/
theorem witness_AccessOutsideTheWindow :
    (Access.mk .read 0x3FFF 4 0xF).addr < (State.resetFor ⟨2, 0x4000⟩).params.base ∧
    (State.resetFor ⟨2, 0x4000⟩).params.base + 0x4000 ≤ (Access.mk .read 0x8000 4 0xF).addr ∧
    ((State.resetFor ⟨2, 0x4000⟩).setPending [.access ⟨.read, 0x8000, 4, 0xF⟩]).pending = .access ⟨.read, 0x8000, 4, 0xF⟩ :: [] :=
  ⟨by decide, by decide, rfl⟩

theorem witness_AccessErrorIsSticky :
    (∃ t, step (flagState .idle 0 false false true [wr Params.test 0x010 8]) = .next t ∧ t.aerr = false) ∧
    (flagState .idle 0 false false true [wr Params.test 0x010 8]).aerr = true ∧
    (∃ t, step (flagState .idle 0 false false false [rd Params.test 0x014]) = .next t ∧ t.aerr = true) ∧
    (flagState .idle 0 false false false [rd Params.test 0x014]).aerr = false :=
  ⟨after_spec (by decide), rfl, after_spec (by decide), rfl⟩

theorem witness_BusyBlockProtectsTheCommand : (flagState .busy 0x00021402 true false false [wr Params.test 0x1400 99]).Inv ∧
    (flagState .busy 0x00021402 true false false [wr Params.test 0x1400 99]).phase = .busy ∧
    (flagState .busy 0x00021402 true false false [wr Params.test 0x1400 99]).pending = .access ⟨.write 99, 0x1400, 4, 0xF⟩ :: [] ∧
    ¬ AsksForReset Params.test ⟨.write 99, 0x1400, 4, 0xF⟩ := by
  refine ⟨flagState_inv (fun _ => rfl) _ _ _ _, rfl, rfl, ?_⟩
  rintro ⟨v, _, h⟩
  simp [Params.test] at h

theorem witness_BusyBlockHidesTheOperands : (flagState .busy 0x00021402 true false false [rd Params.test 0x1400]).phase = .busy ∧
    (flagState .busy 0x00021402 true false false [rd Params.test 0x1400]).pending = .access ⟨.read, 0x1400, 4, 0xF⟩ :: [] :=
  ⟨rfl, rfl⟩

theorem witness_LanesAreLittleEndian : (portState 0 [] .idle 0 [rd Params.test (limbOffset .v7 1)]).params.Valid ∧
    (portState 0 [] .idle 0 [rd Params.test (limbOffset .v7 1)]).rst = false ∧
    (portState 0 [] .idle 0 [rd Params.test (limbOffset .v7 1)]).phase = .idle ∧ 1 < Params.test.limbs ∧ 3 < 4 :=
  ⟨show Params.test.Valid by decide, rfl, rfl, by decide, by decide⟩

/-! ### Status, interrupt, sequencer -/

/-- Idle, busy and done; a failed state is the one a `BADMOD` leaves. -/
theorem witness_ReadableStatusValues : (flagState .idle 0 true false true []).Inv ∧ (flagState .busy 0 true false true []).Inv ∧
    (flagState .idle 0 true true true []).Inv ∧
    ∃ t, step (vector 3233 [(.v1, 1)] 0x00001001) = .next t ∧ t.err = true :=
  ⟨flagState_inv (by simp) _ _ _ _, flagState_inv (by simp) _ _ _ _, flagState_inv (by simp) _ _ _ _, after_spec (by decide)⟩

/-- A completion with `IE = 1` raises the line; so does the write that sets `IE` with `DONE = 1`. -/
theorem witness_InterruptLevel_rises :
    (flagState .busy 0 true false false []).Inv ∧ (flagState .busy 0 true false false []).irq = false ∧
    (∃ t, step (flagState .busy 0 true false false []) = .next t ∧ (t.phase, t.done, t.irq) = (.idle, true, true)) ∧
    (flagState .idle 0 false true false [wr Params.test 0x008 4]).Inv ∧
    (flagState .idle 0 false true false [wr Params.test 0x008 4]).irq = false ∧
    ∃ t, step (flagState .idle 0 false true false [wr Params.test 0x008 4]) = .next t ∧ t.irq = true :=
  ⟨flagState_inv (by simp) _ _ _ _, by decide, after_spec (by decide), flagState_inv (by simp) _ _ _ _, by decide,
    after_spec (by decide)⟩

/-- The line falls with the write that clears `DONE`, with `IE = 0`, with an accepted START, with a reset. -/
theorem witness_InterruptLevel_falls :
    (∀ es, (flagState .idle 0 true true false es).Inv ∧ (flagState .idle 0 true true false es).irq = true) ∧
    (∃ t, step (flagState .idle 0 true true false [wr Params.test 0x010 2]) = .next t ∧ t.irq = false) ∧
    (∃ t, step (flagState .idle 0 true true false [wr Params.test 0x008 0]) = .next t ∧ t.irq = false) ∧
    (∃ t, step (flagState .idle 0 true true false [wr Params.test 0x008 5]) = .next t ∧ t.irq = false) ∧
    (∃ t, step (flagState .idle 0 true true false [.assertRst]) = .next t ∧ t.irq = false) :=
  ⟨fun _ => ⟨flagState_inv (by simp) _ _ _ _, rfl⟩, after_spec (by decide), after_spec (by decide), after_spec (by decide),
    after_spec (by decide)⟩

theorem witness_StepRunsTheDecodedCommand : (vector 0 [] 0x06521409).phase = .busy ∧ (vector 0 [] 0x06521409).rst = false ∧
    decode (vector 0 [] 0x06521409).inflight = .ok (.egcd .v4 .v5 .v6 .v1 .v2) ∧ EngineIsNext (vector 0 [] 0x06521409) [] :=
  ⟨rfl, rfl, by decide, .inl ⟨rfl, rfl⟩⟩

theorem witness_StartRunsTheCommandInCmd :
    (portState 0 [] .idle 0x0000140B [wr Params.test 0x008 1, .engine]).phase = .idle ∧
    (portState 0 [] .idle 0x0000140B [wr Params.test 0x008 1, .engine]).rst = false ∧ (1 : Word).getLsbD 1 = false ∧
    (1 : Word).getLsbD 0 = true ∧
    decode (portState 0 [] .idle 0x0000140B [wr Params.test 0x008 1, .engine]).cmd = .ok (.mov .v4 .v1) ∧
    (portState 0 [] .idle 0x0000140B [wr Params.test 0x008 1, .engine]).pending = wr Params.test 0x008 1 :: .engine :: [] :=
  ⟨rfl, rfl, by decide, by decide, by decide, rfl⟩

theorem witness_HostWritesARegister : (portState 3233 [] .idle 0 (wrv Params.test .v7 (2 ^ 64 - 1))).Inv ∧
    (portState 3233 [] .idle 0 (wrv Params.test .v7 (2 ^ 64 - 1))).rst = false ∧
    (portState 3233 [] .idle 0 (wrv Params.test .v7 (2 ^ 64 - 1))).phase = .idle ∧
    2 ^ 64 - 1 < 2 ^ (portState 3233 [] .idle 0 (wrv Params.test .v7 (2 ^ 64 - 1))).width ∧
    (portState 3233 [] .idle 0 (wrv Params.test .v7 (2 ^ 64 - 1))).pending = wrv Params.test .v7 (2 ^ 64 - 1) ++ [] :=
  ⟨portState_inv (by omega) _ _ _ _, rfl, rfl, by decide, rfl⟩

/-- With no poll that finds the block busy, and with two. -/
theorem witness_HostRunsACommand (polls : Nat) (_ : polls = 0 ∨ polls = 2) :
    (portState 0 [] .idle 0 (runCommand Params.test 0x0000140B polls)).Inv ∧
    (portState 0 [] .idle 0 (runCommand Params.test 0x0000140B polls)).rst = false ∧
    (portState 0 [] .idle 0 (runCommand Params.test 0x0000140B polls)).phase = .idle ∧
    decode 0x0000140B = .ok (.mov .v4 .v1) ∧
    (portState 0 [] .idle 0 (runCommand Params.test 0x0000140B polls)).pending = runCommand Params.test 0x0000140B polls ++ [] :=
  ⟨portState_inv (by omega) _ _ _ _, rfl, rfl, by decide, by simp [portState]⟩

theorem witness_StartedCommandEnds : (flagState .busy 0 true false false [rd Params.test 0x010]).Inv ∧
    (flagState .busy 0 true false false [rd Params.test 0x010]).phase = .busy := ⟨flagState_inv (by simp) _ _ _ _, rfl⟩

theorem witness_ResultIsIndependentOfTheSchedule :
    (vector 3233 [(.v1, 65)] 0x0000140B).Inv ∧
    (portState 3233 [(.v1, 65)] .busy 0x0000140B [rd Params.test 0x010, .engine]).pending =
      [rd Params.test 0x010] ++ .engine :: [] ∧
    (∀ e ∈ [rd Params.test 0x010], ∃ a, e = .access a ∧ ¬ AsksForReset Params.test a) ∧
    ∃ t, step { portState 3233 [(.v1, 65)] .busy 0x0000140B [rd Params.test 0x010, .engine] with pending := [.engine] } =
      .next t ∧ t.value .v4 = 65 := by
  refine ⟨portState_inv (by omega) _ _ _ _, rfl, ?_, after_spec (by decide)⟩
  intro e he
  simp only [List.mem_cons, List.not_mem_nil, or_false] at he
  subst he
  refine ⟨_, rfl, ?_⟩
  rintro ⟨v, _, h⟩
  simp at h

/-- A `SETMOD` and a soft reset each change the context. -/
theorem witness_OnlySetmodAndResetChangeTheContext :
    (∃ t, step (vector 0 [(.v0, 3233)] 0x00000001) = .next t ∧ t.ctx.n = 3233) ∧ (vector 0 [(.v0, 3233)] 0x00000001).ctx.n = 0 ∧
    (∃ t, step (flagState .idle 0 false false false [wr Params.test 0x008 2]) = .next t ∧ t.ctx.n = 0) ∧
    (flagState .idle 0 false false false [wr Params.test 0x008 2]).ctx.n = 3233 :=
  ⟨after_spec (by decide), by decide, after_spec (by decide), by decide⟩

/-- A command and a host write each change a register. -/
theorem witness_OnlyTheseEventsChangeAnOperandRegister :
    (∃ t, step (vector 0 [(.v1, 65), (.v4, 7)] 0x0000140B) = .next t ∧ t.value .v4 = 65) ∧
    (vector 0 [(.v1, 65), (.v4, 7)] 0x0000140B).value .v4 = 7 ∧
    (∃ t, step (portState 0 [(.v1, 65)] .idle 0 [wr Params.test 0x1404 1]) = .next t ∧ t.value .v1 = 2 ^ 32 + 65) ∧
    (portState 0 [(.v1, 65)] .idle 0 [wr Params.test 0x1404 1]).value .v1 = 65 :=
  ⟨after_spec (by decide), by decide, after_spec (by decide), by decide⟩

theorem witness_CommandsReadOperandsAndContextOnly :
    (flagState .busy 0 true false true []).regs = (flagState .busy 0x0B false false false [.engine]).regs ∧
    (flagState .busy 0 true false true []).ctx = (flagState .busy 0x0B false false false [.engine]).ctx ∧
    (flagState .busy 0 true false true []).params = (flagState .busy 0x0B false false false [.engine]).params :=
  ⟨rfl, rfl, rfl⟩

theorem witness_FailedCommandWritesNothing : (vector 3233 [(.v1, 1)] 0x00001001).Inv ∧
    (vector 3233 [(.v1, 1)] 0x00001001).phase = .busy ∧ EngineIsNext (vector 3233 [(.v1, 1)] 0x00001001) [] ∧
    ∃ t, step (vector 3233 [(.v1, 1)] 0x00001001) = .next t ∧ t.err = true :=
  ⟨portState_inv (by omega) _ _ _ _, rfl, .inl ⟨rfl, rfl⟩, after_spec (by decide)⟩

/-! ### Commands: the invariant holds in every `testState` (`testState_inv`), so a witness names the modulus and the operands -/

theorem witness_NopDoesNothing : bits 0x00000100 7 0 = 0 ∧ (0x00000100 : Word) ≠ 0 := by decide

theorem witness_MovCopiesARegister : (testState 0 [(.v1, 65)]).Inv := testState_inv (by omega) _

/-- `N = 1` is refused, `N = 2` and `N = 3` and the largest `N` are loaded. -/
theorem witness_SetmodLoadsTheContext : (testState 3233 [(.v1, 1)]).Inv ∧ (testState 3233 [(.v1, 1)]).value .v1 < 2 ∧
    2 ≤ (testState 3233 [(.v1, 2)]).value .v1 ∧ (testState 3233 [(.v1, 2)]).value .v1 % 2 = 0 ∧
    2 ≤ (testState 3233 [(.v1, 2 ^ 64 - 1)]).value .v1 ∧ (testState 3233 [(.v1, 2 ^ 64 - 1)]).value .v1 % 2 = 1 :=
  ⟨testState_inv (by omega) _, by decide, by decide, by decide, by decide, by decide⟩

theorem witness_MulwWritesTheWholeProduct : (testState 0 [(.v1, 2 ^ 64 - 1)]).Inv ∧ Reg.v4 ≠ Reg.v5 :=
  ⟨testState_inv (by omega) _, by decide⟩

/-- No context; an even modulus; an operand equal to `N`; both operands `N - 1`. The other Montgomery commands have the same
clauses. -/
theorem witness_MontgomeryCommands : (∀ vs, (testState 0 vs).Inv ∧ (testState 2 vs).Inv ∧ (testState 3 vs).Inv) ∧
    (testState 0 [(.v1, 0), (.v2, 0)]).ctx.valid = false ∧
    ((testState 2 [(.v1, 0), (.v2, 0)]).ctx.valid = true ∧ (testState 2 [(.v1, 0), (.v2, 0)]).ctx.odd = false) ∧
    ((testState 3 [(.v1, 3), (.v2, 2)]).ctx.valid = true ∧ (testState 3 [(.v1, 3), (.v2, 2)]).ctx.odd = true ∧
      (testState 3 [(.v1, 3), (.v2, 2)]).ctx.n ≤ (testState 3 [(.v1, 3), (.v2, 2)]).value .v1) ∧
    (testState 3 [(.v1, 2), (.v2, 3)]).ctx.n ≤ (testState 3 [(.v1, 2), (.v2, 3)]).value .v2 ∧
    ((testState 3 [(.v1, 2), (.v2, 2)]).value .v1 < (testState 3 [(.v1, 2), (.v2, 2)]).ctx.n ∧
      (testState 3 [(.v1, 2), (.v2, 2)]).value .v2 < (testState 3 [(.v1, 2), (.v2, 2)]).ctx.n) :=
  ⟨fun vs => ⟨testState_inv (by omega) vs, testState_inv (by omega) vs, testState_inv (by omega) vs⟩, by decide, by decide,
    by decide, by decide, by decide⟩

/-- `MODMUL` and `MODEXP` under an even modulus: an operand equal to `N`, both `N - 1`. -/
theorem witness_ModmulAndModexp : (∀ vs, (testState 2 vs).Inv ∧ (testState 0 vs).Inv) ∧
    (testState 0 [(.v1, 1)]).ctx.valid = false ∧ (testState 2 [(.v1, 1), (.v2, 1)]).ctx.valid = true ∧
    (testState 2 [(.v1, 2), (.v2, 1)]).ctx.n ≤ (testState 2 [(.v1, 2), (.v2, 1)]).value .v1 ∧
    ((testState 2 [(.v1, 1), (.v2, 1)]).value .v1 < (testState 2 [(.v1, 1), (.v2, 1)]).ctx.n ∧
      (testState 2 [(.v1, 1), (.v2, 1)]).value .v2 < (testState 2 [(.v1, 1), (.v2, 1)]).ctx.n) :=
  ⟨fun vs => ⟨testState_inv (by omega) vs, testState_inv (by omega) vs⟩, by decide, by decide, by decide, by decide⟩

/-- `2^(2K)` is outside the domain, `2^(2K) - 1` inside (V-M31, V-M32). -/
theorem witness_BredReducesADoubleWidthValue : (∀ vs, (testState 2 vs).Inv ∧ (testState 0 vs).Inv) ∧
    (testState 0 [(.v5, 0), (.v6, 1)]).ctx.valid = false ∧ (testState 2 [(.v5, 0), (.v6, 16)]).ctx.valid = true ∧
    2 ^ (2 * (testState 2 [(.v5, 0), (.v6, 16)]).ctx.k.toNat) ≤
      (testState 2 [(.v5, 0), (.v6, 16)]).value .v5 * 2 ^ (testState 2 [(.v5, 0), (.v6, 16)]).width +
        (testState 2 [(.v5, 0), (.v6, 16)]).value .v6 ∧
    (testState 2 [(.v5, 0), (.v6, 15)]).value .v5 * 2 ^ (testState 2 [(.v5, 0), (.v6, 15)]).width +
        (testState 2 [(.v5, 0), (.v6, 15)]).value .v6 < 2 ^ (2 * (testState 2 [(.v5, 0), (.v6, 15)]).ctx.k.toNat) :=
  ⟨fun vs => ⟨testState_inv (by omega) vs, testState_inv (by omega) vs⟩, by decide, by decide, by decide, by decide⟩

theorem witness_MontgomeryRoundTrip : (testState 3233 [(.v1, 3232)]).Inv ∧ (testState 3233 [(.v1, 3232)]).ctx.valid = true ∧
    (testState 3233 [(.v1, 3232)]).ctx.odd = true ∧
    (testState 3233 [(.v1, 3232)]).value .v1 < (testState 3233 [(.v1, 3232)]).ctx.n :=
  ⟨testState_inv (by omega) _, by decide, by decide, by decide⟩

/-- V-M10: 2565 and 2163 are the forms of 65 and 17. -/
theorem witness_MontmulOfFormsIsTheFormOfTheProduct : (testState 3233 [(.v1, 2565), (.v2, 2163)]).Inv ∧
    (testState 3233 [(.v1, 2565), (.v2, 2163)]).value .v1 = 65 * 2 ^ (testState 3233 [(.v1, 2565), (.v2, 2163)]).width %
      (testState 3233 [(.v1, 2565), (.v2, 2163)]).ctx.n ∧
    (testState 3233 [(.v1, 2565), (.v2, 2163)]).value .v2 = 17 * 2 ^ (testState 3233 [(.v1, 2565), (.v2, 2163)]).width %
      (testState 3233 [(.v1, 2565), (.v2, 2163)]).ctx.n :=
  ⟨testState_inv (by omega) _, by decide, by decide⟩

theorem witness_MulwThenBredIsModmul : (testState 3232 [(.v1, 3231), (.v2, 3231)]).Inv ∧ Reg.v5 ≠ Reg.v6 ∧
    (testState 3232 [(.v1, 3231), (.v2, 3231)]).ctx.valid = true ∧
    (testState 3232 [(.v1, 3231), (.v2, 3231)]).value .v1 < (testState 3232 [(.v1, 3231), (.v2, 3231)]).ctx.n ∧
    (testState 3232 [(.v1, 3231), (.v2, 3231)]).value .v2 < (testState 3232 [(.v1, 3231), (.v2, 3231)]).ctx.n :=
  ⟨testState_inv (by omega) _, by decide, by decide, by decide, by decide⟩

/-- Distinct and repeated destinations; both inputs 0; one input 0. -/
theorem witness_EgcdSolvesBezout : (∀ vs, (testState 0 vs).Inv) ∧ (Reg.v4 ≠ Reg.v5 ∧ Reg.v4 ≠ Reg.v6 ∧ Reg.v5 ≠ Reg.v6) ∧
    (Reg.v4 = Reg.v4 ∨ Reg.v4 = Reg.v6 ∨ Reg.v4 = Reg.v6) ∧
    ((testState 0 [(.v1, 0), (.v2, 0)]).value .v1 = 0 ∧ (testState 0 [(.v1, 0), (.v2, 0)]).value .v2 = 0) ∧
    ((testState 0 [(.v1, 0), (.v2, 1)]).value .v1 ≠ 0 ∨ (testState 0 [(.v1, 0), (.v2, 1)]).value .v2 ≠ 0) :=
  ⟨fun vs => testState_inv (by omega) vs, by decide, by decide, by decide, by decide⟩

/-- `gcd ≠ 1`; `A = 1`, `M = 0`; `A = 0`, `M = 1`. -/
theorem witness_ModinvIsTheInverse : (∀ vs, (testState 0 vs).Inv) ∧
    Nat.gcd ((testState 0 [(.v1, 0), (.v2, 0)]).value .v1) ((testState 0 [(.v1, 0), (.v2, 0)]).value .v2) ≠ 1 ∧
    (Nat.gcd ((testState 0 [(.v1, 1), (.v2, 0)]).value .v1) ((testState 0 [(.v1, 1), (.v2, 0)]).value .v2) = 1 ∧
      (testState 0 [(.v1, 1), (.v2, 0)]).value .v2 = 0) ∧
    (Nat.gcd ((testState 0 [(.v1, 0), (.v2, 1)]).value .v1) ((testState 0 [(.v1, 0), (.v2, 1)]).value .v2) = 1 ∧
      (testState 0 [(.v1, 0), (.v2, 1)]).value .v2 ≠ 0) :=
  ⟨fun vs => testState_inv (by omega) vs, by decide, by decide, by decide⟩

theorem witness_SourcePropertiesOfTheInverse : (∀ vs, (testState 0 vs).Inv) ∧
    (1 < (testState 0 [(.v1, 17), (.v2, 3120)]).value .v2 ∧
      Nat.gcd ((testState 0 [(.v1, 17), (.v2, 3120)]).value .v1) ((testState 0 [(.v1, 17), (.v2, 3120)]).value .v2) = 1) ∧
    Nat.gcd ((testState 0 [(.v1, 5), (.v2, 0)]).value .v1) ((testState 0 [(.v1, 5), (.v2, 0)]).value .v2) ≠ 1 ∧
    ((testState 0 [(.v1, 0), (.v2, 7)]).value .v1 = 0 ∧ (testState 0 [(.v1, 0), (.v2, 7)]).value .v2 = 7) :=
  ⟨fun vs => testState_inv (by omega) vs, by decide, by decide, by decide⟩

/-- The key 3233 = 61 · 53, 17 · 2753 ≡ 1 (mod 3120); and the key of `p = q = 3`. -/
theorem witness_RsaRoundTrip : (∀ vs, (testState 3233 vs).Inv ∧ (testState 9 vs).Inv) ∧ Nat.Prime 61 ∧ Nat.Prime 53 ∧
    (testState 3233 [(.v1, 65), (.v2, 17), (.v3, 2753)]).ctx.n = 61 * 53 ∧
    (testState 3233 [(.v1, 65), (.v2, 17), (.v3, 2753)]).value .v2 *
      (testState 3233 [(.v1, 65), (.v2, 17), (.v3, 2753)]).value .v3 % ((61 - 1) * (53 - 1)) = 1 % ((61 - 1) * (53 - 1)) ∧
    (testState 3233 [(.v1, 65), (.v2, 17), (.v3, 2753)]).value .v1 <
      (testState 3233 [(.v1, 65), (.v2, 17), (.v3, 2753)]).ctx.n ∧ Reg.v4 ≠ Reg.v3 ∧
    ((testState 9 [(.v1, 2), (.v2, 3), (.v3, 3)]).ctx.valid = true ∧ (testState 9 [(.v1, 2), (.v2, 3), (.v3, 3)]).ctx.n = 9 ∧
      (testState 9 [(.v1, 2), (.v2, 3), (.v3, 3)]).value .v1 = 2 ∧ (testState 9 [(.v1, 2), (.v2, 3), (.v3, 3)]).value .v2 = 3 ∧
      (testState 9 [(.v1, 2), (.v2, 3), (.v3, 3)]).value .v3 = 3) :=
  ⟨fun vs => ⟨testState_inv (by omega) vs, testState_inv (by omega) vs⟩, by norm_num, by norm_num, by decide, by decide,
    by decide, by decide, by decide⟩

/-! ### Arithmetic -/

theorem witness_InverseIsUnique : (0 < 1 ∧ Nat.gcd 0 1 = 1) ∧ 0 < 3120 ∧ Nat.gcd 17 3120 = 1 ∧ inv 17 3120 = 2753 := by decide

theorem witness_TwosComplementRoundTrip : -(2 ^ (64 - 1) : Int) ≤ -(2 ^ 63) ∧ (2 ^ 63 - 1 : Int) < 2 ^ (64 - 1) ∧
    twos 64 (-367) = 0xFFFFFFFFFFFFFE91 := by decide

theorem witness_SolverMeetsItsContract : (17 ≠ 0 ∧ 0 < 17) ∧ solve 17 3120 = ⟨1, -367, 2⟩ := by decide

/-- The second clause: distinct destinations that overlap the sources, one source 0. -/
theorem witness_CoefficientsFitTheRegister : (0 ≠ 0 ∨ 1 ≠ 0) ∧ 2 ≤ 2 ∧ 3 < 2 ^ 2 ∧
    (Reg.v1 ≠ .v2 ∧ Reg.v1 ≠ .v3 ∧ Reg.v2 ≠ .v3 ∧ ((testState 0 [(.v1, 0), (.v2, 1)]).value .v1 ≠ 0 ∨
      (testState 0 [(.v1, 0), (.v2, 1)]).value .v2 ≠ 0)) := by decide

/-- The smallest odd modulus, and the largest of one limb. -/
theorem witness_CiosIsTheMontgomeryProduct : (3 % 2 = 1 ∧ 2 ≤ 3 ∧ 3 < 2 ^ (32 * 1) ∧ 2 < 3) ∧
    ((2 ^ 32 - 1) % 2 = 1 ∧ 2 ^ 32 - 1 < 2 ^ (32 * 1) ∧ 2 ^ 32 - 2 < 2 ^ 32 - 1) := by decide

theorem witness_BarrettIsTheRemainder : 2 ≤ 2 ∧ bitlen 2 ≤ 4096 ∧ 15 < 2 ^ (2 * bitlen 2) := by decide

theorem witness_SquareAndMultiplyIsThePower : (1 ≤ 1 ∧ 1 ≤ 128 ∧ 2 ≤ 2 ∧ 2 < 2 ^ (32 * 1) ∧ 1 < 2) ∧ 128 ≤ 128 := by decide

theorem witness_BarrettConstantBounds : (2 ≤ 2 ∧ 2 = bitlen 2 ∧ 2 = 2 ^ (2 - 1)) ∧ 2 ≤ 3233 ∧ 12 = bitlen 3233 ∧ 12 ≤ 32 * 1 := by
  decide

theorem witness_MontgomeryConstantIsUnique : 3233 % 2 = 1 ∧ (3233 * (0x669F289F : Word).toNat + 1) % 2 ^ 32 = 0 ∧
    (2 ^ 32 + 3233) % 2 ^ 32 = 3233 % 2 ^ 32 := by decide

end Sys2Proof.Tests
end

section
/-! The modular inverse (00_scope R11): what the solver answers (42_euclid R141), and from it the bound, the congruence and
the uniqueness of `inv`. -/

namespace Sys2Proof.Machine

@[simp] theorem Bezout.unwind_g (r : Bezout) (q : Nat) : (r.unwind q).g = r.g := rfl
@[simp] theorem Bezout.unwind_x (r : Bezout) (q : Nat) : (r.unwind q).x = r.y - q * r.x := rfl
@[simp] theorem Bezout.unwind_y (r : Bezout) (q : Nat) : (r.unwind q).y = r.x := rfl

/-- Euclid's algorithm: the solver's recursion is the one of `Nat.gcd`. -/
theorem solve_g (a b : Nat) : (solve a b).g = Nat.gcd a b := by
  induction a, b using Nat.gcd.induction with
  | H0 b => simp
  | H1 a b ha ih => rw [solve_pos b ha.ne', Bezout.unwind_g, ih, ← Nat.gcd_rec]

/-- Bézout's identity, kept by an unwind step because `b = a * (b / a) + b % a`. -/
theorem solve_bezout (a b : Nat) : (a : Int) * (solve a b).x + b * (solve a b).y = (solve a b).g := by
  induction a, b using Nat.gcd.induction with
  | H0 b => simp
  | H1 a b ha ih =>
    have hdiv : (b : Int) = a * (b / a : Nat) + (b % a : Nat) := by exact_mod_cast (Nat.div_add_mod b a).symm
    rw [solve_pos b ha.ne', Bezout.unwind_g, Bezout.unwind_x, Bezout.unwind_y, ← ih]
    linear_combination (solve (b % a) a).x * hdiv

/-- `inv` is the solver's coefficient normalised into `[0, m)`, as an integer. -/
theorem inv_cast (a : Nat) {m : Nat} (hm : 0 < m) : (inv a m : Int) = (solve a m).x % m :=
  Int.toNat_of_nonneg (Int.emod_nonneg _ (by omega))

theorem inv_lt (a : Nat) {m : Nat} (hm : 0 < m) : inv a m < m := by
  have hlt : (solve a m).x % (m : Int) < m := Int.emod_lt_of_pos _ (by omega)
  rw [← inv_cast a hm] at hlt
  exact_mod_cast hlt

/-- Bézout's identity modulo `m`, where the gcd is 1. -/
theorem mul_inv_modEq {a m : Nat} (hm : 0 < m) (h : Nat.gcd a m = 1) : a * inv a m ≡ 1 [MOD m] := by
  have hbez : (a : Int) * (solve a m).x + m * (solve a m).y = 1 := by rw [solve_bezout, solve_g, h, Nat.cast_one]
  rw [← Int.natCast_modEq_iff, Nat.cast_mul, Nat.cast_one, inv_cast a hm]
  calc (a : Int) * ((solve a m).x % m)
      ≡ a * (solve a m).x [ZMOD m] := (Int.mod_modEq _ _).mul_left _
    _ ≡ a * (solve a m).x + m * (solve a m).y [ZMOD m] := Int.modEq_add_fac_self.symm
    _ = 1 := hbez

/-- Two inverses of `a` are congruent, because `a` cancels modulo `m`; below `m` they are equal. -/
theorem eq_inv_of_mul_modEq {a m x : Nat} (hm : 0 < m) (h : Nat.gcd a m = 1) (hx : x < m) (hax : a * x ≡ 1 [MOD m]) :
    x = inv a m := by
  have hprod : a * x ≡ a * inv a m [MOD m] := hax.trans (mul_inv_modEq hm h).symm
  have hcancel : x ≡ inv a m [MOD m] := hprod.cancel_left_of_coprime (by rwa [Nat.gcd_comm])
  exact hcancel.eq_of_lt_of_lt hx (inv_lt a hm)

/-- Settles O52, from Bézout's identity of the solver and cancellation modulo `m`. -/
theorem inverseIsUnique : Obligations.InverseIsUnique := by
  intro a m hm h
  exact ⟨inv_lt a hm, mul_inv_modEq hm h, fun x hx hax => eq_inv_of_mul_modEq hm h hx hax⟩

end Sys2Proof.Machine
end

section
/-! The `STATUS` word (10_state R39, R40): what each of its fields reads, and which combinations of them the invariant allows. -/

namespace Sys2Proof.Machine

/-! ## The fields of `STATUS` (10_state R39) -/

theorem bit_getLsbD_zero (b : Bool) : (bit b).getLsbD 0 = b := by cases b <;> rfl

theorem State.statusWord_getLsbD_busy (s : State) : s.statusWord.getLsbD 0 = s.busy := by
  simp only [State.statusWord, BitVec.getLsbD_append]
  exact bit_getLsbD_zero s.busy

theorem State.statusWord_getLsbD_done (s : State) : s.statusWord.getLsbD 1 = s.done := by
  simp only [State.statusWord, BitVec.getLsbD_append]
  exact bit_getLsbD_zero s.done

theorem State.statusWord_getLsbD_err (s : State) : s.statusWord.getLsbD 2 = s.err := by
  simp only [State.statusWord, BitVec.getLsbD_append]
  exact bit_getLsbD_zero s.err

theorem State.statusWord_getLsbD_aerr (s : State) : s.statusWord.getLsbD 3 = s.aerr := by
  simp only [State.statusWord, BitVec.getLsbD_append]
  exact bit_getLsbD_zero s.aerr

/-- The flags below `ERRCODE` and the reserved bits fill less than 8 bits, so the code stands alone in bits [11:8]. -/
theorem State.statusWord_errcode (s : State) : bits s.statusWord 11 8 = (errCode s.errcode).toNat := by
  have hcode : (errCode s.errcode).toNat < 2 ^ 4 := (errCode s.errcode).isLt
  have hbusy := Bool.toNat_le s.busy
  have hdone := Bool.toNat_le s.done
  have herr := Bool.toNat_le s.err
  have haerr := Bool.toNat_le s.aerr
  rw [bits, State.statusWord_toNat]
  omega

/-- Bit 3 is the only bit of `STATUS` that shows `AERR`: the bits below it and those above it do not. -/
theorem State.statusWord_getLsbD_of_ne_three (s : State) (b : Bool) {i : Nat} (hi : i ≠ 3) :
    ({ s with aerr := b } : State).statusWord.getLsbD i = s.statusWord.getLsbD i := by
  simp only [State.statusWord, BitVec.getLsbD_append]
  rcases Nat.lt_or_gt_of_ne hi with hlow | hhigh
  · have hcases : i = 0 ∨ i = 1 ∨ i = 2 := by omega
    rcases hcases with rfl | rfl | rfl <;> rfl
  · have hskip : ¬ i - 1 - 1 - 1 < 1 := by omega
    simp only [hskip, if_false]
    rfl

/-! ## The error codes (60_exceptions R168) -/

theorem errCode_le_eight (c : ErrCode) : (errCode c).toNat ≤ 8 := by cases c <;> decide

theorem one_le_errCode {c : ErrCode} (hc : c ≠ .noError) : 1 ≤ (errCode c).toNat := by
  cases c with
  | noError => exact absurd rfl hc
  | _ => decide

/-! ## The flag invariants (10_state R40) -/

/-- Without an error the code is `NONE`. -/
theorem State.FlagsWf.errcode_eq {s : State} (h : s.FlagsWf) (herr : s.err = false) : s.errcode = .noError := by
  obtain ⟨-, -, hcode⟩ := h
  by_contra hne
  rw [hcode.2 hne] at herr
  cases herr

/-- The flags are those of an idle, a busy, a done or a failed engine. -/
theorem State.FlagsWf.flags_cases {s : State} (h : s.FlagsWf) :
    (s.busy = false ∧ s.done = false ∧ s.err = false ∧ s.errcode = .noError) ∨
    (s.busy = true ∧ s.done = false ∧ s.err = false ∧ s.errcode = .noError) ∨
    (s.busy = false ∧ s.done = true ∧ s.err = false ∧ s.errcode = .noError) ∨
    (s.busy = false ∧ s.done = false ∧ s.err = true ∧ s.errcode ≠ .noError) := by
  have hnone := h.errcode_eq
  obtain ⟨hexcl, hbusy, hcode⟩ := h
  cases hphase : s.phase with
  | busy =>
    obtain ⟨hdone, herr⟩ := hbusy hphase
    exact .inr (.inl ⟨s.busy_eq_true.2 hphase, hdone, herr, hnone herr⟩)
  | idle =>
    have hidle := s.busy_eq_false.2 hphase
    cases herr : s.err with
    | true =>
      have hdone : s.done = false := Bool.eq_false_iff.2 fun hdone => hexcl ⟨hdone, herr⟩
      exact .inr (.inr (.inr ⟨hidle, hdone, rfl, hcode.1 herr⟩))
    | false =>
      cases hdone : s.done with
      | true => exact .inr (.inr (.inl ⟨hidle, rfl, rfl, hnone herr⟩))
      | false => exact .inl ⟨hidle, rfl, rfl, hnone herr⟩

/-- While `rst` is released no clause of the invariant speaks of `AERR`. -/
theorem State.Inv.set_aerr {s : State} (h : s.Inv) (hrst : s.rst = false) (b : Bool) :
    ({ s with aerr := b } : State).Inv where
  params := h.params
  regs := h.regs
  ctx := h.ctx
  flags := h.flags
  cmd := h.cmd
  reset := fun hasserted => by rw [hrst] at hasserted; cases hasserted

/-- Settles O21, by reading the fields of `STATUS` in each of the four combinations the flag invariants allow. -/
theorem readableStatusValues : Obligations.ReadableStatusValues := by
  intro s h
  refine ⟨fun b => ⟨fun hrst => h.set_aerr hrst b, State.statusWord_getLsbD_aerr _,
    fun i hi => s.statusWord_getLsbD_of_ne_three b hi⟩, ?_⟩
  simp only [State.statusWord_getLsbD_busy, State.statusWord_getLsbD_done, State.statusWord_getLsbD_err,
    State.statusWord_errcode]
  rcases h.flags.flags_cases with ⟨hb, hd, he, hc⟩ | ⟨hb, hd, he, hc⟩ | ⟨hb, hd, he, hc⟩ | ⟨hb, hd, he, hc⟩
  · exact .inl ⟨hb, hd, he, by rw [hc]; rfl⟩
  · exact .inr (.inl ⟨hb, hd, he, by rw [hc]; rfl⟩)
  · exact .inr (.inr (.inl ⟨hb, hd, he, by rw [hc]; rfl⟩))
  · exact .inr (.inr (.inr ⟨hb, hd, he, one_le_errCode hc, errCode_le_eight s.errcode⟩))

end Sys2Proof.Machine
end

section
/-! Soft reset and `CTRL` writes (10_state R37, R46; 70_reset_and_hazards R191): the destinations that a soft reset abandons in the
bits of the word in flight, and what each kind of `CTRL` write leaves. -/

namespace Sys2Proof

theorem usesRd_eq_true {opc : Nat} : usesRd opc = true ↔ 0x02 ≤ opc := by
  simp only [usesRd, decide_eq_true_eq, List.mem_cons, List.not_mem_nil, or_false]
  omega

theorem usesRc_eq_true {opc : Nat} : usesRc opc = true ↔ opc = 0x07 ∨ opc = 0x09 := by simp [usesRc]

theorem usesRe_eq_true {opc : Nat} : usesRe opc = true ↔ opc = 0x09 := by simp [usesRe]

/-- A field selects the register that has its value as index (30_encoding R93). -/
theorem regOf_eq_iff {f : BitVec 4} {r : Reg} : f.toNat < 8 ∧ regOf f = r ↔ f.toNat = r.index := by
  constructor
  · rintro ⟨hlt, rfl⟩
    rw [← fieldOf_toNat, fieldOf_regOf f hlt]
  · intro h
    exact ⟨h ▸ r.index_lt, by rw [regOf, h, Machine.regAt_index]⟩

end Sys2Proof

namespace Sys2Proof.Machine

/-- The decoder's list of abandoned destinations, in the bits of the word. -/
theorem mem_abandonedDests {w : Word} {r : Reg} : r ∈ abandonedDests w ↔ IsAbandoned w r := by
  have hopc : (opcOf w).toNat = bits w 7 0 := field_toNat w 0 8
  have hrd : (rdOf w).toNat = bits w 11 8 := field_toNat w 8 4
  have hrc : (rcOf w).toNat = bits w 23 20 := field_toNat w 20 4
  have hre : (reOf w).toNat = bits w 27 24 := field_toNat w 24 4
  have hfield : ∀ {u : Bool} {f : BitVec 4}, (u = true ∧ f.toNat < 8) ∧ regOf f = r ↔ u = true ∧ f.toNat = r.index := by
    intro u f
    rw [and_assoc, regOf_eq_iff]
  unfold abandonedDests IsAbandoned
  rw [← hopc, ← hrd, ← hrc, ← hre]
  by_cases hdef : 0x0B < (opcOf w).toNat
  · simp [hdef]
  · simp only [hdef, if_false, List.mem_map, List.mem_filter, Bool.and_eq_true, decide_eq_true_eq, List.mem_cons,
      List.not_mem_nil, or_false, or_and_right, exists_or, exists_eq_left, and_assoc, hfield,
      usesRd_eq_true, usesRc_eq_true, usesRe_eq_true]
    exact (and_iff_right (Nat.le_of_not_lt hdef)).symm

/-- Whatever is drawn into the registers, clearing the control state leaves the reset column of 10_state R42. -/
theorem controlReset_clearControl (s : State) (w : Option Word) : ControlReset (s.clearControl.answer w) := by
  constructor <;> rfl

/-- The soft reset of the model is that of 70_reset_and_hazards R191, whatever the port then answers. -/
theorem softReset_spec (s : State) (w : Option Word) : SoftReset (s.answer w) (s.softReset.answer w) := by
  cases hphase : s.phase with
  | idle =>
    rw [State.softReset_idle hphase]
    exact ⟨controlReset_clearControl s w, fun _ _ => rfl, rfl, rfl, rfl, rfl⟩
  | busy =>
    have hkept : ∀ r, ¬ IsAbandoned s.inflight r →
        (s.drawRegs (abandonedDests s.inflight)).regs.get r = s.regs.get r := by
      intro r hr
      rcases s.get_drawRegs (abandonedDests s.inflight) r with ⟨-, heq⟩ | ⟨hmem, -⟩
      · exact heq
      · exact absurd (mem_abandonedDests.1 hmem) hr
    have hidle : ¬ s.phase = .idle := by simp [hphase]
    rw [State.softReset_busy hphase]
    refine ⟨controlReset_clearControl _ w, fun r hr => hkept r (hr.resolve_left hidle), ?_, ?_, ?_, rfl⟩ <;>
      rw [State.drawRegs_eq] <;> rfl

/-- A `CTRL` write does what 10_state R37 and R46 say, whatever the port then answers. -/
theorem ctrlWritten_writeCtrl (s : State) (v : Word) (w : Option Word) :
    CtrlWritten (s.answer w) v ((s.writeCtrl v).answer w) := by
  unfold CtrlWritten
  cases hsrst : v.getLsbD 1 with
  | true =>
    rw [State.writeCtrl_srst hsrst]
    exact softReset_spec s w
  | false =>
    rw [State.writeCtrl_noSrst hsrst]
    cases hstart : v.getLsbD 0 with
    | false => rfl
    | true =>
      simp only [Bool.false_eq_true, if_false, if_true]
      split
      next hphase => rw [State.start_idle (s := s.setIe _) hphase]; rfl
      next hphase => rw [State.start_busy (s := s.setIe _) hphase]; rfl

end Sys2Proof.Machine
end

section
/-! The port (spec/20_memory.md R60 to R62): what an undefined access, a read and a write of each slot of the window leave. -/

namespace Sys2Proof.Machine

/-! ## Undefined accesses (20_memory R62) -/

theorem Access.defined_eq_false {a : Access} {off : Nat} :
    a.defined off = false ↔ a.bytes ≠ 4 ∨ off % 4 ≠ 0 ∨ a.lanes ≠ 0xF := by
  simp [Access.defined, or_assoc, imp_iff_not_or]

theorem State.access_undefined (s : State) {a : Access} {off : Nat} (h : a.defined off = false) :
    s.access a off = s.accessError.answer (if a.dir = .read then some 0 else none) := by
  cases hdir : a.dir <;> simp [State.access, hdir, h]

/-! ## The unmapped offsets (20_memory R70) -/

/-- Where the offset map answers a mapped slot, the offset is one of those that `IsUnmapped` leaves out. -/
theorem slotOf_unmapped {l off : Nat} (h : IsUnmapped l off) : slotOf l off = .unmapped := by
  obtain ⟨h4, -, hcontrol, hv, hctx⟩ := h
  simp only [IsCtxOffset, not_or, not_exists, not_and] at hctx
  obtain ⟨hn, hrr, hmu, hk, hninv0⟩ := hctx
  simp only [List.mem_cons, List.not_mem_nil, or_false, not_or] at hcontrol
  unfold slotOf
  split
  · simp [hcontrol]
  split
  · refine if_neg fun hj => hv (regAt ((off - 0x1000) / 0x400)) _ hj ?_
    rw [limbOffset, index_regAt (by omega)]
    omega
  split
  · exact if_neg fun hj => hn _ hj (by omega)
  split
  · exact if_neg fun hj => hrr _ hj (by omega)
  split
  · exact if_neg fun hj => hmu _ hj (by omega)
  · rfl

/-! ## Reads (20_memory R60) -/

/-- A read of a data-window word answers it, or 0 while busy (20_memory R63), and changes nothing. -/
theorem State.busRead_data {s : State} {slot : Slot} {w : Word} (h : s.dataWord slot = some w) :
    s.busRead slot = (if s.phase = .busy then 0 else w, s) := by
  cases slot <;> cases h <;>
    simp only [State.busRead, State.dataWord, Option.getD_some, State.readData, State.busy_eq_true]

/-- The word at a register limb is that limb of the register's value (10_state R43). -/
theorem State.limb_eq (s : State) (r : Reg) (j : Nat) : s.limb r j = BitVec.ofNat 32 (s.value r / 2 ^ (32 * j)) :=
  (limbOf_ofLimbs (s.regs.get r) j).symm

/-- `PARAM` as a number (10_state R36): `NREG = 8` above the 16 bits of `LIMBS`. -/
theorem paramWord_eq {p : Params} (hp : p.Valid) : paramWord p = BitVec.ofNat 32 (p.limbs + 8 * 2 ^ 16) := by
  obtain ⟨-, hlimbs, -⟩ := hp
  apply BitVec.eq_of_toNat_eq
  rw [paramWord, toNat_concat, toNat_concat]
  bv_omega

/-- `CTRL` reads `IE` in bit 2 and 0 elsewhere (10_state R37). -/
theorem State.ctrlWord_eq (s : State) : s.ctrlWord = if s.ie = true then 4 else 0 := by
  unfold State.ctrlWord
  cases s.ie <;> rfl

/-- `K` reads as the low half of its word (10_state R44). -/
theorem kWord_eq (k : BitVec 16) : (0 : BitVec 16) ++ k = BitVec.ofNat 32 k.toNat := by
  apply BitVec.eq_of_toNat_eq
  rw [toNat_concat]
  bv_omega

theorem limbOffset_lt {l : Nat} (r : Reg) {j : Nat} (hj : j < l) (hl : l ≤ 128) : limbOffset r j < 0x3000 := by
  have hr := r.index_lt
  unfold limbOffset
  omega

theorem limbOffset_aligned (r : Reg) (j : Nat) : limbOffset r j % 4 = 0 := by
  unfold limbOffset
  omega

/-! ## Writes (20_memory R61) -/

/-- The context words are read-only and an unmapped offset has none: a write there is an access error. -/
theorem State.busWrite_ctx_or_unmapped (s : State) {l off : Nat} (v : Word) (hl : l ≤ 128)
    (h : IsCtxOffset l off ∨ IsUnmapped l off) : s.busWrite (slotOf l off) v = s.accessError := by
  rcases h with (⟨j, hj, rfl⟩ | ⟨j, hj, rfl⟩ | ⟨j, hj, rfl⟩ | rfl | rfl) | hun
  · rw [slotOf_ctxN hj hl, busWrite]
  · rw [slotOf_ctxRr hj hl, busWrite]
  · rw [slotOf_ctxMu hj hl, busWrite]
  · rw [slotOf_ctxK, busWrite]
  · rw [slotOf_ctxNinv0, busWrite]
  · rw [slotOf_unmapped hun, busWrite]

theorem IsCtxOffset.lt_and_aligned {l off : Nat} (h : IsCtxOffset l off) (hl : l ≤ 128) :
    off < 0x4000 ∧ off % 4 = 0 := by
  rcases h with ⟨j, hj, rfl⟩ | ⟨j, hj, rfl⟩ | ⟨j, hj, rfl⟩ | rfl | rfl <;> omega

/-! ## The step of an access inside the window -/

section window
variable {s : State} {off : Nat} {rest : List Event} (hrst : s.rst = false)
include hrst

theorem step_access_inside {a : Access} (h : s.pending = .access a :: rest) (haddr : a.addr = s.params.base + off)
    (hoff : off < 0x4000) : step s = .next ((s.setPending rest).access a off) := by
  have hin : Params.offset (s.setPending rest).params a.addr = some off := by
    rw [haddr]
    exact Params.offset_base s.params hoff
  rw [step_access h, State.hostAccess_inside hin, if_neg (by simp [hrst])]

/-- A full-word read is `BusRead` of the slot at its offset (20_memory R60). -/
theorem step_rd {slot : Slot} (h : s.pending = rd s.params off :: rest) (hoff : off < 0x4000) (h4 : off % 4 = 0)
    (hslot : slotOf s.params.limbs off = slot) :
    step s = .next (((s.setPending rest).busRead slot).2.answer (some ((s.setPending rest).busRead slot).1)) := by
  rw [step_access_inside hrst h rfl hoff]
  simp [State.access, Access.defined, h4, hslot]

/-- A full-word write is `BusWrite` to the slot at its offset (20_memory R61). -/
theorem step_wr {v : Word} {slot : Slot} (h : s.pending = wr s.params off v :: rest) (hoff : off < 0x4000)
    (h4 : off % 4 = 0) (hslot : slotOf s.params.limbs off = slot) :
    step s = .next (((s.setPending rest).busWrite slot v).answer none) := by
  rw [step_access_inside hrst h rfl hoff]
  simp [State.access, Access.defined, h4, hslot]

/-- A full-word read of a data-window word (20_memory R60, R63). -/
theorem step_rd_data {slot : Slot} {w : Word} (h : s.pending = rd s.params off :: rest) (hoff : off < 0x4000)
    (h4 : off % 4 = 0) (hslot : slotOf s.params.limbs off = slot) (hw : s.dataWord slot = some w) :
    step s = .next { s with pending := rest, resp := some (if s.phase = .busy then 0 else w) } := by
  have hw' : (s.setPending rest).dataWord slot = some w := by
    rw [← hw]
    cases slot <;> rfl
  rw [step_rd hrst h hoff h4 hslot, State.busRead_data hw']
  rfl

/-- A write that takes effect only while idle is refused with `AERR` while busy (20_memory R61, R63). -/
theorem step_wr_idle_only {t : State} {v : Word} {slot : Slot} (h : s.pending = wr s.params off v :: rest)
    (hoff : off < 0x4000) (h4 : off % 4 = 0) (hslot : slotOf s.params.limbs off = slot)
    (hwrite : (s.setPending rest).busWrite slot v = if s.busy then (s.setPending rest).accessError else t) :
    step s = .next (if s.phase = .busy then { s with pending := rest, resp := none, aerr := true } else t.answer none) := by
  rw [step_wr hrst h hoff h4 hslot, hwrite]
  simp only [State.busy_eq_true]
  split <;> rfl

end window

/-! ## The obligations -/

/-- Settles O15: an access inside the window that is not defined is `accessError`, and every access answers a next state. -/
theorem undefinedAccessIsAnAccessError : Obligations.UndefinedAccessIsAnAccessError := by
  refine ⟨fun s a rest _ h => ⟨_, step_access h, ?_⟩, fun s a off rest hrst h haddr hoff hbad => ?_⟩
  · obtain ⟨-, hpending, -⟩ := (s.setPending rest).hostAccess_frame a
    rw [hpending, State.setPending_pending]
  · rw [step_access_inside hrst h haddr hoff, State.access_undefined _ (Access.defined_eq_false.2 hbad)]
    rfl

/-- Settles O12: each offset selects its slot, and each slot's read is known. -/
theorem busReadPrimitive : Obligations.BusReadPrimitive := by
  intro s off rest hp hrst h
  obtain ⟨-, hl, -⟩ := id hp
  refine ⟨?id, ?param, ?ctrl, ?cmd, ?status, ?vreg, ?ctxN, ?ctxRr, ?ctxMu, ?ctxK, ?ctxNinv0, ?unmapped⟩
  case id => rintro rfl; exact step_rd hrst h (by omega) rfl (slotOf_id _)
  case param =>
    rintro rfl
    rw [← paramWord_eq hp]
    exact step_rd hrst h (by omega) rfl (slotOf_param _)
  case ctrl =>
    rintro rfl
    rw [← s.ctrlWord_eq]
    exact step_rd hrst h (by omega) rfl (slotOf_ctrl _)
  case cmd => rintro rfl; exact step_rd hrst h (by omega) rfl (slotOf_cmd _)
  case status =>
    rintro rfl
    exact ⟨s.statusWord, step_rd hrst h (by omega) rfl (slotOf_status _), s.statusWord_toNat⟩
  case vreg =>
    rintro r j hj rfl
    have hlt := limbOffset_lt r hj hl
    rw [← s.limb_eq]
    exact step_rd_data hrst h (by omega) (limbOffset_aligned r j) (slotOf_vreg r hj hl) rfl
  case ctxN => rintro j hj rfl; exact step_rd_data hrst h (by omega) (by omega) (slotOf_ctxN hj hl) rfl
  case ctxRr => rintro j hj rfl; exact step_rd_data hrst h (by omega) (by omega) (slotOf_ctxRr hj hl) rfl
  case ctxMu => rintro j hj rfl; exact step_rd_data hrst h (by omega) (by omega) (slotOf_ctxMu hj hl) rfl
  case ctxK =>
    rintro rfl
    rw [← kWord_eq]
    exact step_rd_data hrst h (by omega) rfl (slotOf_ctxK _) rfl
  case ctxNinv0 => rintro rfl; exact step_rd_data hrst h (by omega) rfl (slotOf_ctxNinv0 _) rfl
  case unmapped =>
    intro hun
    obtain ⟨h4, hoff, -⟩ := id hun
    exact step_rd hrst h hoff h4 (slotOf_unmapped hun)

/-- Settles O13: each offset selects its slot, and each slot's write is known. -/
theorem busWritePrimitive : Obligations.BusWritePrimitive := by
  intro s off v rest hp hrst h
  obtain ⟨-, hl, -⟩ := hp
  refine ⟨?constant, ?ctrl, ?cmd, ?status, ?vreg, ?readOnly⟩
  case constant =>
    rintro (rfl | rfl)
    · exact step_wr hrst h (by omega) rfl (slotOf_id _)
    · exact step_wr hrst h (by omega) rfl (slotOf_param _)
  case ctrl =>
    rintro rfl
    exact ⟨_, step_wr hrst h (by omega) rfl (slotOf_ctrl _), ctrlWritten_writeCtrl (s.setPending rest) v none⟩
  case cmd =>
    rintro rfl
    exact step_wr_idle_only hrst h (by omega) rfl (slotOf_cmd _) rfl
  case status =>
    rintro rfl
    rw [step_wr hrst h (by omega) rfl (slotOf_status _), State.busWrite, State.writeStatus_eq]
    rfl
  case vreg =>
    rintro r j hj rfl
    have hlt := limbOffset_lt r hj hl
    exact step_wr_idle_only hrst h (by omega) (limbOffset_aligned r j) (slotOf_vreg r hj hl) rfl
  case readOnly =>
    intro hoff
    have hmapped : off < 0x4000 ∧ off % 4 = 0 := by
      rcases id hoff with hctx | ⟨h4, hlt, -⟩
      · exact hctx.lt_and_aligned hl
      · exact ⟨hlt, h4⟩
    obtain ⟨hlt, h4⟩ := hmapped
    rw [step_wr hrst h hlt h4 rfl, State.busWrite_ctx_or_unmapped _ v hl hoff]
    rfl

end Sys2Proof.Machine
end

section
/-! The decoder (30_encoding R95 to R97): its checks in the bits of the word, what it answers where each of them fails, and that the
command it reads from a word that passes them all encodes to that word. -/

namespace Sys2Proof.Machine

section fields
variable (w : Word)

theorem opcOf_toNat : (opcOf w).toNat = bits w 7 0 := field_toNat w 0 8
theorem rdOf_toNat : (rdOf w).toNat = bits w 11 8 := field_toNat w 8 4
theorem raOf_toNat : (raOf w).toNat = bits w 15 12 := field_toNat w 12 4
theorem rbOf_toNat : (rbOf w).toNat = bits w 19 16 := field_toNat w 16 4
theorem rcOf_toNat : (rcOf w).toNat = bits w 23 20 := field_toNat w 20 4
theorem reOf_toNat : (reOf w).toNat = bits w 27 24 := field_toNat w 24 4
theorem rsvOf_toNat : (rsvOf w).toNat = bits w 31 28 := field_toNat w 28 4

end fields

/-! ## The checks, field by field -/

theorem usesRa_eq_true {opc : Nat} : usesRa opc = true ↔ 0x01 ≤ opc := by
  simp only [usesRa, decide_eq_true_eq, List.mem_singleton]
  omega

theorem usesRb_eq_true {opc : Nat} : usesRb opc = true ↔ opc ∈ [0x02, 0x05, 0x06, 0x07, 0x08, 0x09, 0x0A] :=
  decide_eq_true_iff

/-- The first group of checks, as the decoder makes them. -/
theorem hasIllegalBits_iff {w : Word} : HasIllegalBits w ↔
    0x0B < (opcOf w).toNat ∨ rsvOf w ≠ 0 ∨ (fieldsOf w).any (fun f => !f.1 && f.2 != 0) = true := by
  have hzero : ∀ f : BitVec 4, f = 0 ↔ f.toNat = 0 := fun _ => BitVec.toNat_inj.symm
  simp only [HasIllegalBits, ← opcOf_toNat, ← rdOf_toNat, ← raOf_toNat, ← rbOf_toNat, ← rcOf_toNat, ← reOf_toNat,
    ← rsvOf_toNat]
  by_cases hopc : 0x0B < (opcOf w).toNat
  · simp only [hopc, true_or]
  · simp only [fieldsOf, List.any_cons, List.any_nil, Bool.or_false, Bool.or_eq_true, Bool.and_eq_true, Bool.not_eq_true',
      ← Bool.not_eq_true, usesRd_eq_true, usesRa_eq_true, usesRb_eq_true, usesRc_eq_true, usesRe_eq_true, bne_iff_ne, ne_eq,
      hzero, List.mem_cons, List.not_mem_nil, or_false]
    omega

/-- The second group, as the decoder makes it. -/
theorem hasBadRegister_iff {w : Word} : HasBadRegister w ↔
    (fieldsOf w).any (fun f => f.1 && decide (8 ≤ f.2.toNat)) = true := by
  simp only [HasBadRegister, ← opcOf_toNat, ← rdOf_toNat, ← raOf_toNat, ← rbOf_toNat, ← rcOf_toNat, ← reOf_toNat, fieldsOf,
    List.any_cons, List.any_nil, Bool.or_false, Bool.or_eq_true, Bool.and_eq_true, decide_eq_true_eq, usesRd_eq_true,
    usesRa_eq_true, usesRb_eq_true, usesRc_eq_true, usesRe_eq_true]

theorem not_hasIllegalBits_iff {w : Word} : ¬ HasIllegalBits w ↔
    (opcOf w).toNat ≤ 0x0B ∧ rsvOf w = 0 ∧ ∀ f ∈ fieldsOf w, f.1 = false → f.2 = 0 := by
  simp [hasIllegalBits_iff]

theorem not_hasBadRegister_iff {w : Word} : ¬ HasBadRegister w ↔ ∀ f ∈ fieldsOf w, f.1 = true → f.2.toNat < 8 := by
  simp [hasBadRegister_iff]

/-! ## What the decoder answers -/

/-- The command the decoder reads from the fields of a word, before it looks at repeated destinations. -/
def commandIn (w : Word) : Instr :=
  commandOf (opcOf w).toNat (regOf (rdOf w)) (regOf (raOf w)) (regOf (rbOf w)) (regOf (rcOf w)) (regOf (reOf w))

theorem decode_of_hasIllegalBits {w : Word} (h : HasIllegalBits w) : decode w = .error .illegal := by
  unfold decode
  split
  · rfl
  next hopc =>
    split
    · rfl
    next hrsv => rw [if_pos (((hasIllegalBits_iff.1 h).resolve_left hopc).resolve_left hrsv)]

/-- After the first group the decoder checks the registers, then the destinations. -/
theorem decode_of_not_hasIllegalBits {w : Word} (h : ¬ HasIllegalBits w) :
    decode w = if (fieldsOf w).any (fun f => f.1 && decide (8 ≤ f.2.toNat)) then .error .badreg
      else if (commandIn w).wellFormed then .ok (commandIn w) else .error .illegal := by
  simp only [hasIllegalBits_iff, not_or] at h
  obtain ⟨hopc, hrsv, hunused⟩ := h
  rw [decode, if_neg hopc, if_neg hrsv, if_neg hunused]
  rfl

theorem decode_of_hasBadRegister {w : Word} (hlegal : ¬ HasIllegalBits w) (h : HasBadRegister w) :
    decode w = .error .badreg := by
  rw [decode_of_not_hasIllegalBits hlegal, if_pos (hasBadRegister_iff.1 h)]

/-- A word that passes the checks of its fields decodes to the command in it, unless that repeats a destination. -/
theorem decode_of_fields {w : Word} (hlegal : ¬ HasIllegalBits w) (hregs : ¬ HasBadRegister w) :
    decode w = if (commandIn w).wellFormed then .ok (commandIn w) else .error .illegal := by
  rw [decode_of_not_hasIllegalBits hlegal, if_neg (hasBadRegister_iff.not.1 hregs)]

/-! ## The command of an opcode -/

section commandOf
variable {opc : Nat} (hopc : opc ≤ 0x0B) (d a b c e : Reg)
include hopc

theorem opcodeOf_commandOf : opcodeOf (commandOf opc d a b c e) = BitVec.ofNat 8 opc := by
  interval_cases opc <;> rfl

/-- Each operand is in its field, and an unused field is 0 (30_encoding R91, R99). -/
theorem encode_commandOf : encode (commandOf opc d a b c e) =
    mkWord 0 (if usesRe opc then fieldOf e else 0) (if usesRc opc then fieldOf c else 0) (if usesRb opc then fieldOf b else 0)
      (if usesRa opc then fieldOf a else 0) (if usesRd opc then fieldOf d else 0) (BitVec.ofNat 8 opc) := by
  interval_cases opc <;> rfl

/-- Only `MULW` and `EGCD` can repeat a destination (30_encoding R96). -/
theorem wellFormed_commandOf : (commandOf opc d a b c e).wellFormed = true ↔
    ¬ ((opc = 0x07 ∧ d = c) ∨ (opc = 0x09 ∧ (d = c ∨ d = e ∨ c = e))) := by
  interval_cases opc <;> simp [commandOf, Instr.wellFormed, and_assoc]

end commandOf

/-- Fields below 8 select the same register exactly if they are equal (30_encoding R93). -/
theorem regOf_eq_regOf_iff {f g : BitVec 4} (hf : f.toNat < 8) (hg : g.toNat < 8) : regOf f = regOf g ↔ f.toNat = g.toNat := by
  have hindex : (regOf g).index = g.toNat := by rw [← fieldOf_toNat, fieldOf_regOf g hg]
  rw [← hindex, ← regOf_eq_iff, and_iff_right hf]

/-! ## The command in a word that passes the checks of its fields -/

theorem opcodeOf_commandIn {w : Word} (hlegal : ¬ HasIllegalBits w) : opcodeOf (commandIn w) = opcOf w := by
  obtain ⟨hopc, -, -⟩ := not_hasIllegalBits_iff.1 hlegal
  rw [commandIn, opcodeOf_commandOf hopc, BitVec.ofNat_toNat, BitVec.setWidth_eq]

section passed
variable {w : Word} (hlegal : ¬ HasIllegalBits w) (hregs : ¬ HasBadRegister w)
include hlegal hregs

/-- A used field is the field of the register it selects, and an unused one is 0. -/
theorem field_of_mem_fieldsOf {u : Bool} {f : BitVec 4} (hf : (u, f) ∈ fieldsOf w) :
    (if u then fieldOf (regOf f) else 0) = f := by
  obtain ⟨-, -, hunused⟩ := not_hasIllegalBits_iff.1 hlegal
  cases u with
  | true => exact fieldOf_regOf f (not_hasBadRegister_iff.1 hregs _ hf rfl)
  | false => exact (hunused _ hf rfl).symm

/-- The command in a word has every bit of the word (30_encoding R92). -/
theorem encode_commandIn : encode (commandIn w) = w := by
  obtain ⟨hopc, hrsv, -⟩ := not_hasIllegalBits_iff.1 hlegal
  have hfield : ∀ p ∈ fieldsOf w, (if p.1 then fieldOf (regOf p.2) else 0) = p.2 :=
    fun _ hp => field_of_mem_fieldsOf hlegal hregs hp
  simp only [fieldsOf, List.forall_mem_cons] at hfield
  obtain ⟨hrd, hra, hrb, hrc, hre, -⟩ := hfield
  rw [commandIn, encode_commandOf hopc, hrd, hra, hrb, hrc, hre, BitVec.ofNat_toNat, BitVec.setWidth_eq, ← hrsv, mkWord_fields]

theorem wellFormed_commandIn : (commandIn w).wellFormed = true ↔ ¬ RepeatsDestination w := by
  obtain ⟨hopc, -, -⟩ := not_hasIllegalBits_iff.1 hlegal
  have hused := not_hasBadRegister_iff.1 hregs
  simp only [fieldsOf, List.forall_mem_cons, usesRd_eq_true, usesRc_eq_true, usesRe_eq_true] at hused
  obtain ⟨hrd, -, -, hrc, hre, -⟩ := hused
  rw [commandIn, wellFormed_commandOf hopc, RepeatsDestination]
  simp only [← opcOf_toNat, ← rdOf_toNat, ← rcOf_toNat, ← reOf_toNat]
  refine not_congr (or_congr (and_congr_right fun h => ?mulw) (and_congr_right fun h => ?egcd))
  case mulw => exact regOf_eq_regOf_iff (hrd (by omega)) (hrc (.inl h))
  case egcd =>
    rw [regOf_eq_regOf_iff (hrd (by omega)) (hrc (.inr h)), regOf_eq_regOf_iff (hrd (by omega)) (hre h),
      regOf_eq_regOf_iff (hrc (.inr h)) (hre h)]

end passed

/-- Settles O3: the decoder's branches are its checks, and the command in a word that passes them encodes to that word. -/
theorem decodeChecksInOrder : Obligations.DecodeChecksInOrder := by
  intro w
  refine ⟨decode_of_hasIllegalBits, decode_of_hasBadRegister, fun hlegal hregs hrep => ?repeated,
    fun hlegal hregs hrep => ?command⟩
  case repeated => rw [decode_of_fields hlegal hregs, if_neg (mt (wellFormed_commandIn hlegal hregs).1 (not_not.2 hrep))]
  case command =>
    refine ⟨commandIn w, ?_, encode_commandIn hlegal hregs, ?_⟩
    · rw [decode_of_fields hlegal hregs, if_pos ((wellFormed_commandIn hlegal hregs).2 hrep)]
    · rw [opcodeOf_commandIn hlegal, opcOf_toNat]

/-! ## The completion of the word in flight (10_state R45, 30_encoding R97) -/

theorem step_of_engineIsNext {s : State} {rest : List Event} (h : EngineIsNext s rest) :
    step s = engineStep (s.setPending rest) := by
  rcases h with ⟨hnil, rfl⟩ | hcons
  · rw [step_nil hnil]
    exact congrArg engineStep (congrArg s.setPending hnil)
  · exact step_engine hcons

@[simp] theorem State.complete_phase (s : State) (r : CmdResult) : (s.complete r).phase = .idle := by
  rcases r with ⟨ws, c⟩ | code
  · rw [State.complete_ok]
  · rfl

/-- Settles O5: the engine's turn fails with the decoder's error or completes the command decoded, and O3 says which. -/
theorem everyWordCompletesOrFails : Obligations.EveryWordCompletesOrFails := by
  refine ⟨by decide, fun s rest hphase hrst hnext => ?_⟩
  obtain ⟨hillegal, hbadreg, hrepeated, hcommand⟩ := decodeChecksInOrder s.inflight
  rw [step_of_engineIsNext hnext]
  cases hd : decode s.inflight with
  | error code =>
    have hfailed : ∀ {c : ErrCode}, decode s.inflight = .error c →
        Failed (s.setPending rest) ((s.setPending rest).failWith code) c := by
      intro c hc
      cases hd.symm.trans hc
      exact Failed.of_err _ code
    refine ⟨_, engineStep_error hphase hrst hd, rfl, fun h => hfailed (hillegal h), fun h h' => hfailed (hbadreg h h'),
      fun h h' h'' => hfailed (hrepeated h h' h''), fun h h' h'' => ?_⟩
    obtain ⟨i, hi, -⟩ := hcommand h h' h''
    cases hd.symm.trans hi
  | ok i =>
    have hno : ∀ {c : ErrCode}, decode s.inflight ≠ .error c := by
      intro c hc
      cases hd.symm.trans hc
    have hstep : engineStep (s.setPending rest) = exec i (s.setPending rest) := engineStep_ok hphase hrst hd
    refine ⟨_, hstep.trans (exec_eq i _), State.complete_phase _ _, fun h => absurd (hillegal h) hno,
      fun h h' => absurd (hbadreg h h') hno, fun h h' h'' => absurd (hrepeated h h' h'') hno, fun h h' h'' => ?_⟩
    obtain ⟨j, hj, henc, -⟩ := hcommand h h' h''
    cases hd.symm.trans hj
    exact ⟨i, rfl, fun k hk => by cases hk; rfl, henc, exec_eq i _⟩

end Sys2Proof.Machine
end

section
/-! The pseudo-instructions of 30_encoding R101: what an assembler line gives for the mnemonic it names, so that two mnemonics with
the same command assemble alike. -/

namespace Sys2Proof.Machine

theorem assemble_eq_bind {m : List Char} {k : Mnemonic} (h : parseMnemonic m = some k) (ops : List (List Char)) :
    assemble m ops = (ops.mapM parseReg).bind fun rs => (instrOf k rs).map encode := by
  rw [assemble, h]
  cases ops.mapM parseReg <;> rfl

theorem instrOf_encrypt_decrypt (rs : List Reg) :
    instrOf .encrypt rs = instrOf .modexp rs ∧ instrOf .decrypt rs = instrOf .modexp rs := by
  rcases rs with _ | ⟨d, _ | ⟨a, _ | ⟨b, _ | ⟨c, rs⟩⟩⟩⟩ <;> exact ⟨rfl, rfl⟩

theorem instrOf_gcd (rs : List Reg) : instrOf .gcd rs = instrOf .egcd rs := by
  rcases rs with _ | ⟨g, _ | ⟨x, _ | ⟨y, _ | ⟨a, _ | ⟨b, _ | ⟨z, rs⟩⟩⟩⟩⟩⟩ <;> rfl

/-- A mnemonic with the commands of another assembles as the other does. -/
theorem assemble_congr {m m' : List Char} {k k' : Mnemonic} (h : parseMnemonic m = some k) (h' : parseMnemonic m' = some k')
    (hk : ∀ rs, instrOf k rs = instrOf k' rs) (ops : List (List Char)) : assemble m ops = assemble m' ops := by
  simp only [assemble_eq_bind h, assemble_eq_bind h', hk]

/-- A mnemonic of two operands whose command is another's with the source twice (the squares of 30_encoding R101). -/
theorem assemble_square {m m' : List Char} {k k' : Mnemonic} (h : parseMnemonic m = some k) (h' : parseMnemonic m' = some k')
    (hk : ∀ d a, instrOf k [d, a] = instrOf k' [d, a, a]) (d a : List Char) : assemble m [d, a] = assemble m' [d, a, a] := by
  rw [assemble_eq_bind h, assemble_eq_bind h']
  cases hd : parseReg d with
  | none => simp [hd]
  | some rd =>
    cases ha : parseReg a with
    | none => simp [hd, ha]
    | some ra => simp [hd, ha, hk]

/-- Settles O6: on register names from `assemble_names`, on any spellings because both lines name the same command. -/
theorem pseudoInstructionsAssemble : Obligations.PseudoInstructionsAssemble := by
  have montsqr : parseMnemonic ['M', 'O', 'N', 'T', 'S', 'Q', 'R'] = some .montsqr := by decide
  have modsqr : parseMnemonic ['M', 'O', 'D', 'S', 'Q', 'R'] = some .modsqr := by decide
  have encrypt : parseMnemonic ['E', 'N', 'C', 'R', 'Y', 'P', 'T'] = some .encrypt := by decide
  have decrypt : parseMnemonic ['D', 'E', 'C', 'R', 'Y', 'P', 'T'] = some .decrypt := by decide
  have gcd : parseMnemonic ['G', 'C', 'D'] = some .gcd := by decide
  have montmul : parseMnemonic ['M', 'O', 'N', 'T', 'M', 'U', 'L'] = some .montmul := by decide
  have modmul : parseMnemonic ['M', 'O', 'D', 'M', 'U', 'L'] = some .modmul := by decide
  have modexp : parseMnemonic ['M', 'O', 'D', 'E', 'X', 'P'] = some .modexp := by decide
  have egcd : parseMnemonic ['E', 'G', 'C', 'D'] = some .egcd := by decide
  exact ⟨fun d a => assemble_names montsqr [d, a], fun d a => assemble_names modsqr [d, a],
    fun c m e => assemble_names encrypt [c, m, e], fun m c d => assemble_names decrypt [m, c, d],
    fun g x y a b => assemble_names gcd [g, x, y, a, b],
    assemble_square montsqr montmul fun _ _ => rfl, assemble_square modsqr modmul fun _ _ => rfl,
    fun c m e => assemble_congr encrypt modexp (fun rs => (instrOf_encrypt_decrypt rs).1) [c, m, e],
    fun m c d => assemble_congr decrypt modexp (fun rs => (instrOf_encrypt_decrypt rs).2) [m, c, d],
    fun g x y a b => assemble_congr gcd egcd instrOf_gcd [g, x, y, a, b]⟩

end Sys2Proof.Machine
end

section
/-! The command word of a rule (30_encoding R90 to R95): the encoder's word of a well-formed command decodes to that command, and
what the word is as a number. -/

namespace Sys2Proof.Machine

theorem encodedFields (i : Instr) : Laws.EncodedFields.Statement i := by
  cases i with
  | nop => exact Laws.EncodedFields.nop
  | setmod a => exact Laws.EncodedFields.setmod a
  | montmul d a b => exact Laws.EncodedFields.montmul d a b
  | tomont d a => exact Laws.EncodedFields.tomont d a
  | frommont d a => exact Laws.EncodedFields.frommont d a
  | modmul d a b => exact Laws.EncodedFields.modmul d a b
  | bred d hi lo => exact Laws.EncodedFields.bred d hi lo
  | mulw lo hi a b => exact Laws.EncodedFields.mulw lo hi a b
  | modexp d a b => exact Laws.EncodedFields.modexp d a b
  | egcd g x y a b => exact Laws.EncodedFields.egcd g x y a b
  | modinv d a m => exact Laws.EncodedFields.modinv d a m
  | mov d a => exact Laws.EncodedFields.mov d a

theorem not_hasIllegalBits_encode (i : Instr) : ¬ HasIllegalBits (encode i) := by
  obtain ⟨hopc, hdefined, hrsv, hfields⟩ := encodedFields i
  rw [not_hasIllegalBits_iff, hopc]
  exact ⟨hdefined, hrsv, fun f hf hunused => by simpa [hunused] using hfields f hf⟩

theorem not_hasBadRegister_encode (i : Instr) : ¬ HasBadRegister (encode i) := by
  obtain ⟨-, -, -, hfields⟩ := encodedFields i
  exact not_hasBadRegister_iff.2 fun f hf hused => by simpa [hused] using hfields f hf

/-- The decoder reads each operand from the field the encoder puts it in (30_encoding R91, R99). -/
theorem commandIn_encode (i : Instr) : commandIn (encode i) = i := by
  cases i <;> simp [commandIn, encode, opcodeOf, commandOf]

theorem decode_encode {i : Instr} (h : i.wellFormed = true) : decode (encode i) = .ok i := by
  rw [decode_of_fields (not_hasIllegalBits_encode i) (not_hasBadRegister_encode i), commandIn_encode, if_pos h]

theorem mkWord_eq_ofNat (rsv re rc rb ra rd : BitVec 4) (opc : BitVec 8) : mkWord rsv re rc rb ra rd opc =
    BitVec.ofNat 32 (rsv.toNat * 2 ^ 28 + re.toNat * 2 ^ 24 + rc.toNat * 2 ^ 20 + rb.toNat * 2 ^ 16 + ra.toNat * 2 ^ 12 +
      rd.toNat * 2 ^ 8 + opc.toNat) := by
  rw [← mkWord_toNat, BitVec.ofNat_toNat, BitVec.setWidth_eq]

end Sys2Proof.Machine
end

section
/-! The constants of a modulus (40_control R113, R114): the size of the Barrett constant, and the Montgomery constant as
the one solution of its congruence. -/

namespace Sys2Proof.Machine

/-! ## The Barrett constant (40_control R114) -/

theorem two_le_bitlen {n : Nat} (hn : 2 ≤ n) : 2 ≤ bitlen n := by
  have hnot : ¬ bitlen n ≤ 1 := by rw [bitlen_le_iff]; omega
  omega

section barrett
variable {n : Nat} (hn : 2 ≤ n)
include hn

/-- Because `N ≥ 2^(k-1)`. -/
theorem barrettConst_le : 2 ^ (2 * bitlen n) / n ≤ 2 ^ (bitlen n + 1) := by
  have hk := two_le_bitlen hn
  apply Nat.div_le_of_le_mul
  calc 2 ^ (2 * bitlen n) = 2 ^ (bitlen n - 1) * 2 ^ (bitlen n + 1) := by rw [← pow_add]; congr 1; omega
    _ ≤ n * 2 ^ (bitlen n + 1) := Nat.mul_le_mul_right _ (pow_bitlen_le (by omega))

/-- Because `N + 1 ≤ 2^k`. -/
theorem lt_barrettConst : 2 ^ bitlen n < 2 ^ (2 * bitlen n) / n := by
  have hlt := lt_pow_bitlen n
  rw [← Nat.succ_le_iff, Nat.le_div_iff_mul_le (by omega)]
  calc (2 ^ bitlen n + 1) * n = 2 ^ bitlen n * n + n := by ring
    _ ≤ 2 ^ bitlen n * n + 2 ^ bitlen n := Nat.add_le_add_left hlt.le _
    _ = 2 ^ bitlen n * (n + 1) := by ring
    _ ≤ 2 ^ bitlen n * 2 ^ bitlen n := Nat.mul_le_mul_left _ hlt
    _ = 2 ^ (2 * bitlen n) := by rw [← pow_add, two_mul]

/-- The Barrett constant reaches its bound exactly for the least modulus of `k` bits. -/
theorem pow_le_barrettConst_iff : 2 ^ (bitlen n + 1) ≤ 2 ^ (2 * bitlen n) / n ↔ n = 2 ^ (bitlen n - 1) := by
  have hk := two_le_bitlen hn
  have hlo : 2 ^ (bitlen n - 1) ≤ n := pow_bitlen_le (by omega)
  have hsplit : 2 ^ (2 * bitlen n) = 2 ^ (bitlen n + 1) * 2 ^ (bitlen n - 1) := by rw [← pow_add]; congr 1; omega
  rw [Nat.le_div_iff_mul_le (by omega), hsplit, Nat.mul_le_mul_left_iff (by positivity)]
  exact ⟨fun hle => hle.antisymm hlo, fun heq => heq.le⟩

theorem bitlen_barrettConst :
    bitlen (2 ^ (2 * bitlen n) / n) = bitlen n + 1 ∨ bitlen (2 ^ (2 * bitlen n) / n) = bitlen n + 2 := by
  have hlow : ¬ bitlen (2 ^ (2 * bitlen n) / n) ≤ bitlen n := by
    rw [bitlen_le_iff]
    exact (lt_barrettConst hn).not_gt
  have hhigh : bitlen (2 ^ (2 * bitlen n) / n) ≤ bitlen n + 2 :=
    (bitlen_le_iff _ _).2 ((barrettConst_le hn).trans_lt (Nat.pow_lt_pow_right (by omega) (by omega)))
  omega

theorem bitlen_barrettConst_iff : bitlen (2 ^ (2 * bitlen n) / n) = bitlen n + 2 ↔ n = 2 ^ (bitlen n - 1) := by
  have hcases := bitlen_barrettConst hn
  rw [← pow_le_barrettConst_iff hn, ← not_lt, ← bitlen_le_iff]
  omega

end barrett

/-- Settles O59, from the two bounds of the Barrett constant and the case of the least modulus. -/
theorem barrettConstantBounds : Obligations.BarrettConstantBounds := by
  rintro n k hn rfl
  have hle := barrettConst_le hn
  refine ⟨pow_bitlen_le (by omega), lt_pow_bitlen n, lt_barrettConst hn, hle, bitlen_barrettConst hn, bitlen_barrettConst_iff hn,
    fun h => hle.antisymm ((pow_le_barrettConst_iff hn).2 h), fun l hl => ?_⟩
  exact hle.trans_lt (Nat.pow_lt_pow_right (by omega) (by omega))

/-! ## The Montgomery constant (40_control R113) -/

theorem montConst_cast (n : Nat) : ((montConst n).toNat : Int) = -(inv (n % 2 ^ 32) (2 ^ 32) : Int) % 2 ^ 32 := by
  have hlt := inv_lt (n % 2 ^ 32) (m := 2 ^ 32) (by omega)
  rw [montConst, BitVec.toNat_neg, BitVec.toNat_ofNat]
  omega

/-- An odd number is invertible modulo `2^32`. -/
theorem coprime_pow_of_odd {n : Nat} (h : n % 2 = 1) : Nat.Coprime n (2 ^ 32) :=
  (Nat.coprime_two_right.2 (Nat.odd_iff.2 h)).pow_right 32

theorem montConst_spec {n : Nat} (h : n % 2 = 1) : n * (montConst n).toNat + 1 ≡ 0 [MOD 2 ^ 32] := by
  have hcop : Nat.gcd (n % 2 ^ 32) (2 ^ 32) = 1 := coprime_pow_of_odd (by omega)
  have hinv : n * inv (n % 2 ^ 32) (2 ^ 32) ≡ 1 [MOD 2 ^ 32] :=
    ((Nat.mod_modEq n (2 ^ 32)).symm.mul_right _).trans (mul_inv_modEq (by omega) hcop)
  have hneg : ((montConst n).toNat : Int) ≡ -(inv (n % 2 ^ 32) (2 ^ 32) : Int) [ZMOD 2 ^ 32] := by
    rw [montConst_cast]
    exact Int.mod_modEq _ _
  rw [← Int.natCast_modEq_iff] at hinv ⊢
  push_cast at hinv ⊢
  calc (n : Int) * (montConst n).toNat + 1
      ≡ n * -(inv (n % 2 ^ 32) (2 ^ 32) : Int) + 1 [ZMOD 2 ^ 32] := (hneg.mul_left _).add_right 1
    _ = -(n * inv (n % 2 ^ 32) (2 ^ 32)) + 1 := by ring
    _ ≡ -1 + 1 [ZMOD 2 ^ 32] := hinv.neg.add_right 1
    _ = 0 := by ring

/-- Two solutions are congruent, because `N` cancels modulo `2^32`. -/
theorem eq_montConst {n : Nat} (h : n % 2 = 1) {v : Word} (hv : n * v.toNat + 1 ≡ 0 [MOD 2 ^ 32]) : v = montConst n := by
  have hprod : n * v.toNat ≡ n * (montConst n).toNat [MOD 2 ^ 32] := (hv.trans (montConst_spec h).symm).add_right_cancel' 1
  have hcancel := hprod.cancel_left_of_coprime (coprime_pow_of_odd h).symm
  exact BitVec.eq_of_toNat_eq (hcancel.eq_of_lt_of_lt v.isLt (montConst n).isLt)

/-- Settles O60, from the inverse modulo `2^32` and cancellation. -/
theorem montgomeryConstantIsUnique : Obligations.MontgomeryConstantIsUnique := by
  intro n hn
  exact ⟨montConst_spec hn, fun v hv => eq_montConst hn hv, fun m hm => by rw [montConst, montConst, hm]⟩

end Sys2Proof.Machine
end

section
/-! The control and set-up commands (spec/40_control.md): the words of their rules, and what each leaves. -/

namespace Sys2Proof.Machine

/-! ## `NOP` (40_control R110) -/

/-- `NOP` uses no field, so a word with its opcode that passed the first checks would be its only word, which is 0. -/
theorem hasIllegalBits_of_opcode_zero {w : Word} (hopc : bits w 7 0 = 0) (hw : w ≠ 0) : HasIllegalBits w := by
  by_contra hlegal
  have hregs : ¬ HasBadRegister w := by simp [HasBadRegister, hopc]
  have hnop : commandIn w = .nop := by rw [commandIn, opcOf_toNat, hopc]; rfl
  have hword : w = encode .nop := by rw [← hnop, encode_commandIn hlegal hregs]
  exact hw hword

/-- Settles O35: the decoder refuses the bits above the opcode, and the completion step writes nothing. -/
theorem nopDoesNothing : Obligations.NopDoesNothing := by
  refine ⟨decode_encode (i := .nop) rfl, fun w hopc hw => ?_, fun s => ?_⟩
  · exact decode_of_hasIllegalBits (hasIllegalBits_of_opcode_zero hopc hw)
  · exact ⟨_, exec_eq .nop s, Succeeded.of_writes s rfl⟩

/-! ## `MOV` (40_control R111) -/

theorem encode_mov (d a : Reg) : encode (.mov d a) = BitVec.ofNat 32 (a.index * 2 ^ 12 + d.index * 2 ^ 8 + 0x0B) := by
  simp [encode, opcodeOf, mkWord_eq_ofNat]

/-- Writing the value of a register copies its limbs, because it has `L` of them. -/
theorem State.Inv.toLimbs_value {s : State} (h : s.Inv) (r : Reg) : toLimbs s.params.limbs (s.value r) = s.regs.get r := by
  rw [← h.regs r]
  exact toLimbs_ofLimbs _

/-- Settles O36: the destination takes the limbs of the source's value, which are the source's. -/
theorem movCopiesARegister : Obligations.MovCopiesARegister := by
  intro d a s h
  refine ⟨encode_mov d a ▸ decode_encode rfl, _, exec_eq (.mov d a) s, Succeeded.of_writes s rfl, ?_⟩
  rw [answerOf, movResult, writeOne, State.complete_ok]
  simp [h.toLimbs_value a]

/-! ## `SETMOD` (40_control R112) -/

theorem encode_setmod (a : Reg) : encode (.setmod a) = BitVec.ofNat 32 (a.index * 2 ^ 12 + 0x01) := by
  simp [encode, opcodeOf, mkWord_eq_ofNat]

theorem State.statusWord_getLsbD_ctxv (s : State) : s.statusWord.getLsbD 12 = s.ctx.valid := by
  simp only [State.statusWord, BitVec.getLsbD_append]
  exact bit_getLsbD_zero s.ctx.valid

theorem State.statusWord_getLsbD_ctxodd (s : State) : s.statusWord.getLsbD 13 = s.ctx.odd := by
  simp only [State.statusWord, BitVec.getLsbD_append]
  exact bit_getLsbD_zero s.ctx.odd

theorem State.Inv.bitlen_value_le {s : State} (h : s.Inv) (r : Reg) : bitlen (s.value r) ≤ s.width :=
  (bitlen_le_iff _ _).2 (h.value_lt r)

/-- Settles O37: the context is `contextOf`, whose `K` holds the bit length whole and whose constants are those of R113 and R114. -/
theorem setmodLoadsTheContext : Obligations.SetmodLoadsTheContext := by
  intro a s h
  refine ⟨encode_setmod a ▸ decode_encode rfl, _, exec_eq (.setmod a) s, fun hbad => ?_, fun hn => ?_⟩
  · rw [answerOf, setmodResult, if_pos hbad]
    exact Failed.of_err s .badmod
  · have hctx : (s.complete (answerOf (.setmod a) s)).ctx = contextOf s.width (s.value a) := by
      rw [answerOf, setmodResult, if_neg (by omega), State.complete_ok]
      rfl
    have hwidth := h.width_le
    have hlen := h.bitlen_value_le a
    have hk : (contextOf s.width (s.value a)).k.toNat = bitlen (s.value a) := contextOf_k s.width (by omega)
    rw [State.statusWord_getLsbD_ctxv, State.statusWord_getLsbD_ctxodd, hctx, hk]
    refine ⟨?succeeded, rfl, rfl, decide_eq_true_iff, two_le_bitlen hn, hlen, pow_bitlen_le (by omega), lt_pow_bitlen _, rfl,
      fun hodd => ?odd, fun heven => ?even, rfl, rfl⟩
    case succeeded =>
      rw [answerOf, setmodResult, if_neg (by omega)]
      exact Succeeded.of_ctx s _
    case odd =>
      have hninv0 : (contextOf s.width (s.value a)).ninv0 = montConst (s.value a) := if_pos hodd
      rw [hninv0]
      exact ⟨montConst_cast _, montConst_spec hodd, if_pos hodd⟩
    case even =>
      have hnot : ¬ s.value a % 2 = 1 := by omega
      exact ⟨if_neg hnot, if_neg hnot⟩

end Sys2Proof.Machine
end

section
/-! The Montgomery datapath (41_multiply_reduce R125): what one limb step and the limb loop keep, and that the result is the one
residue whose product with the radix is the product of the operands, which the closed form of R122 names. -/

namespace Sys2Proof.Machine

/-! ## The closed form (41_multiply_reduce R121, R122) -/

section radix
variable {n : Nat} (hodd : n % 2 = 1)
include hodd

/-- The radix is a power of two, so an odd modulus is coprime to it (41_multiply_reduce R121). -/
theorem coprime_radix (w : Nat) : Nat.Coprime (2 ^ w) n :=
  (Nat.coprime_two_left.2 (Nat.odd_iff.2 hodd)).pow_left w

theorem radix_mul_radixInv (w : Nat) : 2 ^ w * radixInv w n ≡ 1 [MOD n] := by
  have hcop : Nat.gcd (2 ^ w % n) n = 1 := (Nat.mod_modEq _ n).gcd_eq.trans (coprime_radix hodd w)
  exact ((Nat.mod_modEq _ n).symm.mul_right _).trans (mul_inv_modEq (by omega) hcop)

/-- The closed form is a residue whose product with the radix is `z`. -/
theorem mul_radixInv_mod_mul_radix (w z : Nat) : z * radixInv w n % n * 2 ^ w ≡ z [MOD n] := calc
  z * radixInv w n % n * 2 ^ w
    ≡ z * radixInv w n * 2 ^ w [MOD n] := (Nat.mod_modEq _ n).mul_right _
  _ = z * (2 ^ w * radixInv w n) := by ring
  _ ≡ z * 1 [MOD n] := (radix_mul_radixInv hodd w).mul_left z
  _ = z := mul_one z

/-- It is the only one, because the radix cancels modulo `n`. -/
theorem eq_mul_radixInv_mod {w t z : Nat} (ht : t < n) (htz : t * 2 ^ w ≡ z [MOD n]) : t = z * radixInv w n % n := by
  have hprod : t * 2 ^ w ≡ z * radixInv w n % n * 2 ^ w [MOD n] := htz.trans (mul_radixInv_mod_mul_radix hodd w z).symm
  have hcancel : t ≡ z * radixInv w n % n [MOD n] := hprod.cancel_right_of_coprime (coprime_radix hodd w).symm
  exact hcancel.eq_of_lt_of_lt ht (Nat.mod_lt _ (by omega))

end radix

/-! ## One limb step -/

/-- The multiple of `n` that a limb step adds makes the low 32 bits 0, because `n * NINV0 + 1` is 0 modulo `2^32`. -/
theorem add_montConst_mul_modEq {n : Nat} (hodd : n % 2 = 1) (u : Nat) :
    u + u % 2 ^ 32 * (montConst n).toNat % 2 ^ 32 * n ≡ 0 [MOD 2 ^ 32] := by
  have hm : u % 2 ^ 32 * (montConst n).toNat % 2 ^ 32 ≡ u * (montConst n).toNat [MOD 2 ^ 32] :=
    (Nat.mod_modEq _ _).trans ((Nat.mod_modEq u _).mul_right _)
  calc u + u % 2 ^ 32 * (montConst n).toNat % 2 ^ 32 * n
      ≡ u + u * (montConst n).toNat * n [MOD 2 ^ 32] := (hm.mul_right n).add_left u
    _ = u * (n * (montConst n).toNat + 1) := by ring
    _ ≡ u * 0 [MOD 2 ^ 32] := (montConst_spec hodd).mul_left u

/-- A limb step divides by `2^32` modulo `n`: its division is exact, and what it adds before is a multiple of `n`. -/
theorem ciosStep_mul_modEq {n : Nat} (hodd : n % 2 = 1) (y t : Nat) (x : Word) :
    ciosStep n (montConst n) y t x * 2 ^ 32 ≡ t + x.toNat * y [MOD n] := by
  have hexact := Nat.dvd_of_mod_eq_zero (add_montConst_mul_modEq hodd (t + x.toNat * y))
  rw [ciosStep, Nat.div_mul_cancel hexact]
  exact Nat.add_mul_mod_self_right _ _ n

/-- A limb and the factor `m` are at most `2^32 - 1`, so a limb step keeps the bound `n + y`. -/
theorem ciosStep_lt {n y t : Nat} (ht : t < n + y) (ninv0 x : Word) : ciosStep n ninv0 y t x < n + y := by
  rw [ciosStep, Nat.div_lt_iff_lt_mul (by omega)]
  generalize hm : (t + x.toNat * y) % 2 ^ 32 * ninv0.toNat % 2 ^ 32 = m
  have hm_le : m ≤ 2 ^ 32 - 1 := by omega
  have hx_le : x.toNat ≤ 2 ^ 32 - 1 := by bv_omega
  calc t + x.toNat * y + m * n
      ≤ t + (2 ^ 32 - 1) * y + (2 ^ 32 - 1) * n := by gcongr
    _ < (n + y) * 2 ^ 32 := by omega

/-! ## The limb loop -/

/-- The loop divides by `2^32` once for each limb. -/
theorem ciosLoop_mul_modEq {n : Nat} (hodd : n % 2 = 1) (y : Nat) (xs : Limbs) (t : Nat) :
    ciosLoop n (montConst n) y xs t * 2 ^ (32 * xs.length) ≡ t + ofLimbs xs * y [MOD n] := by
  induction xs generalizing t with
  | nil => simp [ciosLoop, ofLimbs, Nat.ModEq.refl]
  | cons x xs ih =>
    have hlen : 2 ^ (32 * (x :: xs).length) = 2 ^ (32 * xs.length) * 2 ^ 32 := by
      rw [← pow_add, List.length_cons, Nat.mul_succ]
    calc ciosLoop n (montConst n) y (x :: xs) t * 2 ^ (32 * (x :: xs).length)
        = ciosLoop n (montConst n) y xs (ciosStep n (montConst n) y t x) * 2 ^ (32 * xs.length) * 2 ^ 32 := by
          rw [ciosLoop, hlen, mul_assoc]
      _ ≡ (ciosStep n (montConst n) y t x + ofLimbs xs * y) * 2 ^ 32 [MOD n] := (ih _).mul_right _
      _ = ciosStep n (montConst n) y t x * 2 ^ 32 + 2 ^ 32 * ofLimbs xs * y := by ring
      _ ≡ t + x.toNat * y + 2 ^ 32 * ofLimbs xs * y [MOD n] := (ciosStep_mul_modEq hodd y t x).add_right _
      _ = t + ofLimbs (x :: xs) * y := by rw [ofLimbs]; ring

theorem ciosLoop_lt {n y : Nat} (ninv0 : Word) (xs : Limbs) {t : Nat} (ht : t < n + y) : ciosLoop n ninv0 y xs t < n + y := by
  induction xs generalizing t with
  | nil => exact ht
  | cons x xs ih => exact ih (ciosStep_lt ht ninv0 x)

/-! ## The whole datapath -/

section context
variable {n : Nat} (hodd : n % 2 = 1)
include hodd

theorem contextOf_ninv0 (w : Nat) : (contextOf w n).ninv0 = montConst n := if_pos hodd

theorem contextOf_rr (w : Nat) : (contextOf w n).rr = 2 ^ (2 * w) % n := if_pos hodd

/-- One subtraction brings the loop's result, which is below `2n`, under the modulus and keeps its residue. -/
theorem montMulAlg_spec (w : Nat) {l x y : Nat} (hx : x < 2 ^ (32 * l)) (hy : y < n) :
    montMulAlg l (contextOf w n) x y < n ∧ montMulAlg l (contextOf w n) x y * 2 ^ (32 * l) ≡ x * y [MOD n] := by
  have hlt : ciosLoop n (montConst n) y (toLimbs l x) 0 < n + y := ciosLoop_lt _ _ (by omega)
  have hmod := ciosLoop_mul_modEq hodd y (toLimbs l x) 0
  rw [length_toLimbs, ofLimbs_toLimbs, Nat.mod_eq_of_lt hx, zero_add] at hmod
  have hctx : (contextOf w n).n = n := rfl
  rw [montMulAlg, contextOf_ninv0 hodd, hctx]
  generalize ciosLoop n (montConst n) y (toLimbs l x) 0 = t at hlt hmod
  by_cases hle : n ≤ t
  · have hsub : t - n ≡ t [MOD n] := (Nat.mod_eq_sub_mod hle).symm
    simp only [hle, if_true]
    exact ⟨by omega, (hsub.mul_right _).trans hmod⟩
  · simp only [hle, if_false]
    exact ⟨by omega, hmod⟩

/-- The datapath computes the closed form of `MONTMUL` (41_multiply_reduce R122). -/
theorem montMulAlg_eq {l x y : Nat} (hx : x < 2 ^ (32 * l)) (hy : y < n) :
    montMulAlg l (contextOf (32 * l) n) x y = x * y * radixInv (32 * l) n % n := by
  obtain ⟨hlt, hmod⟩ := montMulAlg_spec hodd (32 * l) hx hy
  exact eq_mul_radixInv_mod hodd hlt hmod

end context

/-- Settles O56: each limb step is exact and keeps the bound, and the residue the loop leaves is unique. -/
theorem ciosIsTheMontgomeryProduct : Obligations.CiosIsTheMontgomeryProduct := by
  intro l n x y hodd _ hn hx hy
  have hxl : x < 2 ^ (32 * l) := hx.trans hn
  have hloop : ciosLoop n (montConst n) y (toLimbs l x) 0 < n + y := ciosLoop_lt _ _ (by omega)
  obtain ⟨hlt, hmod⟩ := montMulAlg_spec hodd (32 * l) hxl hy
  exact ⟨fun t xi => add_montConst_mul_modEq hodd (t + xi * y), by omega, hlt, hmod, montMulAlg_eq hodd hxl hy⟩

end Sys2Proof.Machine
end

section
/-! The Barrett datapath (41_multiply_reduce R128): its quotient is at most two below the true one, so two corrections give the
remainder. -/

namespace Sys2Proof.Machine

/-! ## The estimate -/

/-- The Barrett quotient of `x` for the modulus `n` is not too large: each of its divisions rounds down. Here `a` is `2^(k-1)` and `b` is
`2^(k+1)`. -/
theorem barrettQuotient_mul_le (n x : Nat) {a b : Nat} (hb : 0 < b) : x / a * (a * b / n) / b * n ≤ x := by
  refine Nat.le_of_mul_le_mul_right ?_ hb
  calc x / a * (a * b / n) / b * n * b
      = x / a * (a * b / n) / b * b * n := Nat.mul_right_comm _ _ _
    _ ≤ x / a * (a * b / n) * n := Nat.mul_le_mul_right _ (Nat.div_mul_le_self _ _)
    _ = x / a * (a * b / n * n) := mul_assoc _ _ _
    _ ≤ x / a * (a * b) := Nat.mul_le_mul_left _ (Nat.div_mul_le_self _ _)
    _ = x / a * a * b := (mul_assoc _ _ _).symm
    _ ≤ x * b := Nat.mul_le_mul_right _ (Nat.div_mul_le_self _ _)

/-- Nor is it more than two too small: each of its three divisions loses less than one multiple of `n`. -/
theorem lt_barrettQuotient_add_three_mul {n x a b : Nat} (ha : 0 < a) (han : a ≤ n) (hx : x < a * b) :
    x < (x / a * (a * b / n) / b + 3) * n := by
  have hb : 0 < b := Nat.pos_of_mul_pos_left (by omega : 0 < a * b)
  have hq1_lt : x / a < b := Nat.div_lt_of_lt_mul hx
  have hq1 : x < (x / a + 1) * a := (Nat.div_lt_iff_lt_mul ha).1 (Nat.lt_succ_self _)
  have hmu : a * b < (a * b / n + 1) * n := (Nat.div_lt_iff_lt_mul (by omega)).1 (Nat.lt_succ_self _)
  generalize x / a = q1 at *
  generalize a * b / n = mu at *
  have hq3 : q1 * mu < (q1 * mu / b + 1) * b := (Nat.div_lt_iff_lt_mul hb).1 (Nat.lt_succ_self _)
  generalize q1 * mu / b = q3 at *
  refine Nat.lt_of_mul_lt_mul_right (a := b) ?_
  calc x * b < (q1 + 1) * a * b := Nat.mul_lt_mul_of_pos_right hq1 hb
    _ = q1 * (a * b) + a * b := by ring
    _ ≤ q1 * ((mu + 1) * n) + n * b := by gcongr
    _ = q1 * mu * n + q1 * n + n * b := by ring
    _ ≤ (q3 + 1) * b * n + b * n + n * b := by gcongr
    _ = (q3 + 3) * n * b := by ring

/-! ## The corrections -/

/-- `m` corrections reduce every number below `(m + 1) * n`. -/
theorem correct_eq_mod {n : Nat} (m : Nat) {r : Nat} (h : r < (m + 1) * n) : correct n m r = r % n := by
  induction m generalizing r with
  | zero => rw [correct, Nat.mod_eq_of_lt (by omega)]
  | succ m ih =>
    rw [correct]
    split
    next hle =>
      rw [Nat.mod_eq_sub_mod hle]
      refine ih ?_
      rw [add_mul, one_mul] at h
      omega
    next hlt => rw [Nat.mod_eq_of_lt (by omega)]

section modulus
variable {n x : Nat} (hn : 2 ≤ n) (hx : x < 2 ^ (2 * bitlen n))
include hn hx

/-- The estimate is a number with the remainder of `x` that is below `3n`. -/
theorem barrettEstimate_spec : ∃ r : Nat, barrettEstimate n (bitlen n) (2 ^ (2 * bitlen n) / n) x = r ∧ r < 3 * n ∧
    r % n = x % n := by
  have hk := two_le_bitlen hn
  have hsplit : 2 ^ (2 * bitlen n) = 2 ^ (bitlen n - 1) * 2 ^ (bitlen n + 1) := by rw [← pow_add]; congr 1; omega
  rw [hsplit] at hx ⊢
  have hle := barrettQuotient_mul_le n x (a := 2 ^ (bitlen n - 1)) (b := 2 ^ (bitlen n + 1)) (by positivity)
  have hlt := lt_barrettQuotient_add_three_mul (by positivity) (pow_bitlen_le (by omega)) hx
  rw [barrettEstimate]
  generalize x / 2 ^ (bitlen n - 1) * (2 ^ (bitlen n - 1) * 2 ^ (bitlen n + 1) / n) / 2 ^ (bitlen n + 1) = q at hle hlt ⊢
  rw [add_mul] at hlt
  refine ⟨x - q * n, by push_cast [hle]; rfl, by omega, ?_⟩
  rw [mul_comm] at hle ⊢
  exact Nat.sub_mul_mod hle

theorem correct_barrettEstimate :
    correct n 2 (barrettEstimate n (bitlen n) (2 ^ (2 * bitlen n) / n) x).toNat = x % n := by
  obtain ⟨r, hr, hlt, hmod⟩ := barrettEstimate_spec hn hx
  rw [hr, Int.toNat_natCast, correct_eq_mod 2 hlt, hmod]

/-- The datapath with the context of `SETMOD`, whose `K` holds `bitlen n` whole for a modulus of at most 4096 bits. -/
theorem barrettAlg_eq (w : Nat) (hlen : bitlen n ≤ 4096) : barrettAlg (contextOf w n) x = x % n := by
  rw [barrettAlg, contextOf_k w hlen]
  exact correct_barrettEstimate hn hx

end modulus

/-- Settles O57, from the two bounds of the Barrett quotient. -/
theorem barrettIsTheRemainder : Obligations.BarrettIsTheRemainder := by
  intro n x hn hx
  obtain ⟨r, hr, hlt, -⟩ := barrettEstimate_spec hn hx
  exact ⟨by omega, by omega, correct_barrettEstimate hn hx, fun hlen w => barrettAlg_eq hn hx w hlen⟩

end Sys2Proof.Machine
end

section
/-! The multiply and reduce commands (spec/41_multiply_reduce.md): the words of their rules, the errors in the order of
60_exceptions R172, and what each writes. -/

namespace Sys2Proof.Machine

/-! ## The command words -/

theorem encode_mulw (lo hi a b : Reg) : encode (.mulw lo hi a b) =
    BitVec.ofNat 32 (hi.index * 2 ^ 20 + b.index * 2 ^ 16 + a.index * 2 ^ 12 + lo.index * 2 ^ 8 + 0x07) := by
  simp [encode, opcodeOf, mkWord_eq_ofNat]

theorem encode_montmul (d a b : Reg) : encode (.montmul d a b) =
    BitVec.ofNat 32 (b.index * 2 ^ 16 + a.index * 2 ^ 12 + d.index * 2 ^ 8 + 0x02) := by
  simp [encode, opcodeOf, mkWord_eq_ofNat]

theorem encode_tomont (d a : Reg) : encode (.tomont d a) =
    BitVec.ofNat 32 (a.index * 2 ^ 12 + d.index * 2 ^ 8 + 0x03) := by
  simp [encode, opcodeOf, mkWord_eq_ofNat]

theorem encode_frommont (d a : Reg) : encode (.frommont d a) =
    BitVec.ofNat 32 (a.index * 2 ^ 12 + d.index * 2 ^ 8 + 0x04) := by
  simp [encode, opcodeOf, mkWord_eq_ofNat]

theorem encode_modmul (d a b : Reg) : encode (.modmul d a b) =
    BitVec.ofNat 32 (b.index * 2 ^ 16 + a.index * 2 ^ 12 + d.index * 2 ^ 8 + 0x05) := by
  simp [encode, opcodeOf, mkWord_eq_ofNat]

theorem encode_bred (d hi lo : Reg) : encode (.bred d hi lo) =
    BitVec.ofNat 32 (lo.index * 2 ^ 16 + hi.index * 2 ^ 12 + d.index * 2 ^ 8 + 0x06) := by
  simp [encode, opcodeOf, mkWord_eq_ofNat]

/-- The word of a command that repeats a destination passes every other check (30_encoding R96). -/
theorem decode_encode_of_not_wellFormed {i : Instr} (h : ¬ i.wellFormed = true) : decode (encode i) = .error .illegal := by
  rw [decode_of_fields (not_hasIllegalBits_encode i) (not_hasBadRegister_encode i), commandIn_encode, if_neg h]

/-! ## The shared checks, case by case (60_exceptions R172) -/

theorem needResidues_of_le {c : Ctx} {xs : List Nat} {k : CmdResult} (hx : ∃ x ∈ xs, c.n ≤ x) :
    needResidues c xs k = .err .range := by
  rw [needResidues, if_pos (by simpa using hx)]

theorem needResidues_of_lt {c : Ctx} {xs : List Nat} {k : CmdResult} (hx : ∀ x ∈ xs, x < c.n) :
    needResidues c xs k = k := by
  rw [needResidues, if_neg (by simpa using hx)]

theorem Failed.of_noctx {s : State} {k : CmdResult} (hv : s.ctx.valid = false) :
    Failed s (s.complete (needCtx s.ctx k)) .noctx := by
  rw [needCtx_eq, if_neg (by simp [hv])]
  exact Failed.of_err s .noctx

/-! ## The context the commands use (10_state R33) -/

section ctx
variable {s : State} (h : s.Inv) (hv : s.ctx.valid = true)
include h hv

/-- A command that writes a residue of the modulus: it fits the destination. -/
theorem State.Inv.complete_residue (d : Reg) (v : Nat) :
    Succeeded s (s.complete (writeOne d (v % s.ctx.n))) [d] false ∧
      (s.complete (writeOne d (v % s.ctx.n))).value d = v % s.ctx.n := by
  obtain ⟨hn, hnw, -⟩ := h.ctx_eq hv
  have hlt : v % s.ctx.n < s.ctx.n := Nat.mod_lt v (by omega)
  exact ⟨Succeeded.of_writes s rfl, s.value_complete_writeOne d (hlt.trans hnw)⟩

theorem State.Inv.bitlen_ctx_le : bitlen s.ctx.n ≤ 4096 := by
  obtain ⟨-, hnw, -⟩ := h.ctx_eq hv
  obtain ⟨-, hw⟩ := h.width_le
  exact ((bitlen_le_iff _ _).2 hnw).trans hw

theorem State.Inv.ctx_k : s.ctx.k.toNat = bitlen s.ctx.n := by
  obtain ⟨-, -, hctx⟩ := h.ctx_eq hv
  rw [← contextOf_k s.width (h.bitlen_ctx_le hv), ← hctx]

theorem State.Inv.ctx_rr (ho : s.ctx.odd = true) : s.ctx.rr = 2 ^ (2 * s.width) % s.ctx.n := by
  obtain ⟨-, -, hctx⟩ := h.ctx_eq hv
  rw [← contextOf_rr (h.ctx_odd hv ho), ← hctx]

/-- The Montgomery datapath with the machine's context (41_multiply_reduce R125). -/
theorem State.Inv.montMulAlg_eq (ho : s.ctx.odd = true) {x y : Nat} (hx : x < s.ctx.n) (hy : y < s.ctx.n) :
    montMulAlg s.params.limbs s.ctx x y = x * y * radixInv s.width s.ctx.n % s.ctx.n := by
  obtain ⟨-, hnw, hctx⟩ := h.ctx_eq hv
  have halg := Machine.montMulAlg_eq (h.ctx_odd hv ho) (hx.trans hnw) hy
  rwa [← State.width, ← hctx] at halg

/-- The Barrett datapath with the machine's context (41_multiply_reduce R128). -/
theorem State.Inv.barrettAlg_eq {x : Nat} (hx : x < 2 ^ (2 * s.ctx.k.toNat)) : barrettAlg s.ctx x = x % s.ctx.n := by
  obtain ⟨hn, -, hctx⟩ := h.ctx_eq hv
  rw [h.ctx_k hv] at hx
  have halg := Machine.barrettAlg_eq hn hx s.width (h.bitlen_ctx_le hv)
  rwa [← hctx] at halg

end ctx

/-! ## `MULW` (41_multiply_reduce R120) -/

/-- The completion step of a command that answers writes alone leaves their values. -/
theorem State.value_complete_writes (s : State) (ws : List (Reg × Nat)) (r : Reg) :
    (s.complete (.ok ws none)).value r = (s.applyWrites ws).value r := rfl

theorem State.Inv.mul_value_lt {s : State} (h : s.Inv) (a b : Reg) : s.value a * s.value b < 2 ^ s.width * 2 ^ s.width :=
  Nat.mul_lt_mul'' (h.value_lt a) (h.value_lt b)

/-- Settles O38: the halves of one product computed before the first write, which the second write leaves in place. -/
theorem mulwWritesTheWholeProduct : Obligations.MulwWritesTheWholeProduct := by
  intro lo hi a b s h hne
  have hwf : (Instr.mulw lo hi a b).wellFormed = true := decide_eq_true hne
  have hrep : ¬ (Instr.mulw lo lo a b).wellFormed = true := by simp [Instr.wellFormed]
  refine ⟨encode_mulw lo hi a b ▸ decode_encode hwf, encode_mulw lo lo a b ▸ decode_encode_of_not_wellFormed hrep, _,
    exec_eq (.mulw lo hi a b) s, Succeeded.of_writes s rfl, ?_⟩
  have hlow : s.value a * s.value b % 2 ^ s.width < 2 ^ s.width := Nat.mod_lt _ (by positivity)
  have hhigh : s.value a * s.value b / 2 ^ s.width < 2 ^ s.width := Nat.div_lt_of_lt_mul (h.mul_value_lt a b)
  rw [answerOf, mulwResult, State.value_complete_writes, State.value_complete_writes, State.applyWrites_cons,
    State.applyWrites_cons, State.applyWrites_nil, State.value_writeReg_ne _ hne, State.value_writeReg_self,
    State.value_writeReg_self, State.width_writeReg, lowHalf, highHalf, Nat.mod_eq_of_lt hlow, Nat.mod_eq_of_lt hhigh]
  exact ⟨rfl, rfl, Nat.div_add_mod' _ _⟩

/-! ## The Montgomery commands (41_multiply_reduce R121 to R124) -/

/-- How a Montgomery command with the residue operands `xs` ends: the checks in the order of 41_multiply_reduce R121, then one residue
written. -/
theorem State.Inv.montgomery_cases {s : State} (h : s.Inv) {i : Instr} {xs : List Nat} {d : Reg} {v : Nat}
    (hi : answerOf i s = needCtx s.ctx (needOdd s.ctx (needResidues s.ctx xs (writeOne d (v % s.ctx.n))))) :
    ∃ t, exec i s = .next t ∧
      (s.ctx.valid = false → Failed s t .noctx) ∧
      (s.ctx.valid = true → s.ctx.odd = false → Failed s t .evenmod) ∧
      (s.ctx.valid = true → s.ctx.odd = true → (∃ x ∈ xs, s.ctx.n ≤ x) → Failed s t .range) ∧
      (s.ctx.valid = true → s.ctx.odd = true → (∀ x ∈ xs, x < s.ctx.n) →
        Succeeded s t [d] false ∧ t.value d = v % s.ctx.n) := by
  refine ⟨_, exec_eq i s, ?_⟩
  rw [hi]
  refine ⟨Failed.of_noctx, fun hv ho => ?even, fun hv ho hx => ?range, fun hv ho hx => ?ok⟩
  case even =>
    rw [needCtx_eq, if_pos hv, needOdd_eq, if_neg (by simp [ho])]
    exact Failed.of_err s .evenmod
  case range =>
    rw [needCtx_eq, if_pos hv, needOdd_eq, if_pos ho, needResidues_of_le hx]
    exact Failed.of_err s .range
  case ok =>
    rw [needCtx_eq, if_pos hv, needOdd_eq, if_pos ho, needResidues_of_lt hx]
    exact h.complete_residue hv d v

/-- Settles O39: the closed form is the residue whose product with the radix is `x * y`, and the datapath computes it. -/
theorem montmulIsTheMontgomeryProduct : Obligations.MontmulIsTheMontgomeryProduct := by
  intro d a b s h
  obtain ⟨t, hexec, hnoctx, heven, hrange, hok⟩ := h.montgomery_cases (i := .montmul d a b) rfl
  refine ⟨encode_montmul d a b ▸ decode_encode rfl, t, hexec, hnoctx, heven, fun hv ho hx => hrange hv ho (by simpa using hx),
    fun hv ho ha hb => ?_⟩
  obtain ⟨hsucceeded, hval⟩ := hok hv ho (by simp [ha, hb])
  rw [hval]
  exact ⟨hsucceeded, Nat.mod_lt _ (by omega), mul_radixInv_mod_mul_radix (h.ctx_odd hv ho) _ _, rfl,
    (h.montMulAlg_eq hv ho ha hb).symm⟩

/-- Settles O40: `x * R` is the residue whose product with the radix is `x * RR`, because `RR` is the square of the radix. -/
theorem tomontIsTheMontgomeryForm : Obligations.TomontIsTheMontgomeryForm := by
  intro d a s h
  obtain ⟨t, hexec, hnoctx, heven, hrange, hok⟩ := h.montgomery_cases (i := .tomont d a) rfl
  refine ⟨encode_tomont d a ▸ decode_encode rfl, t, hexec, hnoctx, heven, fun hv ho hx => hrange hv ho (by simpa using hx),
    fun hv ho ha => ?_⟩
  obtain ⟨hsucceeded, hval⟩ := hok hv ho (by simpa using ha)
  have hrr : s.ctx.rr ≡ 2 ^ s.width * 2 ^ s.width [MOD s.ctx.n] := by
    rw [h.ctx_rr hv ho, ← pow_add, ← two_mul]
    exact Nat.mod_modEq _ _
  have hrr_lt : s.ctx.rr < s.ctx.n := by
    rw [h.ctx_rr hv ho]
    exact Nat.mod_lt _ (by omega)
  have hprod : s.value a * 2 ^ s.width % s.ctx.n * 2 ^ s.width ≡ s.value a * s.ctx.rr [MOD s.ctx.n] := calc
    s.value a * 2 ^ s.width % s.ctx.n * 2 ^ s.width
      ≡ s.value a * 2 ^ s.width * 2 ^ s.width [MOD s.ctx.n] := (Nat.mod_modEq _ _).mul_right _
    _ = s.value a * (2 ^ s.width * 2 ^ s.width) := mul_assoc _ _ _
    _ ≡ s.value a * s.ctx.rr [MOD s.ctx.n] := hrr.symm.mul_left _
  rw [hval, h.montMulAlg_eq hv ho ha hrr_lt]
  exact ⟨hsucceeded, rfl, eq_mul_radixInv_mod (h.ctx_odd hv ho) (Nat.mod_lt _ (by omega)) hprod⟩

/-- Settles O41: the closed form is the residue whose product with the radix is `x`, and the datapath computes it from `x * 1`. -/
theorem frommontLeavesTheMontgomeryForm : Obligations.FrommontLeavesTheMontgomeryForm := by
  intro d a s h
  obtain ⟨t, hexec, hnoctx, heven, hrange, hok⟩ := h.montgomery_cases (i := .frommont d a) rfl
  refine ⟨encode_frommont d a ▸ decode_encode rfl, t, hexec, hnoctx, heven, fun hv ho hx => hrange hv ho (by simpa using hx),
    fun hv ho ha => ?_⟩
  obtain ⟨hsucceeded, hval⟩ := hok hv ho (by simpa using ha)
  obtain ⟨hn, -, -⟩ := h.ctx_eq hv
  have hmul := mul_radixInv_mod_mul_radix (h.ctx_odd hv ho) s.width (s.value a)
  rw [hval, h.montMulAlg_eq hv ho ha (by omega), mul_one]
  exact ⟨hsucceeded, Nat.mod_lt _ (by omega), Eq.trans hmul (Nat.mod_eq_of_lt ha), rfl, rfl⟩

/-! ## `MODMUL` and `BRED` (41_multiply_reduce R126, R127) -/

/-- The product of two residues is in the domain of the Barrett datapath (41_multiply_reduce R126). -/
theorem mul_lt_barrett_domain {n x y : Nat} (hx : x < n) (hy : y < n) : x * y < 2 ^ (2 * bitlen n) := by
  have hlt := lt_pow_bitlen n
  rw [two_mul, pow_add]
  exact Nat.mul_lt_mul'' (hx.trans hlt) (hy.trans hlt)

/-- Settles O42: two residues have a product in the domain of the Barrett datapath. -/
theorem modmulIsTheModularProduct : Obligations.ModmulIsTheModularProduct := by
  intro d a b s h
  refine ⟨encode_modmul d a b ▸ decode_encode rfl, _, exec_eq (.modmul d a b) s, ?_⟩
  rw [answerOf, modmulResult]
  refine ⟨Failed.of_noctx, fun hv hx => ?range, fun hv ha hb => ?ok⟩
  case range =>
    rw [needCtx_eq, if_pos hv, needResidues_of_le (by simpa using hx)]
    exact Failed.of_err s .range
  case ok =>
    have hdomain : s.value a * s.value b < 2 ^ (2 * s.ctx.k.toNat) := by
      rw [h.ctx_k hv]
      exact mul_lt_barrett_domain ha hb
    rw [needCtx_eq, if_pos hv, needResidues_of_lt (by simp [ha, hb]), h.barrettAlg_eq hv hdomain]
    obtain ⟨hsucceeded, hval⟩ := h.complete_residue hv d (s.value a * s.value b)
    exact ⟨hsucceeded, hval, hval⟩

/-- Settles O43: the domain that the command checks is that of the Barrett datapath. -/
theorem bredReducesADoubleWidthValue : Obligations.BredReducesADoubleWidthValue := by
  intro d hi lo s h
  refine ⟨encode_bred d hi lo ▸ decode_encode rfl, _, exec_eq (.bred d hi lo) s, ?_⟩
  rw [answerOf, bredResult, wideOperand]
  refine ⟨Failed.of_noctx, fun hv hx => ?range, fun hv hx => ?ok⟩
  case range =>
    rw [needCtx_eq, if_pos hv, if_pos hx]
    exact Failed.of_err s .range
  case ok =>
    rw [needCtx_eq, if_pos hv, if_neg hx.not_ge, h.barrettAlg_eq hv hx]
    obtain ⟨hsucceeded, hval⟩ := h.complete_residue hv d (s.value hi * 2 ^ s.width + s.value lo)
    exact ⟨hsucceeded, hval, hval⟩

end Sys2Proof.Machine
end

section
/-! The extended Euclidean solver (42_euclid R141, R144): its iterative form, the size of its coefficients, and that two's
complement holds them exactly (00_scope R8). -/

namespace Sys2Proof.Machine

/-! ## The iterative form (42_euclid R141) -/

/-- Popping the quotients that were pushed below `qs` unwinds the recursion; popping `qs` is what is left to do. -/
theorem popQuotients_quotients (fuel a b : Nat) (qs : List Nat) :
    popQuotients (quotients fuel a b qs).1 ⟨(quotients fuel a b qs).2, 0, 1⟩ = popQuotients qs (solveFuel fuel a b) := by
  induction fuel generalizing a b qs with
  | zero => rfl
  | succ fuel ih =>
    rw [quotients, solveFuel]
    split
    · rfl
    · rw [ih, popQuotients]

theorem solveIter_eq (a b : Nat) : solveIter a b = solve a b := popQuotients_quotients a a b []

/-! ## The coefficients (42_euclid R144) -/

theorem solve_of_dvd {a b : Nat} (ha : a ≠ 0) (h : a ∣ b) : solve a b = ⟨a, 1, 0⟩ := by
  rw [solve_pos b ha, Nat.mod_eq_zero_of_dvd h, solve_zero]
  simp [Bezout.unwind]

/-- Settles O54, from the recursion, the iterative form and Bézout's identity. -/
theorem solverMeetsItsContract : Obligations.SolverMeetsItsContract :=
  ⟨solve_zero, fun _ b ha => solve_pos b ha, solveIter_eq, fun a b => ⟨solve_g a b, solve_bezout a b⟩,
    fun a ha => solve_of_dvd ha.ne' (dvd_refl a)⟩

/-- An unwind step adds at most `q` times the first coefficient to the second. -/
theorem natAbs_unwind_x_le (r : Bezout) (q : Nat) : (r.unwind q).x.natAbs ≤ r.y.natAbs + q * r.x.natAbs := by
  have htri := Int.natAbs_sub_le r.y (q * r.x)
  rwa [Int.natAbs_mul, Int.natAbs_natCast] at htri

/-- A proper divisor is at most half. -/
theorem two_mul_le_of_dvd_of_lt {r a : Nat} (hdvd : r ∣ a) (hlt : r < a) : 2 * r ≤ a := by
  have hle : r ≤ a - r := Nat.le_of_dvd (by omega) (Nat.dvd_sub hdvd (dvd_refl r))
  omega

/-- Where the recursion goes at least two levels deep, each coefficient is at most half the other input over the gcd: the bounds
of the remainder and of the quotient's multiple of `a` add up to `b = a * (b / a) + b % a`. -/
theorem natAbs_solve_mul_gcd_le {a b : Nat} (ha : a ≠ 0) (h : ¬ a ∣ b) :
    (solve a b).x.natAbs * 2 * Nat.gcd a b ≤ b ∧ (solve a b).y.natAbs * 2 * Nat.gcd a b ≤ a := by
  induction a, b using Nat.gcd.induction with
  | H0 b => exact absurd rfl ha
  | H1 a b hpos ih =>
    have hr : b % a ≠ 0 := fun hzero => h (Nat.dvd_of_mod_eq_zero hzero)
    obtain ⟨hx, hy⟩ : (solve (b % a) a).x.natAbs * 2 * Nat.gcd (b % a) a ≤ a ∧
        (solve (b % a) a).y.natAbs * 2 * Nat.gcd (b % a) a ≤ b % a := by
      by_cases hdvd : b % a ∣ a
      · rw [solve_of_dvd hr hdvd, Nat.gcd_eq_left hdvd]
        simpa using two_mul_le_of_dvd_of_lt hdvd (Nat.mod_lt b hpos)
      · exact ih hr hdvd
    rw [solve_pos b ha, Nat.gcd_rec, Bezout.unwind_y]
    refine ⟨?_, hx⟩
    calc ((solve (b % a) a).unwind (b / a)).x.natAbs * 2 * Nat.gcd (b % a) a
        ≤ ((solve (b % a) a).y.natAbs + b / a * (solve (b % a) a).x.natAbs) * 2 * Nat.gcd (b % a) a := by
          gcongr
          exact natAbs_unwind_x_le _ _
      _ = (solve (b % a) a).y.natAbs * 2 * Nat.gcd (b % a) a +
            b / a * ((solve (b % a) a).x.natAbs * 2 * Nat.gcd (b % a) a) := by ring
      _ ≤ b % a + b / a * a := by gcongr
      _ = b := Nat.mod_add_div' b a

theorem natAbs_solve_le {a b : Nat} (h : a ≠ 0 ∨ b ≠ 0) :
    (solve a b).x.natAbs ≤ max 1 (b / Nat.gcd a b / 2) ∧ (solve a b).y.natAbs ≤ max 1 (a / Nat.gcd a b / 2) := by
  rcases eq_or_ne a 0 with rfl | ha
  · simp
  by_cases hdvd : a ∣ b
  · simp [solve_of_dvd ha hdvd]
  · obtain ⟨hx, hy⟩ := natAbs_solve_mul_gcd_le ha hdvd
    have hg : 0 < Nat.gcd a b := Nat.gcd_pos_of_pos_left b (Nat.pos_of_ne_zero ha)
    have half {z c : Nat} (hz : z * 2 * Nat.gcd a b ≤ c) : z ≤ c / Nat.gcd a b / 2 := by
      rwa [Nat.le_div_iff_mul_le two_pos, Nat.le_div_iff_mul_le hg]
    exact ⟨le_max_of_le_right (half hx), le_max_of_le_right (half hy)⟩

/-! ## Two's complement (00_scope R8) -/

/-- The sign bit of an `n`-bit pattern says that it stands for a negative value. -/
theorem sext_eq {n v : Nat} (hn : 1 ≤ n) (hv : v < 2 ^ n) :
    sext n v = if 2 ^ (n - 1) ≤ v then (v : Int) - 2 ^ n else v := by
  have hpow : 2 ^ n = 2 * 2 ^ (n - 1) := by rw [← pow_succ']; congr 1; omega
  have hbit : v.testBit (n - 1) = true ↔ 2 ^ (n - 1) ≤ v := by
    refine ⟨Nat.ge_two_pow_of_testBit, fun hle => ?_⟩
    have hone : v / 2 ^ (n - 1) = 1 := Nat.div_eq_of_lt_le (by omega) (by omega)
    simp [Nat.testBit_eq_decide_div_mod_eq, hone]
  rw [sext, if_congr hbit rfl rfl]

/-- A value in range is the signed reading of its pattern: itself where it is not negative, and `2^n` more where it is. -/
theorem sext_twos {n : Nat} {z : Int} (hn : 1 ≤ n) (hlow : -(2 ^ (n - 1)) ≤ z) (hhigh : z < 2 ^ (n - 1)) :
    sext n (twos n z) = z := by
  have hpow : (2 : Int) ^ n = 2 * 2 ^ (n - 1) := by rw [← pow_succ']; congr 1; omega
  have hcast : (twos n z : Int) = z % 2 ^ n := Int.toNat_of_nonneg (Int.emod_nonneg _ (by positivity))
  have hsign : 2 ^ (n - 1) ≤ twos n z ↔ (2 : Int) ^ (n - 1) ≤ z % 2 ^ n := by rw [← hcast]; norm_cast
  rw [sext_eq hn (twos_lt n z), if_congr hsign rfl rfl, hcast]
  rcases le_or_gt 0 z with hnonneg | hneg
  · have hmod : z % 2 ^ n = z := Int.emod_eq_of_lt hnonneg (by omega)
    rw [hmod, if_neg (by omega)]
  · have hmod : z % 2 ^ n = z + 2 ^ n := by
      rw [← Int.add_emod_right]
      exact Int.emod_eq_of_lt (by omega) (by omega)
    rw [hmod, if_pos (by omega)]
    omega

section fit
variable {a b w : Nat} (h : a ≠ 0 ∨ b ≠ 0) (hw : 2 ≤ w) (ha : a < 2 ^ w) (hb : b < 2 ^ w)
include h hw ha hb

/-- The solver's coefficients are in the range of `w`-bit two's complement. -/
theorem natAbs_solve_lt : (solve a b).x.natAbs < 2 ^ (w - 1) ∧ (solve a b).y.natAbs < 2 ^ (w - 1) := by
  obtain ⟨hx, hy⟩ := natAbs_solve_le h
  have bound {c : Nat} (hc : c < 2 ^ w) : max 1 (c / Nat.gcd a b / 2) < 2 ^ (w - 1) := by
    have hpow : 2 ^ w = 2 * 2 ^ (w - 1) := by rw [← pow_succ']; congr 1; omega
    have hone : 1 < 2 ^ (w - 1) := Nat.one_lt_two_pow (by omega)
    have hle : c / Nat.gcd a b ≤ c := Nat.div_le_self _ _
    omega
  exact ⟨hx.trans_lt (bound hb), hy.trans_lt (bound ha)⟩

theorem solve_bounds : (-(2 ^ (w - 1)) ≤ (solve a b).x ∧ (solve a b).x < 2 ^ (w - 1)) ∧
    (-(2 ^ (w - 1)) ≤ (solve a b).y ∧ (solve a b).y < 2 ^ (w - 1)) := by
  have range {z : Int} (hz : z.natAbs < 2 ^ (w - 1)) : -(2 ^ (w - 1)) ≤ z ∧ z < 2 ^ (w - 1) := by
    have habs : (z.natAbs : Int) < 2 ^ (w - 1) := by exact_mod_cast hz
    omega
  obtain ⟨hx, hy⟩ := natAbs_solve_lt h hw ha hb
  exact ⟨range hx, range hy⟩

theorem sext_twos_solve : sext w (twos w (solve a b).x) = (solve a b).x ∧ sext w (twos w (solve a b).y) = (solve a b).y := by
  obtain ⟨⟨hxlow, hxhigh⟩, hylow, hyhigh⟩ := solve_bounds h hw ha hb
  exact ⟨sext_twos (by omega) hxlow hxhigh, sext_twos (by omega) hylow hyhigh⟩

end fit

end Sys2Proof.Machine
end

section
/-! The commands of the solver (spec/42_euclid.md): the words of their rules, their errors, and what each writes. -/

namespace Sys2Proof.Machine

/-! ## The command words -/

theorem encode_egcd (g x y a b : Reg) : encode (.egcd g x y a b) = BitVec.ofNat 32 (y.index * 2 ^ 24 + x.index * 2 ^ 20 +
    b.index * 2 ^ 16 + a.index * 2 ^ 12 + g.index * 2 ^ 8 + 0x09) := by
  simp [encode, opcodeOf, mkWord_eq_ofNat]

theorem encode_modinv (d a m : Reg) : encode (.modinv d a m) =
    BitVec.ofNat 32 (m.index * 2 ^ 16 + a.index * 2 ^ 12 + d.index * 2 ^ 8 + 0x0A) := by
  simp [encode, opcodeOf, mkWord_eq_ofNat]

/-- `EGCD` needs its destinations pairwise distinct (30_encoding R96). -/
theorem wellFormed_egcd (g x y a b : Reg) : (Instr.egcd g x y a b).wellFormed = true ↔ g ≠ x ∧ g ≠ y ∧ x ≠ y := by
  simp [Instr.wellFormed, and_assoc]

/-! ## `EGCD` (42_euclid R140) -/

/-- A command whose writes name distinct registers leaves the value of each write in its register. -/
theorem State.value_applyWrites {s : State} {ws : List (Reg × Nat)} {d : Reg} {v : Nat} (hdistinct : (ws.map Prod.fst).Nodup)
    (hmem : (d, v) ∈ ws) (hv : v < 2 ^ s.width) : (s.applyWrites ws).value d = v := by
  induction ws generalizing s with
  | nil => cases hmem
  | cons w ws ih =>
    obtain ⟨hnot, hdistinct⟩ := List.nodup_cons.1 hdistinct
    rw [applyWrites_cons]
    rcases List.mem_cons.1 hmem with rfl | hmem
    · rw [value, get_applyWrites_ne _ _ _ hnot]
      exact (value_writeReg_self s d v).trans (Nat.mod_eq_of_lt hv)
    · exact ih hdistinct hmem hv

/-- The answer of `EGCD` on inputs that are not both 0. -/
theorem answerOf_egcd {s : State} {a b : Reg} (hne : s.value a ≠ 0 ∨ s.value b ≠ 0) (g x y : Reg) :
    answerOf (.egcd g x y a b) s = .ok [(g, (solve (s.value a) (s.value b)).g),
      (x, twos s.width (solve (s.value a) (s.value b)).x), (y, twos s.width (solve (s.value a) (s.value b)).y)] none := by
  rw [answerOf, egcdResult, if_neg (by tauto)]

theorem Succeeded.egcd {s : State} {a b : Reg} (hne : s.value a ≠ 0 ∨ s.value b ≠ 0) (g x y : Reg) :
    Succeeded s (s.complete (answerOf (.egcd g x y a b) s)) [g, x, y] false := by
  rw [answerOf_egcd hne]
  exact Succeeded.of_writes s rfl

theorem State.Inv.gcd_value_lt {s : State} (h : s.Inv) (a b : Reg) : Nat.gcd (s.value a) (s.value b) < 2 ^ s.width := by
  rcases Nat.eq_zero_or_pos (s.value a) with ha | ha
  · rw [ha, Nat.gcd_zero_left]
    exact h.value_lt b
  · exact (Nat.gcd_le_left _ ha).trans_lt (h.value_lt a)

/-- What `EGCD` leaves in its destinations. -/
theorem State.Inv.value_egcd {s : State} (h : s.Inv) {g x y a b : Reg} (hwf : (Instr.egcd g x y a b).wellFormed = true)
    (hne : s.value a ≠ 0 ∨ s.value b ≠ 0) :
    (s.complete (answerOf (.egcd g x y a b) s)).value g = (solve (s.value a) (s.value b)).g ∧
    (s.complete (answerOf (.egcd g x y a b) s)).value x = twos s.width (solve (s.value a) (s.value b)).x ∧
    (s.complete (answerOf (.egcd g x y a b) s)).value y = twos s.width (solve (s.value a) (s.value b)).y := by
  obtain ⟨hgx, hgy, hxy⟩ := (wellFormed_egcd g x y a b).1 hwf
  have hg : (solve (s.value a) (s.value b)).g < 2 ^ s.width := solve_g _ _ ▸ h.gcd_value_lt a b
  have hdistinct : [g, x, y].Nodup := by simp [hgx, hgy, hxy]
  rw [answerOf_egcd hne, State.value_complete_writes, State.value_complete_writes, State.value_complete_writes]
  exact ⟨State.value_applyWrites hdistinct (by simp) hg, State.value_applyWrites hdistinct (by simp) (twos_lt _ _),
    State.value_applyWrites hdistinct (by simp) (twos_lt _ _)⟩

/-- Settles O47: the solver's answer is written whole, because the gcd fits the register and the coefficients fit its two's
complement. -/
theorem egcdSolvesBezout : Obligations.EgcdSolvesBezout := by
  intro g x y a b s h
  rw [← encode_egcd]
  refine ⟨fun hrep => decode_encode_of_not_wellFormed ?_, fun hgx hgy hxy => ?_⟩
  · rw [wellFormed_egcd]
    tauto
  · have hwf : (Instr.egcd g x y a b).wellFormed = true := (wellFormed_egcd g x y a b).2 ⟨hgx, hgy, hxy⟩
    refine ⟨decode_encode hwf, _, exec_eq (.egcd g x y a b) s, fun ha hb => ?zero, fun hne => ?ok⟩
    case zero =>
      rw [answerOf, egcdResult, if_pos ⟨ha, hb⟩]
      exact Failed.of_err s .zeroarg
    case ok =>
      obtain ⟨hg, hx, hy⟩ := h.value_egcd hwf hne
      obtain ⟨hw, -⟩ := h.width_le
      obtain ⟨hsx, hsy⟩ := sext_twos_solve hne (w := s.width) (by omega) (h.value_lt a) (h.value_lt b)
      rw [hg, hx, hy, hsx, hsy]
      exact ⟨Succeeded.egcd hne g x y, solve_g _ _, rfl, rfl, rfl, rfl, rfl, solve_bezout _ _⟩

/-- Settles O55: the bounds of the coefficients, which the one-bit pattern of `y = 1` exceeds. -/
theorem coefficientsFitTheRegister : Obligations.CoefficientsFitTheRegister := by
  refine ⟨by decide, fun g x y a b s _ _ _ hne => ⟨_, exec_eq (.egcd g x y a b) s, Succeeded.egcd hne g x y⟩,
    fun a b hne => ?_⟩
  obtain ⟨hx, hy⟩ := natAbs_solve_le hne
  refine ⟨hx, hy, fun w hw ha hb => ?_⟩
  obtain ⟨⟨hxlow, hxhigh⟩, hylow, hyhigh⟩ := solve_bounds hne hw ha hb
  exact ⟨hxlow, hxhigh, hylow, hyhigh, sext_twos_solve hne hw ha hb⟩

/-! ## `MODINV` (42_euclid R142) -/

theorem Failed.modinv_of_not_coprime {s : State} {a m : Reg} (hgcd : Nat.gcd (s.value a) (s.value m) ≠ 1) (d : Reg) :
    Failed s (s.complete (answerOf (.modinv d a m) s)) .notcoprime := by
  rw [answerOf, modinvResult, if_pos hgcd]
  exact Failed.of_err s .notcoprime

/-- `MODINV` leaves the inverse, which is below the modulus and so fits the destination. -/
theorem State.Inv.complete_modinv {s : State} (h : s.Inv) {a m : Reg} (hgcd : Nat.gcd (s.value a) (s.value m) = 1)
    (hm : s.value m ≠ 0) (d : Reg) : Succeeded s (s.complete (answerOf (.modinv d a m) s)) [d] false ∧
      (s.complete (answerOf (.modinv d a m) s)).value d = inv (s.value a) (s.value m) := by
  rw [answerOf, modinvResult, if_neg (not_not.2 hgcd), if_neg hm]
  exact ⟨Succeeded.of_writes s rfl,
    s.value_complete_writeOne d ((inv_lt _ (Nat.pos_of_ne_zero hm)).trans (h.value_lt m))⟩

/-- Settles O48: the checks in their order, and the inverse of 00_scope R11. -/
theorem modinvIsTheInverse : Obligations.ModinvIsTheInverse := by
  intro d a m s h
  refine ⟨encode_modinv d a m ▸ decode_encode rfl, _, exec_eq (.modinv d a m) s,
    fun hgcd => Failed.modinv_of_not_coprime hgcd d, fun hgcd hm => ?zero, fun hgcd hm => ?ok⟩
  case zero =>
    rw [answerOf, modinvResult, if_neg (not_not.2 hgcd), if_pos hm]
    exact Failed.of_err s .zeroarg
  case ok =>
    have hpos : 0 < s.value m := Nat.pos_of_ne_zero hm
    obtain ⟨hsucceeded, hval⟩ := h.complete_modinv hgcd hm d
    rw [hval]
    exact ⟨hsucceeded, inv_lt _ hpos, mul_inv_modEq hpos hgcd, inv_cast _ hpos⟩

/-- Settles O49: (1) and (2) from what `MODINV` answers, (3) from the solver's base case. -/
theorem sourcePropertiesOfTheInverse : Obligations.SourcePropertiesOfTheInverse := by
  refine ⟨fun d a m s h hm hgcd => ?inverse, fun d a m s hgcd => ?notcoprime, fun g x y a b s h hgx hgy hxy ha hb => ?solver⟩
  case inverse =>
    obtain ⟨hsucceeded, hval⟩ := h.complete_modinv hgcd (by omega) d
    refine ⟨_, exec_eq (.modinv d a m) s, hsucceeded, ?_⟩
    rw [hval]
    exact Nat.mod_eq_of_modEq (mul_inv_modEq (by omega) hgcd) hm
  case notcoprime =>
    exact ⟨_, exec_eq (.modinv d a m) s, Failed.modinv_of_not_coprime hgcd d⟩
  case solver =>
    have hwf : (Instr.egcd g x y a b).wellFormed = true := (wellFormed_egcd g x y a b).2 ⟨hgx, hgy, hxy⟩
    have hne : s.value a ≠ 0 ∨ s.value b ≠ 0 := .inr (by omega)
    obtain ⟨hg, hx, hy⟩ := h.value_egcd hwf hne
    obtain ⟨hw, -⟩ := h.width_le
    have hone : twos s.width 1 = 1 := by
      rw [twos, Int.emod_eq_of_lt one_pos.le (one_lt_pow₀ one_lt_two (by omega)), Int.toNat_one]
    refine ⟨_, exec_eq (.egcd g x y a b) s, Succeeded.egcd hne g x y, ?_⟩
    rw [hg, hx, hy, ha, hb, solve_zero, hone]
    exact ⟨rfl, by simp [twos], rfl⟩

end Sys2Proof.Machine
end

section
/-! Square-and-multiply (43_modexp R151): the loop on whatever represents the powers of the base, which is the Montgomery forms
for an odd modulus and the remainders for an even one. -/

namespace Sys2Proof.Machine

/-! ## The loop -/

/-- Where `mul` adds the exponents of the powers that `f` represents, the loop turns the power of the exponent bits above `i`
into the power of the whole exponent. -/
theorem expLoop_shift {mul : Nat → Nat → Nat} {f : Nat → Nat} (hmul : ∀ j k, mul (f j) (f k) = f (j + k)) (e i : Nat) :
    expLoop mul (f 1) e i (f (e / 2 ^ i)) = f e := by
  induction i with
  | zero => simp [expLoop]
  | succ i ih =>
    rw [expLoop, hmul, hmul, ← two_mul, ← ih, shift_succ e i]
    split <;> rfl

theorem expLoop_eq {mul : Nat → Nat → Nat} {f : Nat → Nat} (hmul : ∀ j k, mul (f j) (f k) = f (j + k)) (e : Nat) :
    expLoop mul (f 1) e (bitlen e) (f 0) = f e := by
  have hloop := expLoop_shift hmul e (bitlen e)
  rwa [Nat.div_eq_of_lt (lt_pow_bitlen e)] at hloop

/-! ## The two paths -/

theorem modExpAlg_eq_montgomery {c : Ctx} (ho : c.odd = true) (l x e : Nat) : modExpAlg l c x e =
    montMulAlg l c (expLoop (montMulAlg l c) (montMulAlg l c x c.rr) e (bitlen e) (montMulAlg l c 1 c.rr)) 1 := if_pos ho

theorem modExpAlg_eq_barrett {c : Ctx} (ho : c.odd = false) (l x e : Nat) :
    modExpAlg l c x e = expLoop (fun a b => barrettAlg c (a * b)) x e (bitlen e) 1 := if_neg (by simp [ho])

/-! ## The Montgomery forms -/

/-- The Montgomery form of `x`. -/
def montForm (w n x : Nat) : Nat := x * 2 ^ w % n

theorem montForm_modEq (w n x : Nat) : montForm w n x ≡ x * 2 ^ w [MOD n] := Nat.mod_modEq _ n

section odd
variable {l n : Nat} (hodd : n % 2 = 1) (hnl : n < 2 ^ (32 * l))
include hodd hnl

/-- The datapath's result is the one residue whose product with the radix is `x * y`. -/
theorem montMulAlg_eq_of_modEq {x y t : Nat} (hx : x < n) (hy : y < n) (ht : t < n) (h : t * 2 ^ (32 * l) ≡ x * y [MOD n]) :
    montMulAlg l (contextOf (32 * l) n) x y = t :=
  (montMulAlg_eq hodd (hx.trans hnl) hy).trans (eq_mul_radixInv_mod hodd ht h).symm

theorem montMulAlg_rr {x : Nat} (hx : x < n) :
    montMulAlg l (contextOf (32 * l) n) x (contextOf (32 * l) n).rr = montForm (32 * l) n x := by
  have hpos : 0 < n := by omega
  rw [contextOf_rr hodd]
  refine montMulAlg_eq_of_modEq hodd hnl hx (Nat.mod_lt _ hpos) (Nat.mod_lt _ hpos) ?_
  calc montForm (32 * l) n x * 2 ^ (32 * l)
      ≡ x * 2 ^ (32 * l) * 2 ^ (32 * l) [MOD n] := (montForm_modEq _ n x).mul_right _
    _ = x * 2 ^ (2 * (32 * l)) := by ring
    _ ≡ x * (2 ^ (2 * (32 * l)) % n) [MOD n] := (Nat.mod_modEq _ n).symm.mul_left x

theorem montMulAlg_montForm (x y : Nat) :
    montMulAlg l (contextOf (32 * l) n) (montForm (32 * l) n x) (montForm (32 * l) n y) = montForm (32 * l) n (x * y) := by
  have hpos : 0 < n := by omega
  refine montMulAlg_eq_of_modEq hodd hnl (Nat.mod_lt _ hpos) (Nat.mod_lt _ hpos) (Nat.mod_lt _ hpos) ?_
  calc montForm (32 * l) n (x * y) * 2 ^ (32 * l)
      ≡ x * y * 2 ^ (32 * l) * 2 ^ (32 * l) [MOD n] := (montForm_modEq _ n _).mul_right _
    _ = x * 2 ^ (32 * l) * (y * 2 ^ (32 * l)) := by ring
    _ ≡ montForm (32 * l) n x * montForm (32 * l) n y [MOD n] := ((montForm_modEq _ n x).mul (montForm_modEq _ n y)).symm

theorem montMulAlg_montForm_one (hn : 1 < n) (x : Nat) :
    montMulAlg l (contextOf (32 * l) n) (montForm (32 * l) n x) 1 = x % n := by
  have hpos : 0 < n := by omega
  refine montMulAlg_eq_of_modEq hodd hnl (Nat.mod_lt _ hpos) hn (Nat.mod_lt _ hpos) ?_
  calc x % n * 2 ^ (32 * l)
      ≡ x * 2 ^ (32 * l) [MOD n] := (Nat.mod_modEq x n).mul_right _
    _ ≡ montForm (32 * l) n x * 1 [MOD n] := by rw [mul_one]; exact (montForm_modEq _ n x).symm

/-- In the Montgomery domain the loop multiplies the forms of the powers. -/
theorem modExpAlg_of_odd (hn : 1 < n) {x : Nat} (hx : x < n) (e : Nat) :
    modExpAlg l (contextOf (32 * l) n) x e = x ^ e % n := by
  have hloop := expLoop_eq (mul := montMulAlg l (contextOf (32 * l) n)) (f := fun k => montForm (32 * l) n (x ^ k))
    (fun j k => by rw [montMulAlg_montForm hodd hnl, pow_add]) e
  rw [pow_one, pow_zero] at hloop
  rw [modExpAlg_eq_montgomery (decide_eq_true hodd), montMulAlg_rr hodd hnl hx, montMulAlg_rr hodd hnl hn, hloop,
    montMulAlg_montForm_one hodd hnl hn]

end odd

/-! ## The remainders -/

/-- With Barrett reduction the loop multiplies the remainders of the powers. -/
theorem modExpAlg_of_even {l w n : Nat} (heven : ¬ n % 2 = 1) (hn : 2 ≤ n) (hlen : bitlen n ≤ 4096) {x : Nat} (hx : x < n)
    (e : Nat) : modExpAlg l (contextOf w n) x e = x ^ e % n := by
  have hpos : 0 < n := by omega
  have hmul (j k : Nat) : barrettAlg (contextOf w n) (x ^ j % n * (x ^ k % n)) = x ^ (j + k) % n := by
    rw [barrettAlg_eq hn (mul_lt_barrett_domain (Nat.mod_lt _ hpos) (Nat.mod_lt _ hpos)) w hlen, ← Nat.mul_mod, pow_add]
  have hloop := expLoop_eq (mul := fun a b => barrettAlg (contextOf w n) (a * b)) (f := fun k => x ^ k % n) hmul e
  rw [pow_one, pow_zero, Nat.mod_eq_of_lt hx, Nat.mod_eq_of_lt hn] at hloop
  exact (modExpAlg_eq_barrett (decide_eq_false heven) l x e).trans hloop

/-! ## Both moduli -/

theorem modExpAlg_eq {l n x : Nat} (hl : l ≤ 128) (hn : 2 ≤ n) (hnl : n < 2 ^ (32 * l)) (hx : x < n) (e : Nat) :
    modExpAlg l (contextOf (32 * l) n) x e = x ^ e % n := by
  by_cases hodd : n % 2 = 1
  · exact modExpAlg_of_odd hodd hnl hn hx e
  · have hlen : bitlen n ≤ 32 * l := (bitlen_le_iff _ _).2 hnl
    exact modExpAlg_of_even hodd hn (by omega) hx e

/-- Settles O58, from the one loop lemma at the Montgomery forms and at the remainders of the powers. -/
theorem squareAndMultiplyIsThePower : Obligations.SquareAndMultiplyIsThePower :=
  fun _ _ _ e _ hl hn hnl hx => modExpAlg_eq hl hn hnl hx e

end Sys2Proof.Machine
end

section
/-! `MODEXP` (43_modexp R150, R152): its word, its errors and what it writes; and that with correctly paired keys a second `MODEXP`
undoes the first. -/

namespace Sys2Proof.Machine

/-! ## The command (43_modexp R150) -/

theorem encode_modexp (d a b : Reg) : encode (.modexp d a b) =
    BitVec.ofNat 32 (b.index * 2 ^ 16 + a.index * 2 ^ 12 + d.index * 2 ^ 8 + 0x08) := by
  simp [encode, opcodeOf, mkWord_eq_ofNat]

/-- `MODEXP` of a residue of a modulus that fits the registers leaves the power. -/
theorem State.complete_modexp {s : State} (hv : s.ctx.valid = true) (hnw : s.ctx.n < 2 ^ s.width) {a : Reg}
    (ha : s.value a < s.ctx.n) (d b : Reg) : Succeeded s (s.complete (answerOf (.modexp d a b) s)) [d] false ∧
      (s.complete (answerOf (.modexp d a b) s)).value d = s.value a ^ s.value b % s.ctx.n := by
  have hlt : s.value a ^ s.value b % s.ctx.n < s.ctx.n := Nat.mod_lt _ (by omega)
  rw [answerOf, modexpResult, needCtx_eq, if_pos hv, needResidues_of_lt (by simpa using ha), powMod_eq]
  exact ⟨Succeeded.of_writes s rfl, s.value_complete_writeOne d (hlt.trans hnw)⟩

/-- The reference datapath with the machine's context (43_modexp R151). -/
theorem State.Inv.modExpAlg_eq {s : State} (h : s.Inv) (hv : s.ctx.valid = true) {x : Nat} (hx : x < s.ctx.n) (e : Nat) :
    modExpAlg s.params.limbs s.ctx x e = x ^ e % s.ctx.n := by
  obtain ⟨hn, hnw, hctx⟩ := h.ctx_eq hv
  obtain ⟨-, hl, -⟩ := h.params
  have halg := Machine.modExpAlg_eq hl hn hnw hx e
  rwa [← State.width, ← hctx] at halg

/-- Settles O50: the checks in their order, then the power, which the datapath computes too. -/
theorem modexpIsThePower : Obligations.ModexpIsThePower := by
  intro d a b s h
  refine ⟨encode_modexp d a b ▸ decode_encode rfl, _, exec_eq (.modexp d a b) s, Failed.of_noctx, fun hv hx => ?range,
    fun hv ha => ?ok⟩
  case range =>
    rw [answerOf, modexpResult, needCtx_eq, if_pos hv, needResidues_of_le (by simpa using hx)]
    exact Failed.of_err s .range
  case ok =>
    obtain ⟨-, hnw, -⟩ := h.ctx_eq hv
    obtain ⟨hsucceeded, hval⟩ := State.complete_modexp hv hnw ha d b
    exact ⟨hsucceeded, hval, hval.trans (h.modExpAlg_eq hv ha _).symm⟩

/-! ## Two commands in a row -/

theorem Succeeded.value_eq {s t : State} {ds : List Reg} {setsCtx : Bool} (h : Succeeded s t ds setsCtx) {r : Reg} (hr : r ∉ ds) :
    t.value r = s.value r := by
  rw [State.value, h.others r hr, State.value]

theorem Succeeded.width_eq {s t : State} {ds : List Reg} {setsCtx : Bool} (h : Succeeded s t ds setsCtx) : t.width = s.width := by
  rw [State.width, h.params, State.width]

/-- A second `MODEXP`, on the result of the first, multiplies the exponents: the first leaves the second exponent and the
context. -/
theorem State.Inv.modexp_modexp {s : State} (h : s.Inv) (hv : s.ctx.valid = true) {a c e : Reg} (ha : s.value a < s.ctx.n)
    (hce : c ≠ e) (b m : Reg) : ∃ t u, exec (.modexp c a b) s = .next t ∧ exec (.modexp m c e) t = .next u ∧
      u.value m = s.value a ^ (s.value b * s.value e) % s.ctx.n := by
  obtain ⟨-, hnw, -⟩ := h.ctx_eq hv
  obtain ⟨hfirst, hval⟩ := complete_modexp hv hnw ha c b
  refine ⟨_, _, exec_eq (.modexp c a b) s, exec_eq (.modexp m c e) _, ?_⟩
  generalize s.complete (answerOf (.modexp c a b) s) = t at hfirst hval ⊢
  have hctx : t.ctx = s.ctx := hfirst.ctx rfl
  have hexp : t.value e = s.value e := hfirst.value_eq (by simpa using hce.symm)
  have hbase : t.value c < t.ctx.n := by
    rw [hval, hctx]
    exact Nat.mod_lt _ (by omega)
  obtain ⟨-, hval2⟩ := complete_modexp (by rwa [hctx]) (by rwa [hctx, hfirst.width_eq]) hbase m e
  rw [hval2, hval, hexp, hctx, ← Nat.pow_mod, pow_mul]

/-! ## The round trip (43_modexp R152) -/

/-- Fermat's little theorem, for every exponent that is 1 modulo `p - 1`. -/
theorem pow_one_add_mul_modEq {p : Nat} (hp : p.Prime) (x k : Nat) : x ^ (1 + (p - 1) * k) ≡ x [MOD p] := by
  have hfermat : x ^ p ≡ x [MOD p] := by exact_mod_cast Int.ModEq.pow_prime_eq_self hp x
  induction k with
  | zero => simp [Nat.ModEq.refl]
  | succ k ih => calc
      x ^ (1 + (p - 1) * (k + 1)) = x ^ (1 + (p - 1) * k) * x ^ (p - 1) := by ring
      _ ≡ x * x ^ (p - 1) [MOD p] := ih.mul_right _
      _ = x ^ p := mul_pow_sub_one hp.ne_zero x
      _ ≡ x [MOD p] := hfermat

/-- The key condition makes the exponent 1 more than a multiple of `p - 1` and of `q - 1`: it is not 0, because 1 is not 0 modulo
`(p - 1) * (q - 1)` for distinct primes. -/
theorem pow_modEq_self_of_keys {p q n : Nat} (hp : p.Prime) (hq : q.Prime) (hne : p ≠ q)
    (hn : n ≡ 1 [MOD (p - 1) * (q - 1)]) (x : Nat) : x ^ n ≡ x [MOD p * q] := by
  have hp2 := hp.two_le
  have hq2 := hq.two_le
  have hphi : 1 < (p - 1) * (q - 1) := Nat.one_lt_mul_iff.2 ⟨by omega, by omega, by omega⟩
  have hpos : 1 ≤ n := by
    by_contra hzero
    obtain rfl : n = 0 := by omega
    exact absurd (hn.eq_of_lt_of_lt (by omega) hphi) (by omega)
  obtain ⟨k, hk⟩ := (Nat.modEq_iff_dvd' hpos).1 hn.symm
  obtain rfl : n = 1 + (p - 1) * (q - 1) * k := by omega
  refine (Nat.modEq_and_modEq_iff_modEq_mul ((Nat.coprime_primes hp hq).2 hne)).1 ⟨?_, ?_⟩
  · rw [mul_assoc]
    exact pow_one_add_mul_modEq hp x _
  · rw [mul_comm (p - 1), mul_assoc]
    exact pow_one_add_mul_modEq hq x _

/-- Settles O51: the second command multiplies the exponents, and the power with the product of a key pair is the unit; modulo 9 the
ninth power of 2 is 8. -/
theorem rsaRoundTrip : Obligations.RsaRoundTrip := by
  refine ⟨fun c a b m e s p q h hv hp hq hpq hn hkeys ha hce => ?keys, fun c a b m e s h hv hn ha hb he hce => ?square⟩
  case keys =>
    obtain ⟨t, u, hfirst, hsecond, hval⟩ := h.modexp_modexp hv ha hce b m
    refine ⟨t, u, hfirst, hsecond, hval.trans (Nat.mod_eq_of_modEq ?_ ha)⟩
    rw [hn]
    exact pow_modEq_self_of_keys hp hq hpq hkeys (s.value a)
  case square =>
    obtain ⟨t, u, hfirst, hsecond, hval⟩ := h.modexp_modexp hv (show s.value a < s.ctx.n by omega) hce b m
    rw [ha, hb, he, hn] at hval
    exact ⟨t, u, hfirst, hsecond, hval⟩

end Sys2Proof.Machine
end

section
/-! How the engine's turn ends a command (10_state R45), and what a failed command leaves (60_exceptions R170). -/

namespace Sys2Proof.Machine

@[simp] theorem State.complete_ie (s : State) (r : CmdResult) : (s.complete r).ie = s.ie := by
  rcases r with ⟨ws, c⟩ | code
  · rw [State.complete_ok]
  · rfl

/-- While `rst` is asserted the engine is idle (70_reset_and_hazards R190). -/
theorem State.Inv.rst_eq_false {s : State} (h : s.Inv) (hphase : s.phase = .busy) : s.rst = false := by
  refine Bool.eq_false_iff.2 fun hrst => ?_
  obtain ⟨-, hidle, -⟩ := h.reset hrst
  cases hphase.symm.trans hidle

/-- The engine ends every command word, decodable or not, with the completion step of an answer; an error has a code. -/
theorem engineStep_complete {s : State} (hphase : s.phase = .busy) (hrst : s.rst = false) :
    ∃ r, engineStep s = .next (s.complete r) ∧ ∀ code, r = .err code → code ≠ .noError := by
  cases hd : decode s.inflight with
  | error code =>
    refine ⟨.err code, engineStep_error hphase hrst hd, ?_⟩
    rintro _ ⟨⟩
    rcases decode_error_cases hd with rfl | rfl <;> decide
  | ok i =>
    refine ⟨answerOf i s, (engineStep_ok hphase hrst hd).trans (exec_eq i s), fun code hcode => ?_⟩
    have hanswers := answers_answerOf i s
    rw [hcode] at hanswers
    obtain ⟨_, ⟨⟩, -⟩ | ⟨_, -, -, ⟨⟩⟩ | ⟨_, ⟨⟩, hne⟩ := hanswers
    exact hne

/-- Settles O34: a completion that succeeds keeps `ERR`, which is 0 while busy, so the one that shows it is a failing one. -/
theorem failedCommandWritesNothing : Obligations.FailedCommandWritesNothing := by
  intro s t rest h hphase hnext hstep herr
  obtain ⟨r, hr, hcode⟩ := engineStep_complete (s := s.setPending rest) hphase (h.rst_eq_false hphase)
  rw [step_of_engineIsNext hnext, hr] at hstep
  cases hstep
  obtain ⟨-, hbusy, -⟩ := h.flags
  obtain ⟨hdone, hnoerr⟩ := hbusy hphase
  cases r with
  | ok ws c =>
    rw [State.complete_ok] at herr
    cases hnoerr.symm.trans herr
  | err code => exact ⟨hcode code rfl, hdone, rfl, h.cmd hphase, Failed.of_err _ code⟩

end Sys2Proof.Machine
end

section
/-! The interrupt line (60_exceptions R175): the flags it is made of, what each kind of step does to them, and from that the steps
that raise it and those that let it fall. -/

namespace Sys2Proof.Machine

/-! ## The flags that drive the line -/

/-- `IE`, `DONE` and `ERR` of `s` are the given bits. -/
structure State.Drives (s : State) (ie done err : Bool) : Prop where
  ie   : s.ie = ie
  done : s.done = done
  err  : s.err = err

theorem State.irq_eq_true {s : State} : s.irq = true ↔ s.ie = true ∧ (s.done = true ∨ s.err = true) := by
  rw [State.irq, Bool.and_eq_true, Bool.or_eq_true]

theorem State.Drives.irq {s : State} {ie done err : Bool} (h : s.Drives ie done err) : s.irq = (ie && (done || err)) := by
  rw [State.irq, h.ie, h.done, h.err]

theorem State.drives_softReset (s : State) : s.softReset.Drives false false false := by
  cases hphase : s.phase with
  | idle => rw [State.softReset_idle hphase]; exact ⟨rfl, rfl, rfl⟩
  | busy => rw [State.softReset_busy hphase]; exact ⟨rfl, rfl, rfl⟩

/-- `DONE` and `ERR` are 0 after START, accepted or refused: a refused one finds the engine busy (10_state R40, R46). -/
theorem State.FlagsWf.drives_start {s : State} (h : s.FlagsWf) : s.start.Drives s.ie false false := by
  cases hphase : s.phase with
  | idle => rw [State.start_idle hphase]; exact ⟨rfl, rfl, rfl⟩
  | busy =>
    obtain ⟨-, hbusy, -⟩ := h
    obtain ⟨hdone, herr⟩ := hbusy hphase
    rw [State.start_busy hphase]
    exact ⟨rfl, hdone, herr⟩

/-- A `CTRL` write takes `IE` from bit 2; `SRST` clears it, and both `SRST` and START clear `DONE` and `ERR`. -/
theorem State.FlagsWf.drives_writeCtrl {s : State} (h : s.FlagsWf) (v : Word) :
    (s.writeCtrl v).Drives (v.getLsbD 2 && !v.getLsbD 1) (s.done && !(v.getLsbD 0 || v.getLsbD 1))
      (s.err && !(v.getLsbD 0 || v.getLsbD 1)) := by
  cases hsrst : v.getLsbD 1 with
  | true =>
    rw [State.writeCtrl_srst hsrst]
    simpa using s.drives_softReset
  | false =>
    have hset : (s.setIe (v.getLsbD 2)).FlagsWf := h
    rw [State.writeCtrl_noSrst hsrst]
    cases hstart : v.getLsbD 0 with
    | true => simpa using hset.drives_start
    | false => constructor <;> simp

/-! ## One step -/

section step
variable {s t : State} {v : Word} {rest : List Event}

theorem State.Inv.drives_of_ctrl_write (h : s.Inv) (hstep : step s = .next t) (hrst : s.rst = false)
    (hp : s.pending = wr s.params 0x008 v :: rest) :
    t.Drives (v.getLsbD 2 && !v.getLsbD 1) (s.done && !(v.getLsbD 0 || v.getLsbD 1))
      (s.err && !(v.getLsbD 0 || v.getLsbD 1)) := by
  rw [step_wr hrst hp (by omega) rfl (slotOf_ctrl _)] at hstep
  cases hstep
  have hflags : (s.setPending rest).FlagsWf := h.flags
  obtain ⟨hie, hdone, herr⟩ := hflags.drives_writeCtrl v
  exact ⟨hie, hdone, herr⟩

theorem drives_of_status_write (hstep : step s = .next t) (hrst : s.rst = false)
    (hp : s.pending = wr s.params 0x010 v :: rest) :
    t.Drives s.ie (s.done && !v.getLsbD 1) (s.err && !v.getLsbD 2) := by
  rw [step_wr hrst hp (by omega) rfl (slotOf_status _), State.busWrite, State.writeStatus_eq] at hstep
  cases hstep
  exact ⟨rfl, rfl, rfl⟩

theorem drives_of_assertRst (hstep : step s = .next t) (hp : s.pending = .assertRst :: rest) :
    t.Drives false false false := by
  rw [step_assertRst hp] at hstep
  cases hstep
  exact ⟨rfl, rfl, rfl⟩

end step

/-- The release of `rst` finds the flags at their reset values (70_reset_and_hazards R190). -/
theorem State.Inv.drives_releaseReset {s : State} (h : s.Inv) (es : List Event) :
    (s.setPending es).releaseReset.Drives s.ie s.done s.err := by
  unfold State.releaseReset
  split
  next hrst =>
    obtain ⟨-, -, -, -, hie, hdone, herr, -⟩ := h.reset hrst
    exact ⟨hie.symm, hdone.symm, herr.symm⟩
  next => exact ⟨rfl, rfl, rfl⟩

/-- The engine's turn leaves the flags alone or completes a command. -/
theorem drives_or_completes_of_engineStep {s t : State} (hstep : engineStep s = .next t) :
    t.Drives s.ie s.done s.err ∨ (s.phase = .busy ∧ t.phase = .idle ∧ t.ie = s.ie) := by
  have hdisabled : s.phase = .idle ∨ s.rst = true → t.Drives s.ie s.done s.err := by
    intro hoff
    rw [engineStep_disabled hoff] at hstep
    cases hstep
    exact ⟨rfl, rfl, rfl⟩
  cases hphase : s.phase with
  | idle => exact .inl (hdisabled (.inl hphase))
  | busy =>
    cases hrst : s.rst with
    | true => exact .inl (hdisabled (.inr hrst))
    | false =>
      obtain ⟨r, hr, -⟩ := engineStep_complete hphase hrst
      cases hr.symm.trans hstep
      exact .inr ⟨rfl, State.complete_phase s r, State.complete_ie s r⟩

/-- Everything a step can do to the flags that drive the line: nothing, or one of four kinds of step. -/
theorem State.Inv.step_drives_cases {s t : State} (h : s.Inv) (hstep : step s = .next t) :
    t.Drives s.ie s.done s.err ∨
    (s.phase = .busy ∧ t.phase = .idle ∧ t.ie = s.ie) ∨
    (s.rst = false ∧ ∃ v rest, s.pending = wr s.params 0x008 v :: rest) ∨
    (s.rst = false ∧ ∃ v rest, s.pending = wr s.params 0x010 v :: rest) ∨
    ∃ rest, s.pending = .assertRst :: rest := by
  cases hp : s.pending with
  | nil =>
    rw [step_nil hp] at hstep
    exact (drives_or_completes_of_engineStep hstep).imp_right .inl
  | cons e rest =>
    cases e with
    | engine =>
      rw [step_engine hp] at hstep
      exact (drives_or_completes_of_engineStep hstep).imp_right .inl
    | assertRst => exact .inr (.inr (.inr (.inr ⟨rest, rfl⟩)))
    | releaseRst =>
      rw [step_releaseRst hp] at hstep
      cases hstep
      exact .inl (h.drives_releaseReset rest)
    | access a =>
      rw [step_access hp] at hstep
      cases hstep
      rcases (s.setPending rest).hostAccess_cases a with ⟨-, heq⟩ | ⟨-, heq | heq⟩ | ⟨-, _, heq⟩ | ⟨-, _, heq⟩ |
        ⟨hrst, v, rfl, -⟩ | ⟨hrst, v, rfl, -⟩ | ⟨-, -, _, -, heq⟩ | ⟨-, -, _, _, _, -, -, heq⟩
      case inr.inr.inr.inr.inl => exact .inr (.inr (.inl ⟨hrst, v, rest, rfl⟩))
      case inr.inr.inr.inr.inr.inl => exact .inr (.inr (.inr (.inl ⟨hrst, v, rest, rfl⟩)))
      all_goals
        rw [heq]
        exact .inl ⟨rfl, rfl, rfl⟩

/-! ## The line -/

section line
variable {s t : State} (h : s.Inv) (hstep : step s = .next t)
include h

/-- The line is low while the engine is busy (10_state R40). -/
theorem State.Inv.irq_of_busy (hphase : s.phase = .busy) : s.irq = false := by
  obtain ⟨-, hbusy, -⟩ := h.flags
  obtain ⟨hdone, herr⟩ := hbusy hphase
  rw [State.irq, hdone, herr, Bool.or_false, Bool.and_false]

include hstep

/-- From a busy state only a completion shows `DONE` or `ERR`, and it keeps `IE`. -/
theorem State.Inv.irq_of_completion (hphase : s.phase = .busy) (hflag : t.done = true ∨ t.err = true) : t.irq = s.ie := by
  obtain ⟨-, hbusy, -⟩ := h.flags
  obtain ⟨hdone, herr⟩ := hbusy hphase
  have hshown : ∀ {ie done err : Bool}, t.Drives ie done err → done = true ∨ err = true := by
    rintro _ _ _ ⟨-, rfl, rfl⟩
    exact hflag
  rcases h.step_drives_cases hstep with hkept | ⟨-, -, hie⟩ | ⟨hrst, v, rest, hp⟩ | ⟨hrst, v, rest, hp⟩ | ⟨rest, hp⟩
  · simpa [hdone, herr] using hshown hkept
  · have hor : (t.done || t.err) = true := by simpa using hflag
    rw [State.irq, hor, hie, Bool.and_true]
  · simpa [hdone, herr] using hshown (h.drives_of_ctrl_write hstep hrst hp)
  · simpa [hdone, herr] using hshown (drives_of_status_write hstep hrst hp)
  · simpa using hshown (drives_of_assertRst hstep hp)

/-- The steps that raise the line. -/
theorem State.Inv.irq_rises (hlow : s.irq = false) (hhigh : t.irq = true) :
    (s.phase = .busy ∧ t.phase = .idle ∧ s.ie = true) ∨
    (s.ie = false ∧ (s.done = true ∨ s.err = true) ∧
      ∃ v rest, v.getLsbD 0 = false ∧ v.getLsbD 1 = false ∧ v.getLsbD 2 = true ∧
        s.pending = wr s.params 0x008 v :: rest) := by
  rcases h.step_drives_cases hstep with hkept | ⟨hbusy, hidle, hie⟩ | ⟨hrst, v, rest, hp⟩ | ⟨hrst, v, rest, hp⟩ | ⟨rest, hp⟩
  · cases hhigh.symm.trans (hkept.irq.trans hlow)
  · exact .inl ⟨hbusy, hidle, hie ▸ (State.irq_eq_true.1 hhigh).1⟩
  · rw [(h.drives_of_ctrl_write hstep hrst hp).irq] at hhigh
    rw [State.irq] at hlow
    refine .inr ⟨?_, ?_, v, rest, ?_, ?_, ?_, hp⟩ <;> grind
  · rw [(drives_of_status_write hstep hrst hp).irq] at hhigh
    rw [State.irq] at hlow
    grind
  · cases hhigh.symm.trans (drives_of_assertRst hstep hp).irq

/-- The steps that let the line fall. -/
theorem State.Inv.irq_falls (hhigh : s.irq = true) (hlow : t.irq = false) :
    ∃ rest, (∃ v : Word, (s.done = true → v.getLsbD 1 = true) ∧ (s.err = true → v.getLsbD 2 = true) ∧
        s.pending = wr s.params 0x010 v :: rest) ∨
      (∃ v : Word, (v.getLsbD 0 = true ∨ v.getLsbD 1 = true ∨ v.getLsbD 2 = false) ∧
        s.pending = wr s.params 0x008 v :: rest) ∨
      s.pending = .assertRst :: rest := by
  rcases h.step_drives_cases hstep with hkept | ⟨hbusy, -, -⟩ | ⟨hrst, v, rest, hp⟩ | ⟨hrst, v, rest, hp⟩ | ⟨rest, hp⟩
  · cases hlow.symm.trans (hkept.irq.trans hhigh)
  · cases hhigh.symm.trans (h.irq_of_busy hbusy)
  · rw [(h.drives_of_ctrl_write hstep hrst hp).irq] at hlow
    rw [State.irq] at hhigh
    refine ⟨rest, .inr (.inl ⟨v, ?_, hp⟩)⟩
    grind
  · rw [(drives_of_status_write hstep hrst hp).irq] at hlow
    rw [State.irq] at hhigh
    refine ⟨rest, .inl ⟨v, ?_, ?_, hp⟩⟩ <;> grind
  · exact ⟨rest, .inr (.inr hp)⟩

end line

/-- Settles O22, from what each kind of step does to `IE`, `DONE` and `ERR`. -/
theorem interruptLevel : Obligations.InterruptLevel := by
  intro s t h hstep
  refine ⟨State.irq_eq_true, fun hbusy _ hflag => h.irq_of_completion hstep hbusy hflag, fun v rest hrst hp => ?ctrl,
    fun v rest hrst hp hdone herr => ?status, fun rest hp => (drives_of_assertRst hstep hp).irq, h.irq_rises hstep,
    h.irq_falls hstep⟩
  case ctrl =>
    rw [(h.drives_of_ctrl_write hstep hrst hp).irq]
    refine ⟨fun hstart hsrst hie hflag => ?_, ?_⟩
    · rw [hstart, hsrst, hie]
      simpa using hflag
    · rintro (hsrst | hie | ⟨hstart, -⟩)
      · rw [hsrst]; simp
      · rw [hie]; simp
      · rw [hstart]; simp
  case status =>
    rw [(drives_of_status_write hstep hrst hp).irq]
    grind

end Sys2Proof.Machine
end

section
/-! The encoder and the decoder are inverse (30_encoding R90 to R99): each well-formed command has exactly one word. -/

namespace Sys2Proof.Machine

/-- Settles O1: the encoder's word passes every check of its fields, and the decoder reads the operands back from them. -/
theorem decodeOfEncodeIsTheCommand : Obligations.DecodeOfEncodeIsTheCommand := fun _ => decode_encode

/-- A word that decodes has passed the checks of its fields. -/
theorem fields_of_decode_eq_ok {w : Word} {i : Instr} (h : decode w = .ok i) : ¬ HasIllegalBits w ∧ ¬ HasBadRegister w := by
  have hlegal : ¬ HasIllegalBits w := fun hbits => by cases h.symm.trans (decode_of_hasIllegalBits hbits)
  exact ⟨hlegal, fun hbad => by cases h.symm.trans (decode_of_hasBadRegister hlegal hbad)⟩

/-- Settles O2: the decoder answers the command in the fields, which has every bit of the word. -/
theorem encodeOfDecodeIsTheWord : Obligations.EncodeOfDecodeIsTheWord := by
  intro w i h
  obtain ⟨hlegal, hregs⟩ := fields_of_decode_eq_ok h
  rw [decode_of_fields hlegal hregs] at h
  split at h
  next hwf =>
    cases h
    exact ⟨hwf, encode_commandIn hlegal hregs⟩
  next => cases h

/-- Settles O4: each word is the encoder's word of its command. -/
theorem wordsOfTheRulesDecode : Obligations.WordsOfTheRulesDecode :=
  ⟨decode_encode (i := .nop) rfl, decode_encode (i := .mov .v4 .v1) rfl, decode_encode (i := .setmod .v0) rfl,
    decode_encode (i := .mulw .v4 .v5 .v1 .v2) rfl, decode_encode (i := .montmul .v4 .v1 .v2) rfl,
    decode_encode (i := .tomont .v4 .v1) rfl, decode_encode (i := .frommont .v4 .v1) rfl,
    decode_encode (i := .modmul .v4 .v1 .v2) rfl, decode_encode (i := .bred .v4 .v5 .v6) rfl,
    decode_encode (i := .egcd .v4 .v5 .v6 .v1 .v2) rfl, decode_encode (i := .modinv .v4 .v1 .v2) rfl,
    decode_encode (i := .modexp .v4 .v1 .v2) rfl⟩

end Sys2Proof.Machine
end

section
/-! Everything a step can do (10_state R30), once: the completion of the command in flight, a host access by its kinds, and the two
edges of `rst`. -/

namespace Sys2Proof.Machine

/-! ## The engine's turn -/

/-- How the engine ends the command in flight (10_state R45): register writes, the context of `SETMOD`, or an error. -/
inductive Completion (s : State) : State → Prop where
  | writes {i : Instr} {ws : List (Reg × Nat)} (hd : decode s.inflight = .ok i) (hws : ws.map Prod.fst = i.dests) :
      Completion s (s.complete (.ok ws none))
  | context {a : Reg} (hd : decode s.inflight = .ok (.setmod a)) (hn : 2 ≤ s.value a) :
      Completion s (s.complete (.ok [] (some (contextOf s.width (s.value a)))))
  | error {code : ErrCode} (hcode : code ≠ .noError) : Completion s (s.failWith code)

theorem Completion.of_engineStep {s t : State} (hphase : s.phase = .busy) (hrst : s.rst = false)
    (h : engineStep s = .next t) : Completion s t := by
  cases hd : decode s.inflight with
  | error code =>
    cases (engineStep_error hphase hrst hd).symm.trans h
    refine .error ?_
    rcases decode_error_cases hd with rfl | rfl <;> decide
  | ok i =>
    obtain ⟨r, hr, hanswers⟩ := exec_cases i s
    cases ((engineStep_ok hphase hrst hd).trans hr).symm.trans h
    obtain ⟨ws, rfl, hws, -⟩ | ⟨a, rfl, hn, rfl⟩ | ⟨code, rfl, hcode⟩ := hanswers
    · exact .writes hd hws
    · exact .context hd hn
    · exact .error hcode

/-! ## One host access -/

/-- The state after a host access, by the kinds of access (20_memory R60 to R64, R69; 10_state R37, R46). -/
inductive AccessEffect (s : State) (a : Access) : State → Prop where
  | outside : AccessEffect s a s
  | readInReset (hrst : s.rst = true) : AccessEffect s a s.drawAnswer
  | writeInReset (hrst : s.rst = true) : AccessEffect s a (s.answer none)
  | refused (hrst : s.rst = false) (w : Option Word) : AccessEffect s a (s.accessError.answer w)
  | read (hrst : s.rst = false) (w : Word) : AccessEffect s a (s.answer (some w))
  | softReset (hrst : s.rst = false) (ha : AsksForReset s.params a) : AccessEffect s a (s.softReset.answer none)
  | setIe (hrst : s.rst = false) (b : Bool) : AccessEffect s a ((s.setIe b).answer none)
  | start (hrst : s.rst = false) (hphase : s.phase = .idle) (b : Bool) : AccessEffect s a ((s.setIe b).acceptStart.answer none)
  | startRefused (hrst : s.rst = false) (b : Bool) : AccessEffect s a ((s.setIe b).accessError.answer none)
  | status (hrst : s.rst = false) (v : Word) (ha : a = ⟨.write v, s.params.base + 0x010, 4, 0xF⟩) :
      AccessEffect s a ((s.writeStatus v).answer none)
  | cmd (hrst : s.rst = false) (hphase : s.phase = .idle) (v : Word) : AccessEffect s a ((s.setCmd v).answer none)
  | limb (hrst : s.rst = false) (hphase : s.phase = .idle) {r : Reg} {j : Nat} (hj : j < s.params.limbs) (v : Word)
      (ha : a = ⟨.write v, s.params.base + limbOffset r j, 4, 0xF⟩) : AccessEffect s a ((s.writeLimb r j v).answer none)

theorem AccessEffect.of_writeCtrl {s : State} {v : Word} (hrst : s.rst = false) :
    AccessEffect s ⟨.write v, s.params.base + 0x008, 4, 0xF⟩ ((s.writeCtrl v).answer none) := by
  cases hsrst : v.getLsbD 1 with
  | true =>
    rw [State.writeCtrl_srst hsrst]
    exact .softReset hrst ⟨v, hsrst, rfl⟩
  | false =>
    rw [State.writeCtrl_noSrst hsrst]
    split
    · cases hphase : s.phase with
      | idle =>
        rw [State.start_idle (s := s.setIe (v.getLsbD 2)) hphase]
        exact .start hrst hphase _
      | busy =>
        rw [State.start_busy (s := s.setIe (v.getLsbD 2)) hphase]
        exact .startRefused hrst _
    · exact .setIe hrst _

theorem accessEffect_hostAccess (s : State) (a : Access) : AccessEffect s a (s.hostAccess a) := by
  rcases s.hostAccess_cases a with ⟨-, heq⟩ | ⟨hrst, heq | heq⟩ | ⟨hrst, w, heq⟩ | ⟨hrst, w, heq⟩ | ⟨hrst, v, rfl, heq⟩ |
    ⟨hrst, v, ha, heq⟩ | ⟨hrst, hphase, v, -, heq⟩ | ⟨hrst, hphase, r, j, v, hj, ha, heq⟩ <;> rw [heq]
  · exact .outside
  · exact .readInReset hrst
  · exact .writeInReset hrst
  · exact .refused hrst w
  · exact .read hrst w
  · exact .of_writeCtrl hrst
  · exact .status hrst v ha
  · exact .cmd hrst hphase v
  · exact .limb hrst hphase hj v ha

/-! ## One step -/

/-- The state after a step, by the event that happens and what it finds. -/
inductive StepEffect (s : State) : State → Prop where
  | engineOff {rest : List Event} (hnext : EngineIsNext s rest) (hoff : s.phase = .idle ∨ s.rst = true) :
      StepEffect s (s.setPending rest)
  | completion {rest : List Event} {t : State} (hnext : EngineIsNext s rest) (hphase : s.phase = .busy)
      (hrst : s.rst = false) (h : Completion (s.setPending rest) t) : StepEffect s t
  | access {rest : List Event} {a : Access} {t : State} (hp : s.pending = .access a :: rest)
      (h : AccessEffect (s.setPending rest) a t) : StepEffect s t
  | assertRst {rest : List Event} (hp : s.pending = .assertRst :: rest) :
      StepEffect s ((s.setPending rest).setRst true).powerOn
  | releaseRst {rest : List Event} (hp : s.pending = .releaseRst :: rest) (hrst : s.rst = true) :
      StepEffect s ((s.setPending rest).setRst false).powerOn
  | released {rest : List Event} (hp : s.pending = .releaseRst :: rest) (hrst : s.rst = false) :
      StepEffect s (s.setPending rest)

theorem StepEffect.of_engineIsNext {s t : State} {rest : List Event} (hnext : EngineIsNext s rest)
    (h : step s = .next t) : StepEffect s t := by
  rw [step_of_engineIsNext hnext] at h
  rcases engineStep_cases (s.setPending rest) with ⟨hoff, heq⟩ | ⟨hphase, hrst, -⟩ | ⟨hphase, hrst, -⟩
  · cases heq.symm.trans h
    exact .engineOff hnext hoff
  · exact .completion hnext hphase hrst (.of_engineStep hphase hrst h)
  · exact .completion hnext hphase hrst (.of_engineStep hphase hrst h)

theorem State.releaseReset_asserted {s : State} (h : s.rst = true) : s.releaseReset = (s.setRst false).powerOn := if_pos h

theorem State.releaseReset_released {s : State} (h : s.rst = false) : s.releaseReset = s := if_neg (by simp [h])

theorem stepEffect_of_step {s t : State} (h : step s = .next t) : StepEffect s t := by
  cases hp : s.pending with
  | nil => exact .of_engineIsNext (.inl ⟨hp, rfl⟩) h
  | cons e rest =>
    cases e with
    | engine => exact .of_engineIsNext (.inr hp) h
    | access a =>
      cases (step_access hp).symm.trans h
      exact .access hp (accessEffect_hostAccess _ a)
    | assertRst =>
      cases (step_assertRst hp).symm.trans h
      exact .assertRst hp
    | releaseRst =>
      rw [step_releaseRst hp] at h
      cases hrst : s.rst with
      | true =>
        rw [State.releaseReset_asserted (s := s.setPending rest) hrst] at h
        cases h
        exact .releaseRst hp hrst
      | false =>
        rw [State.releaseReset_released (s := s.setPending rest) hrst] at h
        cases h
        exact .released hp hrst

/-- Settles O27: the engine answers a next state whether or not it is enabled, and so does every other event. -/
theorem everyStateHasANextState : Obligations.EveryStateHasANextState := by
  have hengine (u : State) : ∃ t, engineStep u = .next t := by
    rcases engineStep_cases u with ⟨-, heq⟩ | ⟨-, -, i, -, heq⟩ | ⟨-, -, code, -, heq⟩
    · exact ⟨_, heq⟩
    · exact ⟨_, heq.trans (exec_eq i u)⟩
    · exact ⟨_, heq⟩
  intro s
  cases hp : s.pending with
  | nil => exact step_nil hp ▸ hengine s
  | cons e rest =>
    cases e with
    | engine => exact step_engine hp ▸ hengine _
    | access a => exact ⟨_, step_access hp⟩
    | assertRst => exact ⟨_, step_assertRst hp⟩
    | releaseRst => exact ⟨_, step_releaseRst hp⟩

end Sys2Proof.Machine
end

section
/-! The resets (70_reset_and_hazards R190, R191): the state after power-on, what happens while `rst` is asserted, and a soft reset. -/

namespace Sys2Proof.Machine

/-! ## Power-on reset -/

theorem controlReset_resetFor (p : Params) : ControlReset (State.resetFor p) := by constructor <;> rfl

theorem controlReset_powerOn (s : State) : ControlReset s.powerOn := by constructor <;> rfl

theorem fresh_powerOn (s : State) (r : Reg) :
    ∃ n, s.draws ≤ n ∧ n < s.powerOn.draws ∧ s.powerOn.regs.get r = freeReg s.params.limbs n := by
  have hr := r.index_lt
  exact ⟨s.draws + r.index, by omega, by rw [State.powerOn_draws]; omega, get_freeRegs _ _ r⟩

/-- Settles O7: the fields of the reset state, and the length of a free draw. -/
theorem resetStateValues : Obligations.ResetStateValues := by
  intro p
  have hstatus : (State.resetFor p).statusWord.toNat = 0 := (State.resetFor p).statusWord_toNat
  refine ⟨controlReset_resetFor p, rfl, rfl, rfl, BitVec.eq_of_toNat_eq hstatus, fun r => ?_⟩
  have hget : (State.resetFor p).regs.get r = freeReg p.limbs (0 + r.index) := get_freeRegs p.limbs 0 r
  rw [hget, length_freeReg]

/-- While `rst` is asserted an access changes nothing but the answer and the count of draws. -/
theorem State.hostAccess_asserted {s : State} (hrst : s.rst = true) (a : Access) :
    ∃ w n, s.hostAccess a = { s with resp := w, draws := n } := by
  cases hoff : Params.offset s.params a.addr with
  | none => exact ⟨s.resp, s.draws, State.hostAccess_outside hoff⟩
  | some off =>
    rw [State.hostAccess_inside hoff, if_pos hrst, State.accessInReset]
    cases a.dir with
    | read => exact ⟨_, _, rfl⟩
    | write v => exact ⟨_, _, rfl⟩

/-- Settles O8: both edges are `powerOn`, and while `rst` is asserted the engine is off and an access is only answered. -/
theorem powerOnReset : Obligations.PowerOnReset := by
  refine fun s rest => ⟨fun hp => ?assertion, fun hrst hp => ?release, fun hrst hp => ?asserted⟩
  case assertion => exact ⟨_, step_assertRst hp, controlReset_powerOn _, rfl, rfl, rfl, fresh_powerOn _⟩
  case release =>
    have hrelease : (s.setPending rest).releaseReset = ((s.setPending rest).setRst false).powerOn :=
      State.releaseReset_asserted hrst
    exact ⟨_, step_releaseRst hp, hrelease ▸ ⟨controlReset_powerOn _, rfl, rfl, rfl, fresh_powerOn _⟩⟩
  case asserted =>
    have hstep : ∃ w n, step s = .next { s with pending := rest, resp := w, draws := n } := by
      rcases hp with hengine | ⟨a, haccess⟩
      · exact ⟨s.resp, s.draws, (step_engine hengine).trans (engineStep_disabled (.inr hrst))⟩
      · obtain ⟨w, n, heq⟩ := State.hostAccess_asserted (s := s.setPending rest) hrst a
        exact ⟨w, n, heq ▸ step_access haccess⟩
    obtain ⟨w, n, hstep⟩ := hstep
    exact ⟨_, hstep, rfl, hrst, rfl, rfl, rfl, rfl, rfl, rfl, rfl, rfl, rfl, rfl, rfl⟩

/-! ## Soft reset -/

/-- The destinations of a command in flight are drawn afresh, and nothing is drawn later. -/
theorem abandonedAreFresh_softReset (s : State) (w : Option Word) : AbandonedAreFresh s (s.softReset.answer w) := by
  intro r hphase hr
  rw [State.softReset_busy hphase]
  rcases s.get_drawRegs (abandonedDests s.inflight) r with ⟨hnot, -⟩ | ⟨-, n, hlow, hhigh, heq⟩
  · exact absurd (mem_abandonedDests.2 hr) hnot
  · refine ⟨n, hlow, ?_, heq⟩
    have hdraws : (s.drawRegs (abandonedDests s.inflight)).draws = s.draws + (abandonedDests s.inflight).length := by
      rw [State.drawRegs_eq]
    rwa [State.answer_draws, State.clearControl_draws, hdraws]

/-- Settles O11: the write reaches `CTRL`, and `SRST` wins over the rest of it. -/
theorem softResetWrite : Obligations.SoftResetWrite := by
  intro s v rest hrst hsrst hp
  have hstep := step_wr hrst hp (by omega) rfl (slotOf_ctrl _)
  rw [State.busWrite, State.writeCtrl_srst hsrst] at hstep
  exact ⟨_, hstep, softReset_spec (s.setPending rest) none, abandonedAreFresh_softReset (s.setPending rest) none⟩

end Sys2Proof.Machine
end

section
/-! The invariant (10_state R32, R33, R40; 70_reset_and_hazards R190): each operation keeps it where the machine uses it, and so does
every step. -/

namespace Sys2Proof.Machine

/-! ## The resets -/

/-- Where the control state is reset, the invariant says only that the configuration is valid and each register has `L` limbs. -/
theorem ControlReset.inv {t : State} (h : ControlReset t) (hp : t.params.Valid) (hr : t.RegsWf) : t.Inv := by
  obtain ⟨hctx, hphase, hinflight, hcmd, hie, hdone, herr, haerr, herrcode, -⟩ := h
  refine ⟨hp, hr, .inr hctx, ⟨?_, ?_, ?_⟩, ?_, fun _ => ⟨hctx, hphase, hinflight, hcmd, hie, hdone, herr, haerr, herrcode⟩⟩
  · simp [hdone]
  · simp [hdone, herr]
  · simp [herr, herrcode]
  · simp [State.CmdWf, hphase]

/-- Settles O9: the control state is reset, and a free draw has `L` limbs. -/
theorem resetHasTheInvariant : Obligations.ResetHasTheInvariant := by
  have hinv (p : Params) (hp : p.Valid) : (State.resetFor p).Inv := by
    obtain ⟨hcontrol, -, -, -, -, hlength⟩ := resetStateValues p
    exact hcontrol.inv hp hlength
  exact ⟨hinv, hinv Params.reference (by decide)⟩

theorem State.Inv.powerOn {s : State} (h : s.Inv) (b : Bool) : (s.setRst b).powerOn.Inv := by
  refine (controlReset_powerOn _).inv h.params fun r => ?_
  rw [State.powerOn_regs, get_freeRegs, length_freeReg]
  rfl

theorem State.Inv.softReset {s : State} (h : s.Inv) (w : Option Word) : (s.softReset.answer w).Inv := by
  obtain ⟨hcontrol, hkept, hparams, -⟩ := softReset_spec s w
  refine hcontrol.inv (hparams ▸ h.params) fun r => ?_
  rw [hparams]
  by_cases hr : s.phase = .busy ∧ IsAbandoned s.inflight r
  · obtain ⟨hphase, habandoned⟩ := hr
    obtain ⟨n, -, -, hfresh⟩ := abandonedAreFresh_softReset s w r hphase habandoned
    rw [hfresh, length_freeReg]
    rfl
  · have hnot : s.phase = .idle ∨ ¬ IsAbandoned s.inflight r := by
      cases hphase : s.phase with
      | idle => exact .inl rfl
      | busy => exact .inr fun habandoned => hr ⟨hphase, habandoned⟩
    rw [hkept r hnot]
    exact h.regs r

/-! ## The port and the queue -/

section port
variable {s : State} (h : s.Inv)
include h

theorem State.Inv.setPending (es : List Event) : (s.setPending es).Inv :=
  ⟨h.params, h.regs, h.ctx, h.flags, h.cmd, h.reset⟩

theorem State.Inv.answer (w : Option Word) : (s.answer w).Inv :=
  ⟨h.params, h.regs, h.ctx, h.flags, h.cmd, h.reset⟩

theorem State.Inv.drawAnswer : s.drawAnswer.Inv :=
  ⟨h.params, h.regs, h.ctx, h.flags, h.cmd, h.reset⟩

end port

/-! ## Writes, while `rst` is released -/

theorem State.ResetWf.of_released {s : State} (hrst : s.rst = false) : s.ResetWf := fun hasserted => by
  cases hrst.symm.trans hasserted

section writes
variable {s : State} (h : s.Inv) (hrst : s.rst = false)
include h hrst

theorem State.Inv.accessError : s.accessError.Inv := h.set_aerr hrst true

theorem State.Inv.setIe (b : Bool) : (s.setIe b).Inv :=
  ⟨h.params, h.regs, h.ctx, h.flags, h.cmd, .of_released hrst⟩

/-- An accepted START clears the completion status and captures the word that `CMD` still holds (10_state R46). -/
theorem State.Inv.acceptStart : s.acceptStart.Inv := by
  refine ⟨h.params, h.regs, h.ctx, ⟨?_, fun _ => ⟨rfl, rfl⟩, ?_⟩, fun _ => rfl, .of_released hrst⟩ <;> simp

/-- `STATUS` clears `ERR` and `ERRCODE` together (10_state R39). -/
theorem State.Inv.writeStatus (v : Word) : (s.writeStatus v).Inv := by
  obtain ⟨hexcl, hbusy, hcode⟩ := h.flags
  rw [State.writeStatus_eq]
  refine ⟨h.params, h.regs, h.ctx, ⟨?_, fun hphase => ?_, ?_⟩, h.cmd, .of_released hrst⟩
  · simp only [Bool.and_eq_true]
    exact fun ⟨⟨hdone, _⟩, herr, _⟩ => hexcl ⟨hdone, herr⟩
  · obtain ⟨hdone, herr⟩ := hbusy hphase
    simp [hdone, herr]
  · cases v.getLsbD 2 with
    | true => simp
    | false => simpa using hcode

theorem State.Inv.setCmd (hphase : s.phase = .idle) (v : Word) : (s.setCmd v).Inv :=
  ⟨h.params, h.regs, h.ctx, h.flags, (fun hbusy => by cases hphase.symm.trans hbusy), .of_released hrst⟩

theorem State.Inv.writeLimb (r : Reg) (j : Nat) (v : Word) : (s.writeLimb r j v).Inv := by
  refine ⟨h.params, fun q => ?_, h.ctx, h.flags, h.cmd, .of_released hrst⟩
  rw [State.writeLimb_regs, Regs.get_set]
  split
  · rw [List.length_set]
    exact h.regs r
  · exact h.regs q

end writes

theorem AccessEffect.inv {s t : State} {a : Access} (ha : AccessEffect s a t) (h : s.Inv) : t.Inv := by
  cases ha with
  | outside => exact h
  | readInReset => exact h.drawAnswer
  | writeInReset => exact h.answer none
  | refused hrst w => exact (h.accessError hrst).answer w
  | read _ w => exact h.answer _
  | softReset => exact h.softReset none
  | setIe hrst b => exact (h.setIe hrst b).answer none
  | start hrst hphase b => exact ((h.setIe hrst b).acceptStart hrst).answer none
  | startRefused hrst b => exact ((h.setIe hrst b).accessError hrst).answer none
  | status hrst v => exact (h.writeStatus hrst v).answer none
  | cmd hrst hphase v => exact (h.setCmd hrst hphase v).answer none
  | limb hrst _ _ v => exact (h.writeLimb hrst _ _ v).answer none

/-! ## The completion step -/

section completion
variable {s : State} (h : s.Inv) (hrst : s.rst = false) (hphase : s.phase = .busy)
include h hrst hphase

theorem State.Inv.complete_ok (ws : List (Reg × Nat)) {c : Option Ctx} (hc : ({ s with ctx := c.getD s.ctx } : State).CtxWf) :
    (s.complete (.ok ws c)).Inv := by
  obtain ⟨-, hbusy, hcode⟩ := h.flags
  obtain ⟨-, herr⟩ := hbusy hphase
  rw [State.complete_ok]
  refine ⟨h.params, State.length_applyWrites s ws h.regs, hc, ⟨?_, ?_, hcode⟩, ?_, .of_released hrst⟩
  · simp [herr]
  · simp
  · simp [State.CmdWf]

theorem State.Inv.failWith {code : ErrCode} (hcode : code ≠ .noError) : (s.failWith code).Inv := by
  obtain ⟨-, hbusy, -⟩ := h.flags
  obtain ⟨hdone, -⟩ := hbusy hphase
  refine ⟨h.params, h.regs, h.ctx, ⟨?_, ?_, ?_⟩, ?_, .of_released hrst⟩
  · simp [hdone]
  · simp
  · simp [hcode]
  · simp [State.CmdWf]

end completion

theorem Completion.inv {s t : State} (ht : Completion s t) (h : s.Inv) (hrst : s.rst = false) (hphase : s.phase = .busy) :
    t.Inv := by
  cases ht with
  | writes => exact h.complete_ok hrst hphase _ h.ctx
  | context _ hn => exact h.complete_ok hrst hphase _ (.inl ⟨rfl, hn, h.value_lt _, rfl⟩)
  | error hcode => exact h.failWith hrst hphase hcode

/-- Settles O10: each kind of step keeps the invariant. -/
theorem everyStepKeepsTheInvariant : Obligations.EveryStepKeepsTheInvariant := by
  intro s t h hstep
  cases stepEffect_of_step hstep with
  | engineOff => exact h.setPending _
  | completion _ hphase hrst hcompletion => exact hcompletion.inv (h.setPending _) hrst hphase
  | access _ haccess => exact haccess.inv (h.setPending _)
  | assertRst => exact (h.setPending _).powerOn true
  | releaseRst => exact (h.setPending _).powerOn false
  | released => exact h.setPending _

end Sys2Proof.Machine
end

section
/-! What a step can change (10_state R32, R33, R45; 20_memory R64): the effects of a step on `AERR`, the context, the registers and the
queue, and the frame of a command. -/

namespace Sys2Proof.Machine

/-! ## The frame of a command (10_state R45) -/

/-- A command's answer decides how it ends, in whatever state the completion step applies it. -/
theorem Answers.ends {i : Instr} {s : State} {r : CmdResult} (h : Answers i s r) :
    (∃ c, c ≠ .noError ∧ ∀ u : State, Failed u (u.complete r) c) ∨
    ∃ b, (b = true → ∃ a, i = .setmod a) ∧ ∀ u : State, Succeeded u (u.complete r) i.dests b := by
  obtain ⟨ws, rfl, hws, -⟩ | ⟨a, rfl, -, rfl⟩ | ⟨code, rfl, hcode⟩ := h
  · exact .inr ⟨false, by simp, fun u => Succeeded.of_writes u hws⟩
  · exact .inr ⟨true, fun _ => ⟨a, rfl⟩, fun u => Succeeded.of_ctx u _⟩
  · exact .inl ⟨code, hcode, fun u => Failed.of_err u code⟩

/-- Settles O33: every command's answer has the one shape. -/
theorem everyCommandSucceedsOrFails : Obligations.EveryCommandSucceedsOrFails := by
  intro i s
  refine ⟨_, exec_eq i s, ?_⟩
  rcases (answers_answerOf i s).ends with ⟨c, hc, hfailed⟩ | ⟨b, hb, hsucceeded⟩
  · exact .inl ⟨c, hc, hfailed s⟩
  · exact .inr ⟨b, hsucceeded s, hb⟩

theorem State.applyWrites_regs_congr {s u : State} (hr : s.regs = u.regs) (hp : s.params = u.params) (ws : List (Reg × Nat)) :
    (s.applyWrites ws).regs = (u.applyWrites ws).regs := by
  induction ws generalizing s u with
  | nil => exact hr
  | cons w ws ih =>
    obtain ⟨d, v⟩ := w
    exact ih (by rw [State.writeReg_regs, State.writeReg_regs, hr, hp]) hp

/-- The completion step writes the same registers and context in states that agree on them. -/
theorem State.complete_congr {s u : State} (hr : s.regs = u.regs) (hc : s.ctx = u.ctx) (hp : s.params = u.params)
    (r : CmdResult) : (s.complete r).regs = (u.complete r).regs ∧ (s.complete r).ctx = (u.complete r).ctx := by
  cases r with
  | ok ws c =>
    rw [State.complete_ok, State.complete_ok, hc]
    exact ⟨State.applyWrites_regs_congr hr hp ws, rfl⟩
  | err code => exact ⟨hr, hc⟩

/-- Settles O32: the two states give the command one answer, and the answer decides how it ends. -/
theorem commandsReadOperandsAndContextOnly : Obligations.CommandsReadOperandsAndContextOnly := by
  intro i s u hr hc hp
  have hanswer : answerOf i u = answerOf i s := (answerOf_congr i hr hc hp).symm
  obtain ⟨hregs, hctx⟩ := State.complete_congr hr hc hp (answerOf i s)
  refine ⟨_, _, exec_eq i s, exec_eq i u, ?_⟩
  rw [hanswer, State.complete_phase, State.complete_phase]
  refine ⟨hregs, hctx, rfl, ?_⟩
  rcases (answers_answerOf i s).ends with ⟨c, -, hfailed⟩ | ⟨b, -, hsucceeded⟩
  · exact .inl ⟨c, hfailed s, hfailed u⟩
  · exact .inr ⟨b, hsucceeded s, hsucceeded u⟩

/-- Settles O23: the engine's turn completes a word that decodes with its command. -/
theorem stepRunsTheDecodedCommand : Obligations.StepRunsTheDecodedCommand := fun s _ rest hphase hrst hd hnext =>
  (step_of_engineIsNext hnext).trans (engineStep_ok (s := s.setPending rest) hphase hrst hd)

/-! ## What a completion changes -/

section completion
variable (s : State) (r : CmdResult)

/-- The completion step writes the registers, the context, the completion status and `PHASE`, and nothing else (10_state R45). -/
theorem State.complete_eq : s.complete r =
    { s with regs := (s.complete r).regs, ctx := (s.complete r).ctx, done := (s.complete r).done, err := (s.complete r).err,
             errcode := (s.complete r).errcode, phase := .idle } := by
  rcases r with ⟨ws, c⟩ | code
  · rw [State.complete_ok]
  · rfl

@[simp] theorem State.complete_params : (s.complete r).params = s.params := by rw [State.complete_eq]
@[simp] theorem State.complete_rst : (s.complete r).rst = s.rst := by rw [State.complete_eq]
@[simp] theorem State.complete_aerr : (s.complete r).aerr = s.aerr := by rw [State.complete_eq]
@[simp] theorem State.complete_pending : (s.complete r).pending = s.pending := by rw [State.complete_eq]

end completion

theorem Completion.exists_complete {s t : State} (h : Completion s t) : ∃ r, t = s.complete r := by
  cases h with
  | writes => exact ⟨_, rfl⟩
  | context => exact ⟨_, rfl⟩
  | error => exact ⟨.err _, rfl⟩

section ended
variable {s t : State} (h : Completion s t)
include h

theorem Completion.phase_eq : t.phase = .idle := by
  obtain ⟨r, rfl⟩ := h.exists_complete
  exact s.complete_phase r

theorem Completion.aerr_eq : t.aerr = s.aerr := by
  obtain ⟨r, rfl⟩ := h.exists_complete
  exact s.complete_aerr r

theorem Completion.pending_eq : t.pending = s.pending := by
  obtain ⟨r, rfl⟩ := h.exists_complete
  exact s.complete_pending r

end ended

/-! ## What an access changes -/

section writeStatus
variable (s : State) (v : Word)

@[simp] theorem State.writeStatus_regs : (s.writeStatus v).regs = s.regs := by rw [State.writeStatus_eq]
@[simp] theorem State.writeStatus_ctx : (s.writeStatus v).ctx = s.ctx := by rw [State.writeStatus_eq]
@[simp] theorem State.writeStatus_aerr : (s.writeStatus v).aerr = (s.aerr && !v.getLsbD 3) := by rw [State.writeStatus_eq]
@[simp] theorem State.writeStatus_pending : (s.writeStatus v).pending = s.pending := by rw [State.writeStatus_eq]

end writeStatus

section access
variable {s t : State} {a : Access} (h : AccessEffect s a t)
include h

theorem AccessEffect.pending_eq : t.pending = s.pending := by
  cases h with
  | softReset => exact (softReset_spec s none).pending
  | status => simp
  | _ => rfl

theorem AccessEffect.aerr_falls (hset : s.aerr = true) (hclear : t.aerr = false) :
    (∃ v : Word, v.getLsbD 3 = true ∧ a = ⟨.write v, s.params.base + 0x010, 4, 0xF⟩) ∨ AsksForReset s.params a := by
  cases h with
  | softReset _ ha => exact .inr ha
  | status _ v ha => exact .inl ⟨v, by simpa [hset] using hclear, ha⟩
  | _ => simp [hset] at hclear

theorem AccessEffect.aerr_rises (hclear : s.aerr = false) (hset : t.aerr = true) : s.rst = false := by
  cases h with
  | outside => cases hclear.symm.trans hset
  | readInReset => cases hclear.symm.trans hset
  | writeInReset => cases hclear.symm.trans hset
  | _ => assumption

theorem AccessEffect.ctx_changes (hne : t.ctx ≠ s.ctx) : t.ctx = Ctx.cleared ∧ AsksForReset s.params a := by
  cases h with
  | softReset _ ha => exact ⟨(softReset_spec s none).control.ctx, ha⟩
  | status => simp at hne
  | _ => exact absurd rfl hne

theorem AccessEffect.reg_changes {r : Reg} (hne : t.regs.get r ≠ s.regs.get r) :
    (s.phase = .idle ∧ ∃ j v, j < s.params.limbs ∧ a = ⟨.write v, s.params.base + limbOffset r j, 4, 0xF⟩) ∨
    (s.phase = .busy ∧ IsAbandoned s.inflight r ∧ AsksForReset s.params a) := by
  cases h with
  | limb _ hphase hj v ha =>
    refine .inl ⟨hphase, _, v, hj, ?_⟩
    by_contra hother
    refine hne (Regs.get_set_ne _ ?_ _)
    rintro rfl
    exact hother ha
  | softReset _ ha =>
    have hkept := mt ((softReset_spec s none).kept r) hne
    simp only [not_or, not_not] at hkept
    obtain ⟨hphase, habandoned⟩ := hkept
    refine .inr ⟨?_, habandoned, ha⟩
    cases hs : s.phase with
    | idle => exact absurd hs hphase
    | busy => rfl
  | status => simp at hne
  | _ => exact absurd rfl hne

end access

/-! ## What a step changes -/

/-- Every step takes the oldest event off the queue, if there is one. -/
theorem step_pending {s t : State} (h : step s = .next t) : t.pending = s.pending.tail := by
  have hengine {rest : List Event} (hnext : EngineIsNext s rest) : rest = s.pending.tail := by
    rcases hnext with ⟨hnil, rfl⟩ | hcons
    · rw [hnil, List.tail_nil]
    · rw [hcons, List.tail_cons]
  cases stepEffect_of_step h with
  | engineOff hnext => exact hengine hnext
  | completion hnext _ _ hcompletion => exact hcompletion.pending_eq.trans (hengine hnext)
  | access hp haccess => rw [haccess.pending_eq, hp]; rfl
  | assertRst hp => rw [hp]; rfl
  | releaseRst hp => rw [hp]; rfl
  | released hp => rw [hp]; rfl

/-- Settles O17: an access can clear `AERR` in two ways, the resets clear it, and only an access can set it. -/
theorem accessErrorIsSticky : Obligations.AccessErrorIsSticky := by
  refine fun s t hstep => ⟨fun hset hclear => ?falls, fun hclear hset => ?rises⟩
  case falls =>
    cases stepEffect_of_step hstep with
    | engineOff => cases hset.symm.trans hclear
    | completion _ _ _ hcompletion =>
      have hkept : t.aerr = s.aerr := hcompletion.aerr_eq
      cases hset.symm.trans (hkept.symm.trans hclear)
    | @access rest a _ hp haccess =>
      rcases haccess.aerr_falls hset hclear with ⟨v, hv, rfl⟩ | ha
      · exact ⟨rest, .inl ⟨v, hv, hp⟩⟩
      · exact ⟨rest, .inr (.inl ⟨a, ha, hp⟩)⟩
    | assertRst hp => exact ⟨_, .inr (.inr (.inl hp))⟩
    | releaseRst hp hrst => exact ⟨_, .inr (.inr (.inr ⟨hrst, hp⟩))⟩
    | released => cases hset.symm.trans hclear
  case rises =>
    cases stepEffect_of_step hstep with
    | engineOff => cases hclear.symm.trans hset
    | completion _ _ _ hcompletion =>
      have hkept : t.aerr = s.aerr := hcompletion.aerr_eq
      cases hclear.symm.trans (hkept.symm.trans hset)
    | @access rest a _ hp haccess => exact ⟨haccess.aerr_rises hclear hset, a, rest, hp⟩
    | assertRst => cases hset
    | releaseRst => cases hset
    | released => cases hclear.symm.trans hset

/-- Settles O30: a completion that answers a context is `SETMOD`'s, and every other change of the context is a reset. -/
theorem onlySetmodAndResetChangeTheContext : Obligations.OnlySetmodAndResetChangeTheContext := by
  intro s t hstep hne
  cases stepEffect_of_step hstep with
  | engineOff => exact absurd rfl hne
  | @completion rest _ hnext hphase hrst hcompletion =>
    cases hcompletion with
    | writes => exact absurd (by rw [State.complete_ok]; rfl) hne
    | context hd hn => exact .inl ⟨_, rest, hd, hphase, hrst, hnext, hn, rfl, rfl, rfl⟩
    | error => exact absurd rfl hne
  | @access rest a _ hp haccess =>
    obtain ⟨hcleared, ha⟩ := haccess.ctx_changes hne
    exact .inr ⟨hcleared, rest, .inl ⟨a, ha, hp⟩⟩
  | assertRst hp => exact .inr ⟨rfl, _, .inr (.inl hp)⟩
  | releaseRst hp hrst => exact .inr ⟨rfl, _, .inr (.inr ⟨hrst, hp⟩)⟩
  | released => exact absurd rfl hne

/-- Settles O31: a completion writes the destinations of its command, and an access one limb or what a soft reset abandons. -/
theorem onlyTheseEventsChangeAnOperandRegister : Obligations.OnlyTheseEventsChangeAnOperandRegister := by
  intro s t r hstep hne
  cases stepEffect_of_step hstep with
  | engineOff => exact absurd rfl hne
  | @completion rest _ hnext hphase hrst hcompletion =>
    cases hcompletion with
    | @writes i ws hd hws =>
      rw [State.complete_ok] at hne ⊢
      refine ⟨rest, .inl ⟨i, hd, ?_, hphase, hrst, hnext, rfl⟩⟩
      by_contra hnot
      exact hne (State.get_applyWrites_ne _ ws r (hws ▸ hnot))
    | context => exact absurd rfl hne
    | error => exact absurd rfl hne
  | @access rest a _ hp haccess =>
    rcases haccess.reg_changes hne with ⟨hphase, j, v, hj, rfl⟩ | ⟨hphase, habandoned, ha⟩
    · exact ⟨rest, .inr (.inl ⟨hphase, j, v, hj, hp⟩)⟩
    · exact ⟨rest, .inr (.inr (.inl ⟨hphase, habandoned, a, ha, hp⟩))⟩
  | assertRst hp => exact ⟨_, .inr (.inr (.inr (.inl hp)))⟩
  | releaseRst hp hrst => exact ⟨_, .inr (.inr (.inr (.inr ⟨hrst, hp⟩)))⟩
  | released => exact absurd rfl hne

end Sys2Proof.Machine
end

section
/-! Runs of several steps while a command is in flight (20_memory R63, 70_reset_and_hazards R202): host accesses reach only the fields
that a command does not read, so its completion does not depend on them. -/

namespace Sys2Proof.Machine

/-! ## Runs -/

theorem run_step {s t : State} (h : step s = .next t) (k : Nat) : Sys2Proof.core.run (k + 1) s = Sys2Proof.core.run k t := by
  have hcore : Sys2Proof.core.step s = .next t := h
  simp only [Host.Core.run, hcore]

theorem run_one {s t : State} (h : step s = .next t) : Sys2Proof.core.run 1 s = .next t := run_step h 0

theorem run_add {m : Nat} {s t : State} (h : Sys2Proof.core.run m s = .next t) (k : Nat) :
    Sys2Proof.core.run (m + k) s = Sys2Proof.core.run k t := by
  induction m generalizing s with
  | zero =>
    cases h
    rw [Nat.zero_add]
  | succ m ih =>
    obtain ⟨u, hu⟩ := everyStateHasANextState s
    rw [run_step hu] at h
    rw [Nat.add_right_comm, run_step hu, ih h]

/-! ## The fields a command does not read -/

/-- `s` with other values in the fields that host accesses change while the engine is busy, and another queue. -/
def State.setPort (s : State) (ie aerr : Bool) (w : Option Word) (es : List Event) : State :=
  { s with ie := ie, aerr := aerr, resp := w, pending := es }

theorem State.complete_setPort (s : State) (r : CmdResult) (b c : Bool) (w : Option Word) (es : List Event) :
    (s.setPort b c w es).complete r = (s.complete r).setPort b c w es := by
  cases r with
  | ok ws ctx =>
    have hregs : ((s.setPort b c w es).applyWrites ws).regs = (s.applyWrites ws).regs :=
      State.applyWrites_regs_congr (s := s.setPort b c w es) (u := s) rfl rfl ws
    rw [State.complete_ok, State.complete_ok, hregs]
    rfl
  | err code => rfl

theorem engineStep_setPort {s t : State} (h : engineStep s = .next t) (b c : Bool) (w : Option Word) (es : List Event) :
    engineStep (s.setPort b c w es) = .next (t.setPort b c w es) := by
  rcases engineStep_cases s with ⟨hoff, heq⟩ | ⟨hphase, hrst, i, hd, heq⟩ | ⟨hphase, hrst, code, hd, heq⟩
  · cases heq.symm.trans h
    exact engineStep_disabled hoff
  · cases (heq.trans (exec_eq i s)).symm.trans h
    have hanswer : answerOf i (s.setPort b c w es) = answerOf i s := answerOf_congr i rfl rfl rfl
    rw [engineStep_ok (s := s.setPort b c w es) hphase hrst hd, exec_eq, hanswer, State.complete_setPort]
  · cases heq.symm.trans h
    exact engineStep_error hphase hrst hd

/-! ## Accesses while busy (20_memory R63) -/

section busy
variable {s : State} (h : s.Inv) (hphase : s.phase = .busy)
include h hphase

/-- A `STATUS` write finds `DONE`, `ERR` and `ERRCODE` already clear (10_state R40). -/
theorem State.Inv.writeStatus_of_busy (v : Word) :
    s.writeStatus v = s.setPort s.ie (s.aerr && !v.getLsbD 3) s.resp s.pending := by
  have herrcode := h.flags.errcode_eq
  obtain ⟨-, hbusy, -⟩ := h.flags
  obtain ⟨hdone, herr⟩ := hbusy hphase
  have hcode : (if v.getLsbD 2 = true then ErrCode.noError else s.errcode) = s.errcode := by
    rw [herrcode herr, ite_self]
  rw [State.writeStatus_eq, hcode]
  simp [State.setPort, hdone, herr]

theorem State.Inv.access_of_busy {t : State} {a : Access} (ha : AccessEffect s a t) (hno : ¬ AsksForReset s.params a) :
    ∃ b c w, t = s.setPort b c w s.pending := by
  have hidle : s.phase ≠ .idle := by simp [hphase]
  have hrst := h.rst_eq_false hphase
  cases ha with
  | outside => exact ⟨_, _, _, rfl⟩
  | readInReset hasserted => cases hrst.symm.trans hasserted
  | writeInReset => exact ⟨_, _, _, rfl⟩
  | refused => exact ⟨_, _, _, rfl⟩
  | read => exact ⟨_, _, _, rfl⟩
  | softReset _ hreset => exact absurd hreset hno
  | setIe => exact ⟨_, _, _, rfl⟩
  | start _ hs => exact absurd hs hidle
  | startRefused => exact ⟨_, _, _, rfl⟩
  | status _ v =>
    rw [h.writeStatus_of_busy hphase v]
    exact ⟨_, _, _, rfl⟩
  | cmd _ hs => exact absurd hs hidle
  | limb _ hs => exact absurd hs hidle

theorem State.Inv.step_access_of_busy {a : Access} {rest : List Event} (hp : s.pending = .access a :: rest)
    (hno : ¬ AsksForReset s.params a) : ∃ b c w, step s = .next (s.setPort b c w rest) := by
  obtain ⟨b, c, w, heq⟩ := (h.setPending rest).access_of_busy hphase (accessEffect_hostAccess _ a) hno
  exact ⟨b, c, w, heq ▸ step_access hp⟩

end busy

/-- Settles O18: the access reaches the port's fields alone. -/
theorem busyBlockProtectsTheCommand : Obligations.BusyBlockProtectsTheCommand := by
  intro s a rest h hphase hp hno
  obtain ⟨b, c, w, hstep⟩ := h.step_access_of_busy hphase hp hno
  exact ⟨_, hstep, rfl, rfl, rfl, rfl, hphase, rfl, rfl, rfl, rfl, rfl, rfl, rfl⟩

/-- Any number of accesses, none a soft reset, reach the port's fields alone. -/
theorem State.Inv.run_accesses {s : State} (h : s.Inv) (hphase : s.phase = .busy) {es rest : List Event}
    (hp : s.pending = es ++ rest) (hes : ∀ e ∈ es, ∃ a, e = .access a ∧ ¬ AsksForReset s.params a) :
    ∃ b c w, Sys2Proof.core.run es.length s = .next (s.setPort b c w rest) := by
  induction es generalizing s with
  | nil =>
    obtain rfl : rest = s.pending := hp.symm
    exact ⟨s.ie, s.aerr, s.resp, rfl⟩
  | cons e es ih =>
    obtain ⟨⟨a, rfl, hno⟩, hrest⟩ := List.forall_mem_cons.1 hes
    obtain ⟨b, c, w, hstep⟩ := h.step_access_of_busy hphase hp hno
    have ht := everyStepKeepsTheInvariant _ _ h hstep
    obtain ⟨b', c', w', hrun⟩ := ih ht hphase rfl hrest
    exact ⟨b', c', w', (run_step hstep _).trans hrun⟩

/-- Settles O29: the accesses reach only what the completion step does not read. -/
theorem resultIsIndependentOfTheSchedule : Obligations.ResultIsIndependentOfTheSchedule := by
  intro s t es rest h hphase hp hes hstep
  obtain ⟨b, c, w, hrun⟩ := h.run_accesses hphase hp hes
  have hengine : engineStep (s.setPending rest) = .next t :=
    (step_engine (s := s.setPending (.engine :: rest)) rfl).symm.trans hstep
  have hlast : step (s.setPort b c w (.engine :: rest)) = .next (t.setPort b c w rest) :=
    (step_engine (s := s.setPort b c w (.engine :: rest)) rfl).trans (engineStep_setPort hengine b c w rest)
  exact ⟨_, (run_add hrun 1).trans (run_one hlast), rfl, rfl, rfl, rfl, rfl, rfl, rfl, rfl, rfl⟩

/-! ## The end of a command (70_reset_and_hazards R202) -/

/-- While the engine is next, a step of a busy engine is its completion. -/
theorem State.Inv.phase_of_engine_step {s t : State} {rest : List Event} (h : s.Inv) (hphase : s.phase = .busy)
    (hnext : EngineIsNext s rest) (hstep : step s = .next t) : t.phase = .idle := by
  rw [step_of_engineIsNext hnext] at hstep
  exact (Completion.of_engineStep (s := s.setPending rest) hphase (h.rst_eq_false hphase) hstep).phase_eq

/-- Settles O28: each step shortens the queue or ends the command, and with an empty queue only the engine can step. -/
theorem startedCommandEnds : Obligations.StartedCommandEnds := by
  intro s h hphase
  generalize hp : s.pending = es
  induction es generalizing s with
  | nil =>
    obtain ⟨t, hstep⟩ := everyStateHasANextState s
    exact ⟨1, t, by simp, run_one hstep, h.phase_of_engine_step hphase (.inl ⟨hp, rfl⟩) hstep⟩
  | cons e es ih =>
    obtain ⟨t, hstep⟩ := everyStateHasANextState s
    cases ht : t.phase with
    | idle => exact ⟨1, t, by simp, run_one hstep, ht⟩
    | busy =>
      have hpending : t.pending = es := by rw [step_pending hstep, hp, List.tail_cons]
      obtain ⟨k, u, hk, hrun, hu⟩ := ih t (everyStepKeepsTheInvariant _ _ h hstep) ht hpending
      exact ⟨k + 1, u, by simpa using hk, (run_step hstep k).trans hrun, hu⟩

end Sys2Proof.Machine
end

section
/-! The host's programs (30_encoding R102): START and `run WORD`. -/

namespace Sys2Proof.Machine

/-! ## The accesses of `run WORD` -/

section accesses
variable {s : State} {rest : List Event} (hrst : s.rst = false)
include hrst

theorem step_wr_cmd {v : Word} (hphase : s.phase = .idle) (hp : s.pending = wr s.params 0x00C v :: rest) :
    step s = .next { s with pending := rest, resp := none, cmd := v } := by
  rw [step_wr hrst hp (by omega) rfl (slotOf_cmd _), State.busWrite, if_neg (by simp [hphase])]
  rfl

/-- An accepted START (10_state R46). -/
theorem step_wr_start {v : Word} (hphase : s.phase = .idle) (hsrst : v.getLsbD 1 = false) (hstart : v.getLsbD 0 = true)
    (hp : s.pending = wr s.params 0x008 v :: rest) :
    step s = .next { s with pending := rest, resp := none, ie := v.getLsbD 2, inflight := s.cmd, done := false, err := false,
                            errcode := .noError, phase := .busy } := by
  rw [step_wr hrst hp (by omega) rfl (slotOf_ctrl _), State.busWrite, State.writeCtrl_noSrst hsrst, if_pos hstart,
    State.start_idle (s := (s.setPending rest).setIe (v.getLsbD 2)) hphase]
  rfl

theorem step_rd_status (hp : s.pending = rd s.params 0x010 :: rest) :
    step s = .next (s.setPort s.ie s.aerr (some s.statusWord) rest) :=
  step_rd hrst hp (by omega) rfl (slotOf_status _)

end accesses

/-- A poll of `STATUS` changes nothing but the answer. -/
theorem run_polls (polls : Nat) {s : State} (hrst : s.rst = false) {rest : List Event}
    (hp : s.pending = List.replicate polls (rd s.params 0x010) ++ rest) :
    ∃ a, Sys2Proof.core.run polls s = .next (s.setPort s.ie s.aerr a rest) := by
  induction polls generalizing s with
  | zero =>
    obtain rfl : rest = s.pending := hp.symm
    exact ⟨s.resp, rfl⟩
  | succ polls ih =>
    rw [List.replicate_succ, List.cons_append] at hp
    obtain ⟨a, hrun⟩ := ih (s := s.setPort s.ie s.aerr (some s.statusWord)
      (List.replicate polls (rd s.params 0x010) ++ rest)) hrst rfl
    exact ⟨a, (run_step (step_rd_status hrst hp) polls).trans hrun⟩

/-! ## The obligations -/

/-- Settles O24: the accepted START captures `CMD`, and the engine's turn runs it. -/
theorem startRunsTheCommandInCmd : Obligations.StartRunsTheCommandInCmd := by
  intro s v i rest hphase hrst hsrst hstart hd hp
  rw [run_step (step_wr_start hrst hphase hsrst hstart hp) 1]
  have hstep := stepRunsTheDecodedCommand
    { s with pending := .engine :: rest, resp := none, ie := v.getLsbD 2, inflight := s.cmd, done := false, err := false,
             errcode := .noError, phase := .busy } i rest rfl hrst hd (.inr rfl)
  rw [exec_eq] at hstep ⊢
  exact run_one hstep

/-- A completion shows `DONE` or `ERR` (10_state R45). -/
theorem State.complete_done_or_err (s : State) (r : CmdResult) : (s.complete r).done = true ∨ (s.complete r).err = true := by
  rcases r with ⟨ws, c⟩ | code
  · rw [State.complete_ok]
    exact .inl rfl
  · exact .inr rfl

/-- The state after the two writes of `run WORD`, apart from the answer and the queue. -/
def State.running (s : State) (w : Word) : State :=
  { s with cmd := w, inflight := w, ie := false, done := false, err := false, errcode := .noError, phase := .busy }

/-- The writes and the polls of `run WORD` start the command and leave the engine's turn and the last poll. -/
theorem run_until_engine {s : State} {w : Word} {polls : Nat} {rest : List Event} (hrst : s.rst = false)
    (hphase : s.phase = .idle) (hp : s.pending = runCommand s.params w polls ++ rest) :
    ∃ a, Sys2Proof.core.run (polls + 2) s =
      .next ((s.running w).setPort false s.aerr a (.engine :: rd s.params 0x010 :: rest)) := by
  rw [runCommand, List.append_assoc, List.append_assoc] at hp
  generalize hq : List.replicate polls (rd s.params 0x010) ++ ([.engine, rd s.params 0x010] ++ rest) = queue at hp
  have hcmd := step_wr_cmd hrst hphase hp
  have hstart : step { s with pending := wr s.params 0x008 1 :: queue, resp := none, cmd := w } =
      .next ((s.running w).setPort false s.aerr none queue) :=
    step_wr_start (s := { s with pending := wr s.params 0x008 1 :: queue, resp := none, cmd := w }) hrst hphase rfl rfl rfl
  obtain ⟨a, hpolls⟩ := run_polls polls (s := (s.running w).setPort false s.aerr none queue) hrst hq.symm
  exact ⟨a, (run_step hcmd _).trans ((run_step hstart _).trans hpolls)⟩

/-- Settles O26: the engine's turn completes the command as if there were no polls, and the last poll reads `STATUS`. -/
theorem hostRunsACommand : Obligations.HostRunsACommand := by
  intro s w i polls rest _ hrst hphase hd hp
  obtain ⟨a, hrun⟩ := run_until_engine hrst hphase hp
  have hturn : engineStep (s.running w) = .next ((s.running w).complete (answerOf i (s.running w))) :=
    (engineStep_ok (s := s.running w) rfl hrst hd).trans (exec_eq i _)
  have hended := (s.running w).complete_done_or_err (answerOf i (s.running w))
  have hparams := (s.running w).complete_params (answerOf i (s.running w))
  have hreleased := ((s.running w).complete_rst (answerOf i (s.running w))).trans hrst
  have haerr := (s.running w).complete_aerr (answerOf i (s.running w))
  have hidle := (s.running w).complete_phase (answerOf i (s.running w))
  have hexec := exec_eq i (s.running w)
  generalize (s.running w).complete (answerOf i (s.running w)) = t at *
  have hengine : step ((s.running w).setPort false s.aerr a (.engine :: rd s.params 0x010 :: rest)) =
      .next (t.setPort false t.aerr a (rd t.params 0x010 :: rest)) := by
    rw [hparams, haerr]
    exact (step_engine (s := (s.running w).setPort false s.aerr a (.engine :: rd s.params 0x010 :: rest)) rfl).trans
      (engineStep_setPort hturn _ _ _ _)
  have hpoll := step_rd_status (s := t.setPort false t.aerr a (rd t.params 0x010 :: rest)) hreleased rfl
  exact ⟨t, _, hexec, (run_add hrun 2).trans ((run_step hengine 1).trans (run_one hpoll)), rfl, rfl, rfl, rfl,
    (State.busy_eq_false _).2 hidle, hended, rfl⟩

end Sys2Proof.Machine
end

section
/-! Operand registers through the port (10_state R43, 20_memory R63, R65, R69; 30_encoding R102): limb writes, byte lanes, and what
accesses show of a busy block. -/

namespace Sys2Proof.Machine

/-! ## Outside the window (20_memory R69) -/

theorem Params.offset_outside {p : Params} {addr : Nat} (h : addr < p.base ∨ p.base + 0x4000 ≤ addr) :
    Params.offset p addr = none := by
  rw [Params.offset, if_neg]
  unfold windowSize
  omega

/-- Settles O16: the access is not decoded. -/
theorem accessOutsideTheWindow : Obligations.AccessOutsideTheWindow := by
  intro s a rest hp hout
  have hkept : (s.setPending rest).hostAccess a = s.setPending rest :=
    State.hostAccess_outside (Params.offset_outside (p := (s.setPending rest).params) hout)
  rw [step_access hp, hkept]
  rfl

/-! ## Byte lanes (20_memory R65) -/

theorem laneOf_toNat (v : Word) (b : Nat) : (laneOf v b).toNat = v.toNat / 2 ^ (8 * b) % 2 ^ 8 := field_toNat v (8 * b) 8

theorem wordOfLanes_laneOf (v : Word) : wordOfLanes (laneOf v 0) (laneOf v 1) (laneOf v 2) (laneOf v 3) = v := by
  have hv := v.isLt
  apply BitVec.eq_of_toNat_eq
  simp only [wordOfLanes, toNat_concat, laneOf_toNat]
  omega

/-- A byte of a limb of `x` is a byte of `x`. -/
theorem byte_limbOf (x j : Nat) {b : Nat} (hb : b < 4) :
    (limbOf x j).toNat / 2 ^ (8 * b) % 2 ^ 8 = x / 2 ^ (8 * (4 * j + b)) % 2 ^ 8 := by
  have hsplit : 2 ^ (8 * (4 * j + b)) = 2 ^ (32 * j) * 2 ^ (8 * b) := by rw [← pow_add]; congr 1; omega
  rw [limbOf, BitVec.toNat_ofNat, hsplit, ← Nat.div_div_eq_div_mul]
  interval_cases b <;> omega

/-- Settles O20: the read answers the limb, and its lanes are its bytes. -/
theorem lanesAreLittleEndian : Obligations.LanesAreLittleEndian := by
  intro s r j b rest hp hrst hphase hj hb h
  obtain ⟨-, hl, -⟩ := hp
  have hlt := limbOffset_lt r hj hl
  have hstep := step_rd_data hrst h (by omega) (limbOffset_aligned r j) (slotOf_vreg r hj hl) rfl
  rw [if_neg (by simp [hphase]), s.limb_eq] at hstep
  exact ⟨_, _, hstep, rfl, (laneOf_toNat _ b).trans (byte_limbOf _ j hb), wordOfLanes_laneOf _⟩

/-! ## One limb write (10_state R43) -/

/-- A write of a register limb of an idle block. -/
theorem step_wr_limb {s : State} {r : Reg} {j : Nat} {v : Word} {rest : List Event} (hp : s.params.Valid) (hrst : s.rst = false)
    (hphase : s.phase = .idle) (hj : j < s.params.limbs) (h : s.pending = wr s.params (limbOffset r j) v :: rest) :
    step s = .next { s with pending := rest, resp := none, regs := s.regs.set r ((s.regs.get r).set j v) } := by
  obtain ⟨-, hl, -⟩ := hp
  have hlt := limbOffset_lt r hj hl
  rw [step_wr hrst h (by omega) (limbOffset_aligned r j) (slotOf_vreg r hj hl), State.busWrite, if_neg (by simp [hphase])]
  rfl

/-- Limb `k` of the number that a list of limbs holds. -/
theorem ofLimbs_div_mod (xs : Limbs) (k : Nat) : ofLimbs xs / 2 ^ (32 * k) % 2 ^ 32 = (xs.getD k 0).toNat := by
  rw [← limbOf_ofLimbs, limbOf, BitVec.toNat_ofNat]

/-- Settles O14: the write replaces one limb of the list that the value is read from. -/
theorem limbWriteChangesOneLimb : Obligations.LimbWriteChangesOneLimb := by
  intro s r j v rest h hrst hphase hj hp
  have hstep := step_wr_limb h.params hrst hphase hj hp
  have hinv := everyStepKeepsTheInvariant _ _ h hstep
  refine ⟨_, hstep, ?_, hinv.value_lt r, fun k hk => ?_, fun q hq => ?_, rfl, rfl⟩
  · rw [State.value, Regs.get_set_self, ofLimbs_div_mod, List.getD_eq_getElem?_getD,
      List.getElem?_set_self (by rwa [h.regs r]), Option.getD_some]
  · rw [State.value, State.value, Regs.get_set_self, ofLimbs_div_mod, ofLimbs_div_mod, List.getD_eq_getElem?_getD,
      List.getElem?_set_ne hk.symm, List.getD_eq_getElem?_getD]
  · rw [State.value, Regs.get_set_ne _ hq, State.value]

/-! ## `wrv r, X` (30_encoding R102) -/

/-- The limbs `xs` after each of the limbs `js` was replaced by that of `x`, in order. -/
def limbsWritten (x : Nat) (js : List Nat) (xs : Limbs) : Limbs := js.foldl (fun ys j => ys.set j (limbOf x j)) xs

@[simp] theorem limbsWritten_nil (x : Nat) (xs : Limbs) : limbsWritten x [] xs = xs := rfl

@[simp] theorem limbsWritten_cons (x j : Nat) (js : List Nat) (xs : Limbs) :
    limbsWritten x (j :: js) xs = limbsWritten x js (xs.set j (limbOf x j)) := rfl

theorem getElem?_limbsWritten (x : Nat) (js : List Nat) (xs : Limbs) {i : Nat} (hi : i < xs.length) :
    (limbsWritten x js xs)[i]? = if i ∈ js then some (limbOf x i) else xs[i]? := by
  induction js generalizing xs with
  | nil => simp
  | cons j js ih =>
    rw [limbsWritten_cons, ih _ (by rwa [List.length_set])]
    by_cases hij : i = j
    · subst hij
      simp [List.getElem?_set_self hi]
    · simp [hij, List.getElem?_set_ne (Ne.symm hij)]

@[simp] theorem length_limbsWritten (x : Nat) (js : List Nat) (xs : Limbs) : (limbsWritten x js xs).length = xs.length := by
  induction js generalizing xs with
  | nil => rfl
  | cons j js ih => rw [limbsWritten_cons, ih, List.length_set]

theorem getElem?_toLimbs {l i : Nat} (v : Nat) (hi : i < l) : (toLimbs l v)[i]? = some (limbOf v i) := by
  induction l generalizing v i with
  | zero => omega
  | succ l ih =>
    cases i with
    | zero => simp [toLimbs, limbOf]
    | succ i =>
      have hsplit : 2 ^ (32 * (i + 1)) = 2 ^ 32 * 2 ^ (32 * i) := by rw [← pow_add]; congr 1; omega
      rw [toLimbs, List.getElem?_cons_succ, ih _ (by omega), limbOf, limbOf, hsplit, Nat.div_div_eq_div_mul]

/-- Every limb written, the list is that of the number. -/
theorem limbsWritten_range (x : Nat) (xs : Limbs) : limbsWritten x (List.range xs.length) xs = toLimbs xs.length x := by
  refine List.ext_getElem? fun i => ?_
  by_cases hi : i < xs.length
  · rw [getElem?_limbsWritten x _ xs hi, if_pos (List.mem_range.2 hi), getElem?_toLimbs x hi]
  · rw [List.getElem?_eq_none (by simpa using hi), List.getElem?_eq_none (by simpa using hi)]

theorem Regs.set_get (rf : Regs) (r : Reg) : rf.set r (rf.get r) = rf := by cases r <;> rfl

theorem Regs.set_set (rf : Regs) (r : Reg) (x y : Limbs) : (rf.set r x).set r y = rf.set r y := by cases r <;> rfl

/-- Limb writes of one register change that register, the answer and the queue. -/
theorem run_limb_writes {s : State} {r : Reg} {x : Nat} {js : List Nat} {rest : List Event} (hvalid : s.params.Valid)
    (hrst : s.rst = false) (hphase : s.phase = .idle) (hjs : ∀ j ∈ js, j < s.params.limbs)
    (hp : s.pending = js.map (fun j => wr s.params (limbOffset r j) (limbOf x j)) ++ rest) :
    Sys2Proof.core.run js.length s = .next { s with
      pending := rest, resp := if js = [] then s.resp else none, regs := s.regs.set r (limbsWritten x js (s.regs.get r)) } := by
  induction js generalizing s with
  | nil =>
    obtain rfl : rest = s.pending := hp.symm
    rw [limbsWritten_nil, Regs.set_get, if_pos rfl]
    rfl
  | cons j js ih =>
    obtain ⟨hj, hjs⟩ := List.forall_mem_cons.1 hjs
    have hstep := step_wr_limb hvalid hrst hphase hj hp
    refine (run_step hstep _).trans ((ih (s := { s with
      pending := js.map (fun j => wr s.params (limbOffset r j) (limbOf x j)) ++ rest, resp := none,
      regs := s.regs.set r ((s.regs.get r).set j (limbOf x j)) }) hvalid hrst hphase hjs rfl).trans ?_)
    simp only [Regs.get_set_self, Regs.set_set, limbsWritten_cons, ite_self, reduceCtorEq, if_false]

/-- Settles O25: all limbs of the register are written, and then it holds the number. -/
theorem hostWritesARegister : Obligations.HostWritesARegister := by
  intro s r x rest h hrst hphase hx hp
  obtain ⟨hl, -, -⟩ := id h.params
  have hrun := run_limb_writes h.params hrst hphase (fun j hj => List.mem_range.1 hj) hp
  have hrange : List.range s.params.limbs ≠ [] := by simp; omega
  rw [List.length_range, if_neg hrange, ← h.regs r, limbsWritten_range, h.regs r] at hrun
  refine ⟨_, hrun, ?_, fun q hq => Regs.get_set_ne _ hq _, rfl⟩
  rw [State.value, Regs.get_set_self, ofLimbs_toLimbs]
  exact Nat.mod_eq_of_lt hx

/-! ## What accesses show of a busy block (20_memory R63) -/

/-- `s` with other contents of the operand registers and of the context. -/
def State.withContents (s : State) (rf : Regs) (c : Ctx) : State := { s with regs := rf, ctx := c }

section withContents
variable (s : State) (rf : Regs) (c : Ctx)

@[simp] theorem State.withContents_busy : (s.withContents rf c).busy = s.busy := rfl
@[simp] theorem State.withContents_rst : (s.withContents rf c).rst = s.rst := rfl
@[simp] theorem State.withContents_params : (s.withContents rf c).params = s.params := rfl

end withContents

section busy
variable {s : State} (hphase : s.phase = .busy)
include hphase

/-- While busy a data-window word reads 0, and `STATUS` shows only whether the context is valid and odd. -/
theorem State.busRead_withContents {c : Ctx} (hvalid : c.valid = s.ctx.valid) (hodd : c.odd = s.ctx.odd) (rf : Regs) (slot : Slot) :
    (s.withContents rf c).busRead slot = ((s.busRead slot).1, (s.busRead slot).2.withContents rf c) := by
  have hbusy : s.busy = true := s.busy_eq_true.2 hphase
  cases slot with
  | status =>
    have hword : (s.withContents rf c).statusWord = s.statusWord := by
      simp only [State.statusWord, State.withContents, hvalid, hodd]
      rfl
    rw [State.busRead, hword]
    rfl
  | id => rfl
  | param => rfl
  | ctrl => rfl
  | cmd => rfl
  | unmapped => rfl
  | _ => simp only [State.busRead, State.readData, State.withContents_busy, hbusy, if_true]

theorem State.softReset_withContents (rf : Regs) (c : Ctx) :
    ∃ rf' c', (s.withContents rf c).softReset = s.softReset.withContents rf' c' := by
  rw [State.softReset_busy hphase, State.softReset_busy (s := s.withContents rf c) hphase, State.drawRegs_eq s,
    State.drawRegs_eq (s.withContents rf c)]
  exact ⟨_, _, rfl⟩

theorem State.busWrite_withContents (rf : Regs) (c : Ctx) (slot : Slot) (v : Word) :
    ∃ rf' c', (s.withContents rf c).busWrite slot v = (s.busWrite slot v).withContents rf' c' := by
  have hbusy : s.busy = true := s.busy_eq_true.2 hphase
  cases slot with
  | ctrl =>
    rw [State.busWrite, State.busWrite]
    cases hsrst : v.getLsbD 1 with
    | true =>
      rw [State.writeCtrl_srst hsrst, State.writeCtrl_srst hsrst]
      exact State.softReset_withContents hphase rf c
    | false =>
      rw [State.writeCtrl_noSrst hsrst, State.writeCtrl_noSrst hsrst, State.start_busy (s := s.setIe (v.getLsbD 2)) hphase,
        State.start_busy (s := (s.withContents rf c).setIe (v.getLsbD 2)) hphase]
      refine ⟨rf, c, ?_⟩
      split <;> rfl
  | status =>
    rw [State.busWrite, State.busWrite, State.writeStatus_eq, State.writeStatus_eq]
    exact ⟨rf, c, rfl⟩
  | cmd =>
    rw [State.busWrite, State.busWrite, State.withContents_busy, if_pos hbusy, if_pos hbusy]
    exact ⟨rf, c, rfl⟩
  | vreg =>
    rw [State.busWrite, State.busWrite, State.withContents_busy, if_pos hbusy, if_pos hbusy]
    exact ⟨rf, c, rfl⟩
  | _ => exact ⟨rf, c, rfl⟩

theorem State.hostAccess_withContents {c : Ctx} (hvalid : c.valid = s.ctx.valid) (hodd : c.odd = s.ctx.odd) (rf : Regs)
    (a : Access) : ∃ rf' c', (s.withContents rf c).hostAccess a = (s.hostAccess a).withContents rf' c' := by
  cases hoff : Params.offset s.params a.addr with
  | none =>
    rw [State.hostAccess_outside hoff, State.hostAccess_outside (s := s.withContents rf c) hoff]
    exact ⟨rf, c, rfl⟩
  | some off =>
    rw [State.hostAccess_inside hoff, State.hostAccess_inside (s := s.withContents rf c) hoff]
    rw [State.withContents_rst]
    cases s.rst with
    | true =>
      rw [if_pos rfl, if_pos rfl, State.accessInReset, State.accessInReset]
      cases a.dir <;> exact ⟨rf, c, rfl⟩
    | false =>
      rw [if_neg (by simp), if_neg (by simp)]
      cases hdef : a.defined off with
      | false =>
        rw [State.access_undefined _ hdef, State.access_undefined _ hdef]
        exact ⟨rf, c, rfl⟩
      | true =>
        cases hdir : a.dir with
        | read =>
          simp only [State.access, hdir, hdef, if_true, State.busRead_withContents hphase hvalid hodd]
          exact ⟨rf, c, rfl⟩
        | write v =>
          obtain ⟨rf', c', heq⟩ := State.busWrite_withContents hphase rf c (slotOf s.params.limbs off) v
          simp only [State.access, hdir, hdef, if_true, State.withContents_params, heq]
          exact ⟨rf', c', rfl⟩

end busy

/-- Settles O19: an access of a busy block does the same whatever the registers and the numbers of the context hold. -/
theorem busyBlockHidesTheOperands : Obligations.BusyBlockHidesTheOperands := by
  intro s rf n rr mu k ninv0 a rest hphase hp
  obtain ⟨rf', c', heq⟩ := State.hostAccess_withContents (s := s.setPending rest) hphase
    (c := { s.ctx with n := n, k := k, ninv0 := ninv0, rr := rr, mu := mu }) rfl rfl rf a
  have hstep := step_access
    (s := s.withContents rf { s.ctx with n := n, k := k, ninv0 := ninv0, rr := rr, mu := mu }) hp
  exact ⟨_, _, step_access hp, hstep.trans (congrArg Host.Outcome.next heq), rfl, rfl, rfl, rfl⟩

end Sys2Proof.Machine
end

section
/-! Commands in a row (41_multiply_reduce R122, R124, R127): the Montgomery round trip, the product of two forms, `MULW` and `BRED`; and
two's complement (00_scope R8). -/

namespace Sys2Proof.Machine

/-- Settles O53: a pattern is below `2^n`, and its signed reading is the value. -/
theorem twosComplementRoundTrip : Obligations.TwosComplementRoundTrip := fun n z hn hlow hhigh =>
  ⟨twos_lt n z, sext_twos hn hlow hhigh⟩

/-! ## The Montgomery commands, after any command -/

/-- A Montgomery command on residues of an odd modulus that fits the registers writes its result. The invariant is not needed: a
command that completes while `ERR` is set leaves a state without it. -/
theorem State.complete_montgomery {s : State} (hv : s.ctx.valid = true) (ho : s.ctx.odd = true) (hnw : s.ctx.n < 2 ^ s.width)
    {i : Instr} {xs : List Nat} {d : Reg} {v : Nat}
    (hi : answerOf i s = needCtx s.ctx (needOdd s.ctx (needResidues s.ctx xs (writeOne d (v % s.ctx.n)))))
    (hn : 0 < s.ctx.n) (hx : ∀ x ∈ xs, x < s.ctx.n) :
    Succeeded s (s.complete (answerOf i s)) [d] false ∧ (s.complete (answerOf i s)).value d = v % s.ctx.n := by
  rw [hi, needCtx_eq, if_pos hv, needOdd_eq, if_pos ho, needResidues_of_lt hx]
  exact ⟨Succeeded.of_writes s rfl, s.value_complete_writeOne d ((Nat.mod_lt v hn).trans hnw)⟩

/-- Settles O44: `x` is the residue whose product with the radix is the form of `x`. -/
theorem montgomeryRoundTrip : Obligations.MontgomeryRoundTrip := by
  intro d a e s h hv ho ha
  obtain ⟨hn, hnw, -⟩ := h.ctx_eq hv
  obtain ⟨hto, hform⟩ := State.complete_montgomery hv ho hnw (i := .tomont d a) (d := d) rfl (by omega) (by simpa using ha)
  refine ⟨_, _, exec_eq (.tomont d a) s, exec_eq (.frommont e d) _, ?_⟩
  generalize s.complete (answerOf (.tomont d a) s) = t at hto hform ⊢
  have hctx : t.ctx = s.ctx := hto.ctx rfl
  have hwidth := hto.width_eq
  have hresidue : t.value d < t.ctx.n := by
    rw [hform, hctx]
    exact Nat.mod_lt _ (by omega)
  obtain ⟨hfrom, hval⟩ := State.complete_montgomery (hctx ▸ hv) (hctx ▸ ho) (hctx ▸ hwidth ▸ hnw) (i := .frommont e d)
    (d := e) rfl (by omega) (by simpa using hresidue)
  have hunique : s.value a = t.value d * radixInv s.width s.ctx.n % s.ctx.n :=
    eq_mul_radixInv_mod (h.ctx_odd hv ho) ha (hform ▸ (Nat.mod_modEq _ _).symm)
  rw [hval, hctx, hwidth, ← hunique]
  exact ⟨rfl, hfrom.err.trans hto.err⟩

/-- Settles O45: the form of `x * y` is the residue whose product with the radix is the product of the two forms. -/
theorem montmulOfFormsIsTheFormOfTheProduct : Obligations.MontmulOfFormsIsTheFormOfTheProduct := by
  intro d a b s x y h hv ho hx hy
  obtain ⟨hn, -, -⟩ := h.ctx_eq hv
  have hpos : 0 < s.ctx.n := by omega
  have ha : s.value a < s.ctx.n := hx ▸ Nat.mod_lt _ hpos
  have hb : s.value b < s.ctx.n := hy ▸ Nat.mod_lt _ hpos
  obtain ⟨t, hexec, -, -, -, hok⟩ := h.montgomery_cases (i := .montmul d a b) rfl
  obtain ⟨hsucceeded, hval⟩ := hok hv ho (by simp [ha, hb])
  refine ⟨t, hexec, hval.trans (eq_mul_radixInv_mod (h.ctx_odd hv ho) (Nat.mod_lt _ hpos) ?_).symm, hsucceeded.done⟩
  calc x * y % s.ctx.n * 2 ^ s.width % s.ctx.n * 2 ^ s.width
      ≡ x * y % s.ctx.n * 2 ^ s.width * 2 ^ s.width [MOD s.ctx.n] := (Nat.mod_modEq _ _).mul_right _
    _ ≡ x * y * 2 ^ s.width * 2 ^ s.width [MOD s.ctx.n] := ((Nat.mod_modEq _ _).mul_right _).mul_right _
    _ = x * 2 ^ s.width * (y * 2 ^ s.width) := by ring
    _ ≡ s.value a * s.value b [MOD s.ctx.n] := by
      rw [hx, hy]
      exact (Nat.mod_modEq _ _).symm.mul (Nat.mod_modEq _ _).symm

/-! ## `MULW`, then `BRED` -/

/-- `BRED` of a double-width value in its domain writes the remainder. -/
theorem State.complete_bred {s : State} (hv : s.ctx.valid = true) (hnw : s.ctx.n < 2 ^ s.width) (hn : 0 < s.ctx.n) {hi lo : Reg}
    (hx : s.value hi * 2 ^ s.width + s.value lo < 2 ^ (2 * s.ctx.k.toNat)) (d : Reg) :
    Succeeded s (s.complete (answerOf (.bred d hi lo) s)) [d] false ∧
      (s.complete (answerOf (.bred d hi lo) s)).value d = (s.value hi * 2 ^ s.width + s.value lo) % s.ctx.n := by
  rw [answerOf, bredResult, wideOperand, needCtx_eq, if_pos hv, if_neg hx.not_ge]
  exact ⟨Succeeded.of_writes s rfl, s.value_complete_writeOne d ((Nat.mod_lt _ hn).trans hnw)⟩

/-- Settles O46: the halves that `MULW` writes are the product, which is in `BRED`'s domain because both factors are residues. -/
theorem mulwThenBredIsModmul : Obligations.MulwThenBredIsModmul := by
  intro lo hi a b d s h hv hne ha hb
  obtain ⟨hn, hnw, -⟩ := h.ctx_eq hv
  obtain ⟨-, -, t, hmulw, hsplit, -, -, hproduct⟩ := mulwWritesTheWholeProduct lo hi a b s h hne
  obtain ⟨-, v, hmodmul, -, -, hok⟩ := modmulIsTheModularProduct d a b s h
  obtain ⟨-, hval, -⟩ := hok hv ha hb
  have hctx : t.ctx = s.ctx := hsplit.ctx rfl
  have hwidth := hsplit.width_eq
  have hdomain : t.value hi * 2 ^ t.width + t.value lo < 2 ^ (2 * t.ctx.k.toNat) := by
    rw [hwidth, hproduct, hctx, h.ctx_k hv]
    exact mul_lt_barrett_domain ha hb
  obtain ⟨hreduced, hremainder⟩ := State.complete_bred (hctx ▸ hv) (hctx ▸ hwidth ▸ hnw) (by rw [hctx]; omega) hdomain d
  refine ⟨t, _, v, hmulw, exec_eq (.bred d hi lo) t, hmodmul, ?_, hreduced.err.trans hsplit.err⟩
  rw [hremainder, hval, hwidth, hproduct, hctx]

end Sys2Proof.Machine
end
